-- ==== Sys2Proof/Word.lean ====
section
/-! DEFINITION. The one word of the block: every cell, code, command, argument, reply and setting is a byte (R28). -/

namespace Sys2Proof

/-- A byte, `CODE_W` = 8 bits (R6, R28). -/
abbrev Byte := BitVec 8

end Sys2Proof
end

