-- ==== Sys2Proof/Syntax.lean ====
section
/-! DEFINITION. The instructions (one constructor per mnemonic of the opcode table), the encoded inputs they are
decoded from, and the stimulus lines of R59 by which the environment and the four agents take their steps. -/

namespace Sys2Proof

/-- The operations of `opcode_table.json`.

The operand of a `CMD2` command is `none` for its command byte alone, which `D_FETCH` takes, and `some a` for the
complete frame, which `D_ARG` finishes with the argument byte `a` (R52, R102, R113; log 10). -/
inductive Instr where
  /-- Command 0, "fetch key" (R103). -/
  | getkey
  /-- Command 1, "poll current raw state" (R104). -/
  | getcur
  /-- Command 2, "query queue depth" (R105). -/
  | getcnt
  /-- Command 10 (R106). -/
  | led0 (arg : Option Byte)
  /-- Command 11 (R107). -/
  | led1 (arg : Option Byte)
  /-- Command 12 (R108). -/
  | led2 (arg : Option Byte)
  /-- Command 13 (R109). -/
  | led3 (arg : Option Byte)
  /-- Command 20, "set sound enabled" (R110). -/
  | setsnd (arg : Option Byte)
  /-- Command 21, "set repeat enabled" (R111). -/
  | setrpt (arg : Option Byte)
  /-- Every other command code (R112). -/
  | cmdIgnored (code : Byte)
  /-- Status class 0x0 (R92). -/
  | stBusError
  /-- Status class 0x1 (R85). -/
  | stSlaWAck
  /-- Status class 0x2 (R86). -/
  | stGcAck
  /-- Status class 0x3 with the byte received (R87). -/
  | stRxDataAck (d : Byte)
  /-- Status class 0x4 with the byte received (R88). -/
  | stGcRxDataAck (d : Byte)
  /-- Status class 0x5 (R90). -/
  | stRxDataNack
  /-- Status class 0x6 (R89). -/
  | stStopRestart
  /-- Status class 0x7 (R82). -/
  | stSlaRAck
  /-- Status class 0x8 (R83). -/
  | stTxDataAck
  /-- Status class 0x9 (R84). -/
  | stTxDataNack
  /-- Status class 0xA (R91). -/
  | stTxLastAck
  /-- Status classes 0xB to 0xF (R93). -/
  | stUnrecognized (cls : BitVec 4)
  /-- One tick with the scan code given (R51, R64). -/
  | tickC (k : Byte)
  /-- One tick with the matrix sample given (R51, R61). -/
  | tickM (m : BitVec 16)
deriving DecidableEq, Repr

/-- An encoded input, in one of the table's three spaces (R51, R52, R56). Nothing in the bits tells the spaces
apart: the agent that takes the step does (log 9). -/
inductive Encoded where
  /-- Command bytes as they leave `RX` in arrival order (R52). -/
  | frame (bytes : List Byte)
  /-- A bus-status event: `st_class` and `st_data` (R56). -/
  | status (cls : BitVec 4) (d : Byte)
  /-- The tick input in the form `TICK.C` (R51). -/
  | scanCode (k : Byte)
  /-- The tick input in the form `TICK.M` (R51). -/
  | sample (m : BitVec 16)
deriving DecidableEq, Repr

/-- The synchroniser's copies (R38 to R43). `SYNC_CFG` may also be split in its two one-bit crossings (R41), so the
two halves are steps of their own beside it (log 15). -/
inductive Crossing where
  | kqWr
  | kqRd
  | cur
  | cfg
  | cfgSound
  | cfgRepeat
  | ovfReq
  | ovfAck
deriving DecidableEq, Repr

/-- One stimulus line: one atomic step of one agent, with its input (R59). `RESET` is given by the input `rst`
going up and down again (R146); `BOOT` needs no line, it is what the machine does next once `rst` is released
(R149; log 13). -/
inductive Line where
  | tickC (k : Byte)
  | tickM (m : BitVec 16)
  | st (cls : BitVec 4) (d : Byte)
  | dFetch
  | dArg
  | dStage
  | dHouse
  | sync (x : Crossing)
  | rstAssert
  | rstRelease
deriving DecidableEq, Repr, Inhabited

end Sys2Proof
end

