-- ==== Sys2Proof/WellFormed.lean ====
section
/-! DEFINITION. Which instructions are encodings of the table: the operands of the two block rows are limited. -/

namespace Sys2Proof

/-- The nine command codes that are commands (R53). -/
def isCommand (c : Byte) : Bool :=
  c == 0 || c == 1 || c == 2 || c == 10 || c == 11 || c == 12 || c == 13 || c == 20 || c == 21

/-- The command codes of format `CMD2`, which take an argument byte (R52). -/
def takesArg (c : Byte) : Bool :=
  c == 10 || c == 11 || c == 12 || c == 13 || c == 20 || c == 21

/-- The operand checks: `CMD_IGNORED` stands for no code that is a command (R112), `ST_UNRECOGNIZED` for the classes
0xB to 0xF only (R93). Every other operand may have any value. -/
def Instr.wf : Instr → Bool
  | .cmdIgnored c => !isCommand c
  | .stUnrecognized cls => 11 ≤ cls.toNat
  | .getkey | .getcur | .getcnt => true
  | .led0 _ | .led1 _ | .led2 _ | .led3 _ | .setsnd _ | .setrpt _ => true
  | .stBusError | .stSlaWAck | .stGcAck | .stRxDataNack | .stStopRestart => true
  | .stSlaRAck | .stTxDataAck | .stTxDataNack | .stTxLastAck => true
  | .stRxDataAck _ | .stGcRxDataAck _ => true
  | .tickC _ | .tickM _ => true

/-- The instruction is an encoding of the table. -/
abbrev WellFormed (i : Instr) : Prop := i.wf = true

end Sys2Proof
end

