-- ==== Sys2Proof/Decode.lean ====
section
/-! DEFINITION. The decoder, total on every encoded input and rejecting by name; the encoder after it; the opcode
table as rows of mask and match, to be read beside `opcode_table.json`. -/

namespace Sys2Proof

/-- Why a byte string is no command frame. Every status event and every tick input decodes. -/
inductive DecodeError where
  /-- No byte: there is nothing to decode. -/
  | emptyFrame
  /-- Two bytes whose first takes no argument (R52). -/
  | takesNoArgument (code : Byte)
  /-- More bytes than the longest frame has (R52). -/
  | frameTooLong
deriving DecidableEq, Repr

/-- The first byte of a frame, taken alone, as `D_FETCH` takes it (R53, R102). -/
def decodeCommandByte (c : Byte) : Instr :=
  if c = 0 then .getkey
  else if c = 1 then .getcur
  else if c = 2 then .getcnt
  else if c = 10 then .led0 none
  else if c = 11 then .led1 none
  else if c = 12 then .led2 none
  else if c = 13 then .led3 none
  else if c = 20 then .setsnd none
  else if c = 21 then .setrpt none
  else .cmdIgnored c

/-- A complete frame of format `CMD2`, as `D_ARG` finishes it (R52, R113). -/
def decodeArgumentByte (c a : Byte) : Except DecodeError Instr :=
  if c = 10 then .ok (.led0 (some a))
  else if c = 11 then .ok (.led1 (some a))
  else if c = 12 then .ok (.led2 (some a))
  else if c = 13 then .ok (.led3 (some a))
  else if c = 20 then .ok (.setsnd (some a))
  else if c = 21 then .ok (.setrpt (some a))
  else .error (.takesNoArgument c)

/-- The bytes of a frame in arrival order (R52). -/
def decodeFrame : List Byte → Except DecodeError Instr
  | [] => .error .emptyFrame
  | [c] => .ok (decodeCommandByte c)
  | [c, a] => decodeArgumentByte c a
  | _ :: _ :: _ :: _ => .error .frameTooLong

/-- A bus-status event: its class selects the rule, `d` counts for the two receive classes only (R56). -/
def decodeStatus (cls : BitVec 4) (d : Byte) : Instr :=
  if cls = 0x0 then .stBusError
  else if cls = 0x1 then .stSlaWAck
  else if cls = 0x2 then .stGcAck
  else if cls = 0x3 then .stRxDataAck d
  else if cls = 0x4 then .stGcRxDataAck d
  else if cls = 0x5 then .stRxDataNack
  else if cls = 0x6 then .stStopRestart
  else if cls = 0x7 then .stSlaRAck
  else if cls = 0x8 then .stTxDataAck
  else if cls = 0x9 then .stTxDataNack
  else if cls = 0xA then .stTxLastAck
  else .stUnrecognized cls

/-- The decoder (R51, R52, R56, R58). -/
def decode : Encoded → Except DecodeError Instr
  | .frame bytes => decodeFrame bytes
  | .status cls d => .ok (decodeStatus cls d)
  | .scanCode k => .ok (.tickC k)
  | .sample m => .ok (.tickM m)

/-- The bytes of a `CMD2` frame: the command byte, then the argument byte once there is one (R52). -/
def commandFrame (c : Byte) : Option Byte → Encoded
  | none => .frame [c]
  | some a => .frame [c, a]

/-- The encoder (R51, R53, R56). Where `st_data` is ignored it is written 0 (log 18). -/
def encode : Instr → Encoded
  | .getkey => .frame [0x00]
  | .getcur => .frame [0x01]
  | .getcnt => .frame [0x02]
  | .led0 arg => commandFrame 0x0A arg
  | .led1 arg => commandFrame 0x0B arg
  | .led2 arg => commandFrame 0x0C arg
  | .led3 arg => commandFrame 0x0D arg
  | .setsnd arg => commandFrame 0x14 arg
  | .setrpt arg => commandFrame 0x15 arg
  | .cmdIgnored c => .frame [c]
  | .stBusError => .status 0x0 0
  | .stSlaWAck => .status 0x1 0
  | .stGcAck => .status 0x2 0
  | .stRxDataAck d => .status 0x3 d
  | .stGcRxDataAck d => .status 0x4 d
  | .stRxDataNack => .status 0x5 0
  | .stStopRestart => .status 0x6 0
  | .stSlaRAck => .status 0x7 0
  | .stTxDataAck => .status 0x8 0
  | .stTxDataNack => .status 0x9 0
  | .stTxLastAck => .status 0xA 0
  | .stUnrecognized cls => .status cls 0
  | .tickC k => .scanCode k
  | .tickM m => .sample m

/-- An encoded input with the bits that its own rule ignores set to 0: `st_data` of every class but 0x3 and 0x4
(R56). -/
def Encoded.withoutIgnoredBits : Encoded → Encoded
  | .status cls d => .status cls (if cls = 0x3 ∨ cls = 0x4 then d else 0)
  | e => e

/-- The three encoded spaces, as the `format` column of the table tells them apart. -/
inductive Format where
  | cmd1
  | cmd2
  | status
  | tick
deriving DecidableEq, Repr

/-- One row of the opcode table: it matches a value `v` of its space when `v` and `mask` agree with `pattern`. -/
structure Row where
  mnemonic : String
  format : Format
  pattern : Nat
  mask : Nat
deriving DecidableEq, Repr

/-- The nineteen rows of the command byte (R53): every byte matches exactly one. -/
def commandRows : List Row :=
  [⟨"GETKEY", .cmd1, 0x00, 0xFF⟩, ⟨"GETCUR", .cmd1, 0x01, 0xFF⟩, ⟨"GETCNT", .cmd1, 0x02, 0xFF⟩,
    ⟨"LED0", .cmd2, 0x0A, 0xFF⟩, ⟨"LED1", .cmd2, 0x0B, 0xFF⟩, ⟨"LED2", .cmd2, 0x0C, 0xFF⟩,
    ⟨"LED3", .cmd2, 0x0D, 0xFF⟩, ⟨"SETSND", .cmd2, 0x14, 0xFF⟩, ⟨"SETRPT", .cmd2, 0x15, 0xFF⟩] ++
  [⟨"CMD_IGNORED", .cmd1, 0x03, 0xFF⟩, ⟨"CMD_IGNORED", .cmd1, 0x04, 0xFC⟩, ⟨"CMD_IGNORED", .cmd1, 0x08, 0xFE⟩,
    ⟨"CMD_IGNORED", .cmd1, 0x0E, 0xFE⟩, ⟨"CMD_IGNORED", .cmd1, 0x10, 0xFC⟩, ⟨"CMD_IGNORED", .cmd1, 0x16, 0xFE⟩,
    ⟨"CMD_IGNORED", .cmd1, 0x18, 0xF8⟩, ⟨"CMD_IGNORED", .cmd1, 0x20, 0xE0⟩, ⟨"CMD_IGNORED", .cmd1, 0x40, 0xC0⟩,
    ⟨"CMD_IGNORED", .cmd1, 0x80, 0x80⟩]

/-- The thirteen rows of the status class (R56): every class matches exactly one. -/
def statusRows : List Row :=
  [⟨"ST_BUS_ERROR", .status, 0x0, 0xF⟩, ⟨"ST_SLA_W_ACK", .status, 0x1, 0xF⟩, ⟨"ST_GC_ACK", .status, 0x2, 0xF⟩,
    ⟨"ST_RX_DATA_ACK", .status, 0x3, 0xF⟩, ⟨"ST_GC_RX_DATA_ACK", .status, 0x4, 0xF⟩,
    ⟨"ST_RX_DATA_NACK", .status, 0x5, 0xF⟩, ⟨"ST_STOP_RESTART", .status, 0x6, 0xF⟩] ++
  [⟨"ST_SLA_R_ACK", .status, 0x7, 0xF⟩, ⟨"ST_TX_DATA_ACK", .status, 0x8, 0xF⟩,
    ⟨"ST_TX_DATA_NACK", .status, 0x9, 0xF⟩, ⟨"ST_TX_LAST_ACK", .status, 0xA, 0xF⟩,
    ⟨"ST_UNRECOGNIZED", .status, 0xB, 0xF⟩, ⟨"ST_UNRECOGNIZED", .status, 0xC, 0xC⟩]

/-- The row matches the value. -/
def Row.covers (r : Row) (v : Nat) : Bool := v &&& r.mask == r.pattern

/-- The mnemonic of an instruction in `opcode_table.json`. -/
def Instr.mnemonic : Instr → String
  | .getkey => "GETKEY"
  | .getcur => "GETCUR"
  | .getcnt => "GETCNT"
  | .led0 _ => "LED0"
  | .led1 _ => "LED1"
  | .led2 _ => "LED2"
  | .led3 _ => "LED3"
  | .setsnd _ => "SETSND"
  | .setrpt _ => "SETRPT"
  | .cmdIgnored _ => "CMD_IGNORED"
  | .stBusError => "ST_BUS_ERROR"
  | .stSlaWAck => "ST_SLA_W_ACK"
  | .stGcAck => "ST_GC_ACK"
  | .stRxDataAck _ => "ST_RX_DATA_ACK"
  | .stGcRxDataAck _ => "ST_GC_RX_DATA_ACK"
  | .stRxDataNack => "ST_RX_DATA_NACK"
  | .stStopRestart => "ST_STOP_RESTART"
  | .stSlaRAck => "ST_SLA_R_ACK"
  | .stTxDataAck => "ST_TX_DATA_ACK"
  | .stTxDataNack => "ST_TX_DATA_NACK"
  | .stTxLastAck => "ST_TX_LAST_ACK"
  | .stUnrecognized _ => "ST_UNRECOGNIZED"
  | .tickC _ => "TICK.C"
  | .tickM _ => "TICK.M"

/-- The row whose space and pattern an encoded input falls in, if it is one of the rows with a pattern. -/
def Encoded.rows : Encoded → List Row
  | .frame (c :: _) => commandRows.filter (·.covers c.toNat)
  | .status cls _ => statusRows.filter (·.covers cls.toNat)
  | .frame [] | .scanCode _ | .sample _ => []

/-- The encoded input that the bits of a table word stand for. The table's spaces overlap, and a word does not say
which it belongs to; its width is all there is to tell them apart by (log 9): 8 bits are a command byte, 4 bits a
status class (its data byte zero), 12 bits a status event (`st_data` above `st_class`), 16 bits a matrix sample. -/
def tableWord (nbits w : Nat) : Option Encoded :=
  if nbits = 8 then some (.frame [BitVec.ofNat 8 w])
  else if nbits = 4 then some (.status (BitVec.ofNat 4 w) 0)
  else if nbits = 12 then some (.status (BitVec.ofNat 4 w) (BitVec.ofNat 8 (w / 16)))
  else if nbits = 16 then some (.sample (BitVec.ofNat 16 w))
  else none

/-- The instruction the decoder reads from a table word. A `CMD2` row's word is its command byte alone, which is all
that `D_FETCH` takes; the zero argument byte above it is for `D_ARG` (log 9, log 10). -/
def decodeTableWord (nbits w : Nat) : Option Instr :=
  (tableWord nbits w).bind fun e => (decode e).toOption

end Sys2Proof
end

