-- ==== Sys2Proof/Config.lean ====
section
/-! DEFINITION. The constants the spec fixes (R5), the parameters it leaves open as plain data (R6), and the free
values: opaque, so that nothing can be proved of what they are. -/

namespace Sys2Proof.Config

/-- `T_CONFIRM` (R5). -/
def tConfirm : Nat := 3

/-- `T_REPEAT` (R5). -/
def tRepeat : Nat := 75

/-- `T_ROLLBACK` (R5). -/
def tRollback : Nat := 60

/-- `T_INTERVAL` (R5). -/
def tInterval : Nat := 15

/-- `C_K`, slots of the keyboard event FIFO (R5). -/
def cK : Nat := 32

/-- `C_T`, slots of the bus transmit buffer (R5). -/
def cT : Nat := 4

/-- FREE VALUE. What a cell of `kq_mem` that was not written since reset number `epoch` holds (R25: "unspecified";
U10: any value). Log 7, safe. -/
opaque kqUnwritten (epoch index : Nat) : Byte

/-- FREE VALUE. As `kqUnwritten`, for `rx_mem` (R25, U10). Log 7, safe. -/
opaque rxUnwritten (epoch index : Nat) : Byte

/-- FREE VALUE. What a non-volatile slot that the block never stored to holds (R6, R149, U12). Log 6, safe. -/
opaque nvmInitial (slot : Nat) : Byte

/-- FREE VALUE. The `n`-th line drawn when no stimulus line is listed: which agent moves next and with which input
is open (R8, U16, U17). Log 1, safe. -/
opaque freeLine (n : Nat) : Line

/-- The parameters that the rules read and the spec leaves to the instance (R6). They are constant: no step changes
them. -/
structure Params where
  /-- `C_R`, slots of the bus receive buffer. -/
  cR : Nat
  /-- `KEYMAP`, row by row: entry `4*r + c` is the code of row `r`, column `c`. -/
  keymap : List Byte
  /-- `SLOT_SOUND`. -/
  slotSound : Nat
  /-- `SLOT_REPEAT`. -/
  slotRepeat : Nat
deriving DecidableEq, Repr

/-- The constraints of R6 and R7 on the open parameters. -/
abbrev Params.wf (p : Params) : Prop :=
  2 ≤ p.cR ∧ p.keymap.length = 16 ∧ p.keymap.Nodup ∧ (∀ k ∈ p.keymap, 1 ≤ k.toNat ∧ k.toNat ≤ 16) ∧
    p.slotSound ≠ p.slotRepeat

/-- The instance `State.reset` stands in: the default `KEYMAP` of R63; `C_R` = 8, slots 0 and 1 are DESIGN CHOICEs
(log 3, 4, 5; unsafe for a statement that rests on them). -/
def Params.standard : Params where
  cR := 8
  keymap := [1, 2, 3, 4, 5, 6, 7, 8, 9, 10, 11, 12, 13, 14, 15, 16]
  slotSound := 0
  slotRepeat := 1

end Sys2Proof.Config
end

