-- ==== Sys2Proof/Machine/State.lean ====
section
/-! DEFINITION. The state: everything the spec gives the block (R9 to R21), the two non-volatile bytes behind its
interface (R47), the open parameters (R6), and the model's own fields, as plain data; the ways a step can stop; the
state after reset. -/

namespace Sys2Proof.Machine

/-- The spaces of R27 that hold cells. -/
inductive Space where
  /-- `kq_mem[0..31]` (R11). -/
  | kq
  /-- `rx_mem[0..C_R-1]` (R16). -/
  | rx
  /-- `tx_mem[0..3]` (R18). -/
  | tx
  /-- The non-volatile slots (R47). -/
  | nvm
deriving DecidableEq, Repr

/-- The cells of the four spaces. Each list has its indices strictly rising and holds no entry equal to the stated
value of an unlisted cell (`Memory.wf`). -/
structure Memory where
  kq : List Host.Cell := []
  rx : List Host.Cell := []
  tx : List Host.Cell := []
  nvm : List Host.Cell := []
deriving DecidableEq, Repr

/-- The engine's reply to the bus controller, on `eng_action[1:0]` and, for `ACT_SEND` only, `eng_txdata[7:0]`
(R57). -/
inductive EngAction where
  /-- `ACT_ARM_ADDR`, code 0. -/
  | armAddr
  /-- `ACT_ARM_RX`, code 1. -/
  | armRx
  /-- `ACT_SEND`, code 2, with `eng_txdata`. -/
  | send (data : Byte)
  /-- `ACT_RELEASE_BUS`, code 3. -/
  | releaseBus
deriving DecidableEq, Repr

/-- The error conditions, with the info a trace may carry (R121). -/
inductive ErrorCondition where
  /-- `E_RX_OVF`, code 1, with the byte dropped (R122). -/
  | rxOvf (d : Byte)
  /-- `E_KQ_OVF`, code 2, with the key code dropped (R123). -/
  | kqOvf (k : Byte)
  /-- `E_BAD_CMD`, code 3, with the command code (R124). -/
  | badCmd (c : Byte)
  /-- `E_BUS`, code 4, with the status class (R125). -/
  | bus (cls : BitVec 4)
deriving DecidableEq, Repr

/-- The output ports as the last step drove them (R22): a port that a step does not drive is idle. The last two
fields are no ports: they are the trace of what happened inside the step, which the hardware does not keep (R121;
log 11, log 12). -/
structure Outputs where
  /-- `click_req`. -/
  click : Bool := false
  /-- `alert_req`. -/
  alert : Bool := false
  /-- `eng_action` with `eng_txdata`. -/
  action : Option EngAction := none
  /-- `nvm_store(slot, byte)`. -/
  nvmStore : Option (Nat × Byte) := none
  /-- Trace: the error condition raised (R121). -/
  raised : Option ErrorCondition := none
  /-- Trace: the key code given to `EMIT` (R65). -/
  emitted : Option Byte := none
deriving DecidableEq, Repr

/-- Where the block stands with respect to `rst` and `BOOT` (R146, R149; log 13). -/
inductive ResetPhase where
  /-- `rst` is asserted: no agent takes a step and every input event is ignored. -/
  | asserted
  /-- `rst` is released and `BOOT` comes next. -/
  | bootDue
  /-- The agents take their steps. -/
  | running
deriving DecidableEq, Repr

/-- The machine. A field's comment names the spec's state element. -/
structure State where
  /-- The open parameters of R6, constant (log 3). -/
  par : Config.Params := Config.Params.standard
  /-- `kq_mem`, `rx_mem`, `tx_mem` and the non-volatile slots. -/
  mem : Memory := {}
  /-- `last_code` (R9). -/
  lastCode : Byte := 0
  /-- `streak` (R9). -/
  streak : BitVec 7 := 0
  /-- `kq_wr` (R11). -/
  kqWr : BitVec 5 := 0
  /-- `kq_rd` (R11). -/
  kqRd : BitVec 5 := 0
  /-- `kq_rd_T` (R12). -/
  kqRdT : BitVec 5 := 0
  /-- `kq_wr_B` (R12). -/
  kqWrB : BitVec 5 := 0
  /-- `cur_code_B` (R12). -/
  curCodeB : Byte := 0
  /-- `sound_en_T` (R13). -/
  soundEnT : Bool := false
  /-- `repeat_en_T` (R13). -/
  repeatEnT : Bool := false
  /-- `ovf_req` (R14). -/
  ovfReq : Bool := false
  /-- `ovf_ack` (R14). -/
  ovfAck : Bool := false
  /-- `ovf_req_B` (R14). -/
  ovfReqB : Bool := false
  /-- `ovf_ack_T` (R14). -/
  ovfAckT : Bool := false
  /-- `busy` (R15). -/
  busy : Bool := false
  /-- `rx_wr` (R16), in 0..`C_R`-1. -/
  rxWr : Nat := 0
  /-- `rx_rd` (R16), in 0..`C_R`-1. -/
  rxRd : Nat := 0
  /-- `rx_full` (R16). -/
  rxFull : Bool := false
  /-- `rx_ovf` (R17). -/
  rxOvf : Bool := false
  /-- `tx_wr` (R18). -/
  txWr : BitVec 2 := 0
  /-- `tx_rd` (R18). -/
  txRd : BitVec 2 := 0
  /-- `dp_phase` (R19). -/
  dpPhase : BitVec 2 := 0
  /-- `dp_cmd` (R19). -/
  dpCmd : Byte := 0
  /-- `dp_reply` (R19). -/
  dpReply : Byte := 0
  /-- `sound_en` (R20). -/
  soundEn : Byte := 0
  /-- `repeat_en` (R20). -/
  repeatEn : Byte := 0
  /-- `led[3:0]` (R21). -/
  led : BitVec 4 := 0
  /-- The model's: `rst` and `BOOT` (R146, R149; log 13). -/
  resetPhase : ResetPhase := .bootDue
  /-- The model's: how many resets there have been, the index of the free contents of unwritten cells (log 7). -/
  epoch : Nat := 0
  /-- The model's: the stimulus lines still to come (R59; log 1). -/
  inbox : List Line := []
  /-- The model's: how many free lines have been drawn (log 1). -/
  freeIdx : Nat := 0
  /-- The ports of R22 as the last step drove them (log 11). -/
  out : Outputs := {}
deriving DecidableEq, Repr

/-- How the machine stops with a fault. The block itself has no trap (R126). -/
inductive Fault where
  /-- An access to a cell of `RX` at an index of `C_R` or more: there is no such cell (R16, R27). Raised by a push
  or a pop of `RX` in a state no run reaches, since an index never leaves its range (R29). Safe (log 8). -/
  | noSuchRxCell (index : Nat)
deriving DecidableEq, Repr

/-- How the machine declines an instruction. -/
inductive Refusal where
  /-- An instruction that has no meaning yet, raised by `exec`'s arm alone. Safe. No arm raises it now. -/
  | notModelled (mnemonic : String)
deriving DecidableEq, Repr

/-- The state after `RESET` (R25, R147), `BOOT` still to come (R149): each default above is the value of R25, and no
cell is listed, no line is listed, the ports are idle. -/
def State.reset : State := {}

end Sys2Proof.Machine
end

