-- ==== Sys2Proof/Machine/Ops.lean ====
section
/-! DEFINITION. The named operations over the cells and the registers: reading and writing a cell, driving the ports,
raising an error condition, and the pushes and pops of the three buffers. -/

namespace Sys2Proof.Machine

/-! ### Cells -/

/-- The listed value of cell `i`, if it is listed. -/
def findCell (i : Nat) : List Host.Cell → Option Byte
  | [] => none
  | (j, w) :: rest => if i = j then some w else findCell i rest

/-- The list with cell `i` holding `v`, where `fill` is the stated value of an unlisted cell: writing that value
removes the entry. -/
def putCell (fill : Option Byte) (i : Nat) (v : Byte) : List Host.Cell → List Host.Cell
  | [] => if fill = some v then [] else [(i, v)]
  | (j, w) :: rest =>
    if i < j then (if fill = some v then (j, w) :: rest else (i, v) :: (j, w) :: rest)
    else if i = j then (if fill = some v then rest else (i, v) :: rest)
    else (j, w) :: putCell fill i v rest

/-- The canonical form of one space's list. -/
abbrev cellsWf (fill : Option Byte) (cells : List Host.Cell) : Prop :=
  cells.Pairwise (fun a b => a.1 < b.1) ∧ ∀ c ∈ cells, fill ≠ some c.2

/-- The value the spec states for a cell nothing has written: 0x00 in `TX`; none in `KQ`, `RX` and the non-volatile
slots (R25, U12). -/
def Space.fill : Space → Option Byte
  | .tx => some 0
  | .kq | .rx | .nvm => none

/-- What an unlisted cell reads as: the stated value, or a free value where the spec states none (log 6, log 7). -/
def unlistedCell (sp : Space) (epoch i : Nat) : Byte :=
  match sp with
  | .tx => 0
  | .kq => Config.kqUnwritten epoch i
  | .rx => Config.rxUnwritten epoch i
  | .nvm => Config.nvmInitial i

/-- The list of one space. -/
def Memory.cells (m : Memory) : Space → List Host.Cell
  | .kq => m.kq
  | .rx => m.rx
  | .tx => m.tx
  | .nvm => m.nvm

/-- The memory with cell `i` of `sp` holding `v`. -/
def Memory.write (m : Memory) (sp : Space) (i : Nat) (v : Byte) : Memory :=
  match sp with
  | .kq => { m with kq := putCell Space.kq.fill i v m.kq }
  | .rx => { m with rx := putCell Space.rx.fill i v m.rx }
  | .tx => { m with tx := putCell Space.tx.fill i v m.tx }
  | .nvm => { m with nvm := putCell Space.nvm.fill i v m.nvm }

/-- Every space's list is in its canonical form. -/
abbrev Memory.wf (m : Memory) : Prop :=
  cellsWf Space.kq.fill m.kq ∧ cellsWf Space.rx.fill m.rx ∧ cellsWf Space.tx.fill m.tx ∧ cellsWf Space.nvm.fill m.nvm

/-- `MemRead(space, i, 1)`, and `NvmLoad(slot)` for the non-volatile slots: one byte, no side effect (R30, R31,
R47). -/
def State.readCell (s : State) (sp : Space) (i : Nat) : Byte :=
  (findCell i (s.mem.cells sp)).getD (unlistedCell sp s.epoch i)

/-- `MemWrite(space, i, 1, v)` (R30). -/
def State.writeCell (s : State) (sp : Space) (i : Nat) (v : Byte) : State :=
  { s with mem := s.mem.write sp i v }

/-! ### Ports -/

/-- The ports idle, as every step finds them (R22). -/
def State.quiet (s : State) : State := { s with out := {} }

/-- `emit eng_action(a)` (R57). -/
def State.drive (s : State) (a : EngAction) : State := { s with out := { s.out with action := some a } }

/-- The code on `eng_action[1:0]` (R57). -/
def EngAction.code : EngAction → BitVec 2
  | .armAddr => 0
  | .armRx => 1
  | .send _ => 2
  | .releaseBus => 3

/-- The next stimulus line: the first one listed, or a free one when none is (log 1). -/
def State.nextLine (s : State) : Line :=
  match s.inbox with
  | l :: _ => l
  | [] => Config.freeLine s.freeIdx

/-- The next line is taken. -/
def State.popLine (s : State) : State :=
  match s.inbox with
  | _ :: rest => { s with inbox := rest }
  | [] => { s with freeIdx := s.freeIdx + 1 }

/-! ### Error conditions -/

/-- The number of an error condition (R121). -/
def ErrorCondition.code : ErrorCondition → Nat
  | .rxOvf _ => 1
  | .kqOvf _ => 2
  | .badCmd _ => 3
  | .bus _ => 4

/-- `raise <Condition>(info)`, the block's one way of taking an exception: the trace records it and its lasting
effect is made, which transfers no control and saves nothing (R121, R126, R131). `E_RX_OVF` sets `rx_ovf`;
`E_KQ_OVF` toggles `ovf_req`, only with sound enabled in domain T and no raise outstanding; the other two change no
state. The counterpart of the return is `State.acknowledgeOverflows`. -/
def State.raise (s : State) (e : ErrorCondition) : State :=
  let traced := { s with out := { s.out with raised := some e } }
  match e with
  | .rxOvf _ => { traced with rxOvf := true }
  | .kqOvf _ => if s.soundEnT && s.ovfReq == s.ovfAckT then { traced with ovfReq := !s.ovfReq } else traced
  | .badCmd _ | .bus _ => traced

/-- The pending signals are cleared, whether or not an alert sounds (R115, R132). -/
def State.acknowledgeOverflows (s : State) : State := { s with ovfAck := s.ovfReqB, rxOvf := false }

/-! ### Keyboard event FIFO -/

/-- `KQ_PUSH(k)` (R72): tested before written, against the producer's view `kq_rd_T`. -/
def State.kqPush (s : State) (k : Byte) : State :=
  if s.kqWr + 1 = s.kqRdT then s.raise (.kqOvf k)
  else { s.writeCell .kq s.kqWr.toNat k with kqWr := s.kqWr + 1 }

/-- `KQ_POP0()`: the result and the state after (R73). -/
def State.kqPop0 (s : State) : Byte × State :=
  if s.kqRd = s.kqWrB then (0, s)
  else (s.readCell .kq s.kqRd.toNat, { s with kqRd := s.kqRd + 1 })

/-- `KQ_CLEAR()` (R74). -/
def State.kqClear (s : State) : State := { s with kqRd := s.kqWrB }

/-- `EMIT(k)` (R65): the click is requested for every emission, then the event is pushed. -/
def State.emit (s : State) (k : Byte) : State :=
  { s with out := { s.out with emitted := some k, click := s.soundEnT || s.out.click } }.kqPush k

/-! ### Bus receive and transmit buffers -/

/-- An index of `RX` advances modulo `C_R` (R29). -/
def State.rxNext (s : State) (i : Nat) : Nat := (i + 1) % s.par.cR

/-- The byte at `rx_rd`, the oldest unread one. -/
def State.rxHead (s : State) : Byte := s.readCell .rx s.rxRd

/-- What `RX_POP` does to the state (R98): the read index advances and `rx_full` is cleared. -/
def State.rxAdvance (s : State) : State := { s with rxRd := s.rxNext s.rxRd, rxFull := false }

/-- `RX_POP()`: the result and the state after (R98). -/
def State.rxPop (s : State) : Byte × State := (s.rxHead, s.rxAdvance)

/-- What `RX_PUSH(d)` does to a buffer that is not full (R81): the byte is stored, the write index advances, and
`rx_full` is set if it has come round to the read index. -/
def State.rxStore (s : State) (d : Byte) : State :=
  { s.writeCell .rx s.rxWr d with
    rxWr := s.rxNext s.rxWr
    rxFull := decide (s.rxNext s.rxWr = s.rxRd) || s.rxFull }

/-- `RX_PUSH(d)` (R81). The byte is acknowledged in either case. -/
def State.rxPush (s : State) (d : Byte) : Host.Outcome State Fault Refusal :=
  if s.rxFull then .next ((s.raise (.rxOvf d)).drive .armRx)
  else if s.rxWr < s.par.cR then .next ((s.rxStore d).drive .armRx)
  else .fault (.noSuchRxCell s.rxWr)

/-- `TX_NEXT()` (R80): no empty test, `tx_wr` is not read. -/
def State.txNext (s : State) : State :=
  { s with txRd := s.txRd + 1, busy := true }.drive (.send (s.readCell .tx s.txRd.toNat))

/-- `TX_STAGE(v)` (R99): one byte at index 0, both indices set. -/
def State.txStage (s : State) (v : Byte) : State := { s.writeCell .tx 0 v with txWr := 1, txRd := 0 }

/-! ### Non-volatile store -/

/-- `NvmStore(slot, v)`: driven on its port, and the store completes it (R47, U21). -/
def State.nvmWrite (s : State) (slot : Nat) (v : Byte) : State :=
  { s.writeCell .nvm slot v with out := { s.out with nvmStore := some (slot, v) } }

end Sys2Proof.Machine
end

