-- ==== Sys2Proof/Machine/Flags.lean ====
section
/-! DEFINITION. The derived signals, the tests and the counter arithmetic (R10, R14, R16, R75, R101, R119). -/

namespace Sys2Proof.Machine

/-! ### Names of `dp_phase` (R19) -/

/-- `DP_IDLE`. -/
def dpIdle : BitVec 2 := 0
/-- `DP_ARG`. -/
def dpArg : BitVec 2 := 1
/-- `DP_STAGE`. -/
def dpStage : BitVec 2 := 2

/-- `dp_phase` reads as `DP_IDLE`: value 3 does too (R19, R101, U13). -/
def State.phaseIdle (s : State) : Bool := s.dpPhase == dpIdle || s.dpPhase == 3

/-! ### Derived signals -/

/-- `cur_code` (R10). -/
def State.curCode (s : State) : Byte := if Config.tConfirm ≤ s.streak.toNat then s.lastCode else 0

/-- `kbd_ovf_pending` (R14). -/
def State.kbdOvfPending (s : State) : Bool := s.ovfReqB != s.ovfAck

/-- `rx_empty` (R16). -/
def State.rxEmpty (s : State) : Bool := s.rxWr == s.rxRd && !s.rxFull

/-- `rx_count` (R16); the difference is taken modulo `C_R`. -/
def State.rxCount (s : State) : Nat :=
  if s.rxFull then s.par.cR else (s.rxWr + s.par.cR - s.rxRd) % s.par.cR

/-- The true occupancy of the keyboard FIFO (R11). -/
def State.kqOccupancy (s : State) : BitVec 5 := s.kqWr - s.kqRd

/-- `KQ_COUNT()`, the occupancy as the consumer sees it (R75). -/
def State.kqCount (s : State) : BitVec 5 := s.kqWrB - s.kqRd

/-! ### Counters -/

/-- `min(streak + 1, T_REPEAT)`: the sum is formed without wrapping and clamped (R119 (a)). -/
def streakNext (streak : BitVec 7) : BitVec 7 :=
  if streak.toNat + 1 < Config.tRepeat then streak + 1 else BitVec.ofNat 7 Config.tRepeat

/-! ### When a dispatcher step is enabled (R101) -/

/-- `D_FETCH` is enabled. -/
def State.fetchEnabled (s : State) : Bool := s.phaseIdle && !s.rxEmpty

/-- `D_ARG` is enabled. -/
def State.argEnabled (s : State) : Bool := s.dpPhase == dpArg && !s.rxEmpty

/-- `D_STAGE` is enabled. -/
def State.stageEnabled (s : State) : Bool := s.dpPhase == dpStage && !s.busy

/-- `D_HOUSE` is enabled. -/
def State.houseEnabled (s : State) : Bool := s.phaseIdle && (s.kbdOvfPending || s.rxOvf)

/-- The dispatcher has no enabled step: it is blocked, or asleep in `DP_IDLE` (R101, R116, R117). -/
def State.dispatcherIdle (s : State) : Bool :=
  !s.fetchEnabled && !s.argEnabled && !s.stageEnabled && !s.houseEnabled

end Sys2Proof.Machine
end

