-- ==== Sys2Proof/Machine/Operands.lean ====
section
/-! DEFINITION. The operand forms: the boolean reading of an argument, the LED index, the matrix sample (R51, R54). -/

namespace Sys2Proof.Machine

/-- "≠ 0" applied to a byte: an argument as a level, a setting as enabled (R20, R54). -/
def nonZero (b : Byte) : Bool := b != 0

/-- The LED number of a command code, `cmd − 10` (R54, R119 (d)); meant for the codes 10 to 13. -/
def ledIndex (cmd : Byte) : Nat := (cmd - 10).toNat

/-- `led` with bit `n` set to `level` and every other bit as it was (R21). -/
def setLedBit (led : BitVec 4) (n : Nat) (level : Bool) : BitVec 4 :=
  if level then led ||| (1#4 <<< n) else led &&& ~~~(1#4 <<< n)

/-- `M[r][c] = m[4*r + c]` (R51). -/
def matrixFlag (m : BitVec 16) (r c : Nat) : Bool := m.getLsbD (4 * r + c)

/-- How many columns are asserted in row `r`, 0 to 4 (R61, R119 (g)). -/
def rowCount (m : BitVec 16) (r : Nat) : Nat :=
  (matrixFlag m r 0).toNat + (matrixFlag m r 1).toNat + (matrixFlag m r 2).toNat + (matrixFlag m r 3).toNat

/-- The lowest asserted column of row `r`, and so the one asserted column when there is exactly one (R61). -/
def rowColumn (m : BitVec 16) (r : Nat) : Nat :=
  if matrixFlag m r 0 then 0 else if matrixFlag m r 1 then 1 else if matrixFlag m r 2 then 2 else 3

/-- `KEYMAP[r][c]` (R63). -/
def keyAt (par : Config.Params) (r c : Nat) : Byte := par.keymap.getD (4 * r + c) 0

/-- `SCAN` over the rows given, in their order: the first row with exactly one column decides (R61). -/
def scanRows (par : Config.Params) (m : BitVec 16) : List Nat → Byte
  | [] => 0
  | r :: rest => if rowCount m r = 1 then keyAt par r (rowColumn m r) else scanRows par m rest

/-- `SCAN(M)` (R61, R62). -/
def scan (par : Config.Params) (m : BitVec 16) : Byte := scanRows par m [0, 1, 2, 3]

end Sys2Proof.Machine
end

