-- ==== Sys2Proof/Machine/Sync.lean ====
section
/-! DEFINITION. Agent `S`: the synchroniser's copies (R37 to R43). Always enabled. -/

namespace Sys2Proof.Machine

/-- `SYNC_CFG` (R41). -/
def State.syncCfg (s : State) : State := { s with soundEnT := nonZero s.soundEn, repeatEnT := nonZero s.repeatEn }

/-- One synchroniser step: the seen copy takes its home value as it is now (R37). -/
def State.syncStep (s : State) : Crossing → State
  | .kqWr => { s.quiet with kqWrB := s.kqWr }
  | .kqRd => { s.quiet with kqRdT := s.kqRd }
  | .cur => { s.quiet with curCodeB := s.curCode }
  | .cfg => s.quiet.syncCfg
  | .cfgSound => { s.quiet with soundEnT := nonZero s.soundEn }
  | .cfgRepeat => { s.quiet with repeatEnT := nonZero s.repeatEn }
  | .ovfReq => { s.quiet with ovfReqB := s.ovfReq }
  | .ovfAck => { s.quiet with ovfAckT := s.ovfAck }

end Sys2Proof.Machine
end

