-- ==== Sys2Proof/Machine/Boot.lean ====
section
/-! DEFINITION. `RESET` and `BOOT` (R146 to R151). -/

namespace Sys2Proof.Machine

/-- `RESET` (R147), with `rst` still asserted: every state element takes the value of R25. What is not the block's
stays: the parameters, the non-volatile store, the stimulus lines to come. The contents of `kq_mem` and `rx_mem` are
unspecified afresh (log 7). -/
def State.resetStep (s : State) : State :=
  { State.reset with
    par := s.par
    mem := { nvm := s.mem.nvm }
    resetPhase := .asserted
    epoch := s.epoch + 1
    inbox := s.inbox
    freeIdx := s.freeIdx }

/-- `rst` is released: `BOOT` comes next (R149). Nothing happens if `rst` was not asserted. -/
def State.releaseStep (s : State) : State :=
  match s.resetPhase with
  | .asserted => { s.quiet with resetPhase := .bootDue }
  | .bootDue | .running => s.quiet

/-- `BOOT()` (R149): the settings are loaded as they are, `SYNC_CFG` is part of it, the bus controller is armed. -/
def State.bootStep (s : State) : State :=
  { s.quiet with
    soundEn := s.readCell .nvm s.par.slotSound
    repeatEn := s.readCell .nvm s.par.slotRepeat
    resetPhase := .running }.syncCfg.drive .armAddr

end Sys2Proof.Machine
end

