-- ==== Sys2Proof/Machine/Commands.lean ====
section
/-! DEFINITION. Agent `D`, the encoded part: one definition per bus command (R102 to R113). A command runs inside the
step that pops its byte; a `CMD2` command inside `D_FETCH` for its command byte and inside `D_ARG` for its argument. A
step that is not enabled leaves the machine as it is (log 2). -/

namespace Sys2Proof.Machine

/-- `D_FETCH` with the effect of the command fetched (R98, R102): the command byte is popped and the effect happens
in the same step. -/
def State.fetchStep (s : State) (effect : State → State) : Host.Outcome State Fault Refusal :=
  if s.fetchEnabled then
    (if s.rxRd < s.par.cR then .next (effect s.quiet.rxAdvance) else .fault (.noSuchRxCell s.rxRd))
  else .next s.quiet

/-- `D_ARG` with the effect of the argument (R98, R113): the argument byte is popped, the effect happens and the
dispatcher is idle again. -/
def State.argStep (s : State) (effect : State → State) : Host.Outcome State Fault Refusal :=
  if s.argEnabled then
    (if s.rxRd < s.par.cR then .next { effect s.quiet.rxAdvance with dpPhase := dpIdle }
    else .fault (.noSuchRxCell s.rxRd))
  else .next s.quiet

/-- `dp_cmd <- c; dp_phase <- DP_ARG` (R102). -/
def State.awaitArg (s : State) (c : Byte) : State := { s with dpCmd := c, dpPhase := dpArg }

/-- `dp_reply <- v; dp_phase <- DP_STAGE` (R103, R104, R105). -/
def State.awaitStage (s : State) (v : Byte) : State := { s with dpReply := v, dpPhase := dpStage }

/-- A command of format `CMD2` (R102, R113): the command byte alone makes the dispatcher wait for the argument; the
argument finishes the command the dispatcher waits in, and no other. -/
def State.cmd2 (s : State) (c : Byte) (arg : Option Byte) (effect : Byte → State → State) :
    Host.Outcome State Fault Refusal :=
  match arg with
  | none => s.fetchStep (·.awaitArg c)
  | some a => if s.dpCmd = c then s.argStep (effect a) else .next s.quiet

/-- `led[cmd − 10] <- (a ≠ 0)` (R54, R106 to R109). -/
def State.setLed (s : State) (cmd a : Byte) : State := { s with led := setLedBit s.led (ledIndex cmd) (nonZero a) }

/-- `GETKEY`, command 0 (R103): the oldest event or 0, and the rest is discarded. -/
def execGetkey (s : State) : Host.Outcome State Fault Refusal :=
  s.fetchStep fun t => (t.kqPop0.2.kqClear).awaitStage t.kqPop0.1

/-- `GETCUR`, command 1 (R104). -/
def execGetcur (s : State) : Host.Outcome State Fault Refusal := s.fetchStep fun t => t.kqClear.awaitStage t.curCodeB

/-- `GETCNT`, command 2 (R105). -/
def execGetcnt (s : State) : Host.Outcome State Fault Refusal :=
  s.fetchStep fun t => t.awaitStage (t.kqCount.zeroExtend 8)

/-- `LED0`, command 10 (R106). -/
def execLed0 (arg : Option Byte) (s : State) : Host.Outcome State Fault Refusal := s.cmd2 10 arg fun a t => t.setLed 10 a

/-- `LED1`, command 11 (R107). -/
def execLed1 (arg : Option Byte) (s : State) : Host.Outcome State Fault Refusal := s.cmd2 11 arg fun a t => t.setLed 11 a

/-- `LED2`, command 12 (R108). -/
def execLed2 (arg : Option Byte) (s : State) : Host.Outcome State Fault Refusal := s.cmd2 12 arg fun a t => t.setLed 12 a

/-- `LED3`, command 13 (R109). -/
def execLed3 (arg : Option Byte) (s : State) : Host.Outcome State Fault Refusal := s.cmd2 13 arg fun a t => t.setLed 13 a

/-- `SETSND`, command 20 (R110): the byte is kept as received and stored. -/
def execSetsnd (arg : Option Byte) (s : State) : Host.Outcome State Fault Refusal :=
  s.cmd2 20 arg fun a t => { t.nvmWrite t.par.slotSound a with soundEn := a }

/-- `SETRPT`, command 21 (R111). -/
def execSetrpt (arg : Option Byte) (s : State) : Host.Outcome State Fault Refusal :=
  s.cmd2 21 arg fun a t => { t.nvmWrite t.par.slotRepeat a with repeatEn := a }

/-- `CMD_IGNORED` (R112): one byte consumed, `E_BAD_CMD` in the trace, `dp_phase` as it was. -/
def execCmdIgnored (code : Byte) (s : State) : Host.Outcome State Fault Refusal :=
  s.fetchStep fun t => t.raise (.badCmd code)

end Sys2Proof.Machine
end

