-- ==== Sys2Proof/Machine/Debounce.lean ====
section
/-! DEFINITION. Agent `T`: one tick of the debounce and auto-repeat machine, from a scan code or from a matrix sample
(R61, R64). -/

namespace Sys2Proof.Machine

/-- The third branch of `TICK`: the same non-zero key again (R64 (3)). The repeat test is made on the saturated
value, which decides what a late enabling of repeat does (R69). -/
def State.tickSameKey (s : State) (k : Byte) : State :=
  let n := streakNext s.streak
  let confirmed := if n.toNat = Config.tConfirm then s.emit k else s
  if s.repeatEnT && n.toNat == Config.tRepeat then
    { confirmed.emit k with streak := BitVec.ofNat 7 Config.tRollback }
  else { confirmed with streak := n }

/-- `TICK(k)` (R64): the branches are tested in the order zero, different, same (R130). -/
def State.tick (s : State) (k : Byte) : State :=
  if k = 0 then { s.quiet with lastCode := 0, streak := 0 }
  else if k ≠ s.lastCode then { s.quiet with lastCode := k, streak := 1 }
  else s.quiet.tickSameKey k

/-- `TICK.C` (R51, R64). Never blocked (R71). -/
def execTickC (k : Byte) (s : State) : Host.Outcome State Fault Refusal := .next (s.tick k)

/-- `TICK.M` (R51, R61): `SCAN`, then `TICK`. -/
def execTickM (m : BitVec 16) (s : State) : Host.Outcome State Fault Refusal := .next (s.tick (scan s.par m))

end Sys2Proof.Machine
end

