-- ==== Sys2Proof/Machine/Engine.lean ====
section
/-! DEFINITION. Agent `E`: one definition per status class (R79, R82 to R93). Each drives exactly one action. -/

namespace Sys2Proof.Machine

/-- The address events of a write: `busy <- 1`, one more byte is armed (R85, R86). -/
def State.addressedForWrite (s : State) : State := { s.quiet with busy := true }.drive .armRx

/-- The end of a transaction: `busy <- 0`, the next address match is armed (R84, R89, R93). -/
def State.transactionEnd (s : State) : State := { s.quiet with busy := false }.drive .armAddr

/-- The error states: nothing changes but the trace and the recovery action (R90, R91, R92). -/
def State.busRecovery (s : State) (cls : BitVec 4) : State := (s.quiet.raise (.bus cls)).drive .releaseBus

/-- `ST_BUS_ERROR`, class 0x0 (R92). -/
def execStBusError (s : State) : Host.Outcome State Fault Refusal := .next (s.busRecovery 0x0)

/-- `ST_SLA_W_ACK`, class 0x1 (R85). -/
def execStSlaWAck (s : State) : Host.Outcome State Fault Refusal := .next s.addressedForWrite

/-- `ST_GC_ACK`, class 0x2 (R86, R100). -/
def execStGcAck (s : State) : Host.Outcome State Fault Refusal := .next s.addressedForWrite

/-- `ST_RX_DATA_ACK`, class 0x3 (R87). -/
def execStRxDataAck (d : Byte) (s : State) : Host.Outcome State Fault Refusal := s.quiet.rxPush d

/-- `ST_GC_RX_DATA_ACK`, class 0x4 (R88, R100). -/
def execStGcRxDataAck (d : Byte) (s : State) : Host.Outcome State Fault Refusal := s.quiet.rxPush d

/-- `ST_RX_DATA_NACK`, class 0x5 (R90). -/
def execStRxDataNack (s : State) : Host.Outcome State Fault Refusal := .next (s.busRecovery 0x5)

/-- `ST_STOP_RESTART`, class 0x6 (R89). -/
def execStStopRestart (s : State) : Host.Outcome State Fault Refusal := .next s.transactionEnd

/-- `ST_SLA_R_ACK`, class 0x7 (R82). -/
def execStSlaRAck (s : State) : Host.Outcome State Fault Refusal := .next s.quiet.txNext

/-- `ST_TX_DATA_ACK`, class 0x8 (R83). -/
def execStTxDataAck (s : State) : Host.Outcome State Fault Refusal := .next s.quiet.txNext

/-- `ST_TX_DATA_NACK`, class 0x9 (R84). -/
def execStTxDataNack (s : State) : Host.Outcome State Fault Refusal := .next s.transactionEnd

/-- `ST_TX_LAST_ACK`, class 0xA (R91). -/
def execStTxLastAck (s : State) : Host.Outcome State Fault Refusal := .next (s.busRecovery 0xA)

/-- `ST_UNRECOGNIZED`, classes 0xB to 0xF (R93): all alike, nothing is raised. -/
def execStUnrecognized (_cls : BitVec 4) (s : State) : Host.Outcome State Fault Refusal := .next s.transactionEnd

end Sys2Proof.Machine
end

