-- ==== Sys2Proof/Machine/Dispatch.lean ====
section
/-! DEFINITION. The one match over the instructions: every arm is one call of a meaning. -/

namespace Sys2Proof.Machine

/-- The meaning of every instruction. -/
def exec (i : Instr) (s : State) : Host.Outcome State Fault Refusal :=
  match i with
  | .getkey => Sys2Proof.Machine.execGetkey s
  | .getcur => Sys2Proof.Machine.execGetcur s
  | .getcnt => Sys2Proof.Machine.execGetcnt s
  | .led0 arg => Sys2Proof.Machine.execLed0 arg s
  | .led1 arg => Sys2Proof.Machine.execLed1 arg s
  | .led2 arg => Sys2Proof.Machine.execLed2 arg s
  | .led3 arg => Sys2Proof.Machine.execLed3 arg s
  | .setsnd arg => Sys2Proof.Machine.execSetsnd arg s
  | .setrpt arg => Sys2Proof.Machine.execSetrpt arg s
  | .cmdIgnored code => Sys2Proof.Machine.execCmdIgnored code s
  | .stBusError => Sys2Proof.Machine.execStBusError s
  | .stSlaWAck => Sys2Proof.Machine.execStSlaWAck s
  | .stGcAck => Sys2Proof.Machine.execStGcAck s
  | .stRxDataAck d => Sys2Proof.Machine.execStRxDataAck d s
  | .stGcRxDataAck d => Sys2Proof.Machine.execStGcRxDataAck d s
  | .stRxDataNack => Sys2Proof.Machine.execStRxDataNack s
  | .stStopRestart => Sys2Proof.Machine.execStStopRestart s
  | .stSlaRAck => Sys2Proof.Machine.execStSlaRAck s
  | .stTxDataAck => Sys2Proof.Machine.execStTxDataAck s
  | .stTxDataNack => Sys2Proof.Machine.execStTxDataNack s
  | .stTxLastAck => Sys2Proof.Machine.execStTxLastAck s
  | .stUnrecognized cls => Sys2Proof.Machine.execStUnrecognized cls s
  | .tickC k => Sys2Proof.Machine.execTickC k s
  | .tickM m => Sys2Proof.Machine.execTickM m s

end Sys2Proof.Machine
end

