-- ==== Sys2Proof/Machine/Dispatcher.lean ====
section
/-! DEFINITION. Agent `D`, the steps that no encoding selects: the otherwise case of `D_ARG`, `D_STAGE`, `D_HOUSE`
(R113, R114, R115). A step that is not enabled leaves the machine as it is (log 2). -/

namespace Sys2Proof.Machine

/-- `D_ARG` with a `dp_cmd` that takes no argument (R113, "otherwise: nothing"): the byte is popped all the same. -/
def State.argOther (s : State) : Host.Outcome State Fault Refusal := s.argStep id

/-- `D_STAGE` (R114). -/
def State.stageStep (s : State) : State :=
  if s.stageEnabled then { s.quiet.txStage s.dpReply with dpPhase := dpIdle } else s.quiet

/-- `D_HOUSE` (R115): one alert for both signals, if sound is enabled now. -/
def State.houseStep (s : State) : State :=
  if s.houseEnabled then { s.quiet.acknowledgeOverflows with out := { alert := nonZero s.soundEn } } else s.quiet

end Sys2Proof.Machine
end

