-- ==== Sys2Proof/Machine/Agents.lean ====
section
/-! DEFINITION. What one stimulus line makes the machine do: which encoded input it presents to the decoder, the steps
that no encoding selects, and the reset around them. Also where an instruction is placed to be the next one run. -/

namespace Sys2Proof.Machine

/-- The encoded input that a line presents to the decoder, if it presents one. `D_FETCH` presents the byte it pops
(R102), `D_ARG` the frame of the command it waits in and the byte it pops (R113); either only when it is enabled
(R101). -/
def State.presents (s : State) : Line → Option Encoded
  | .tickC k => some (.scanCode k)
  | .tickM m => some (.sample m)
  | .st cls d => some (.status cls d)
  | .dFetch => if s.fetchEnabled then some (.frame [s.rxHead]) else none
  | .dArg => if s.argEnabled then some (.frame [s.dpCmd, s.rxHead]) else none
  | .dStage | .dHouse | .sync _ | .rstAssert | .rstRelease => none

/-- The lines that present no encoded input. A tick, a status event, a fetch or an argument that presents none is a
step that is not enabled: nothing happens (log 2). -/
def State.unencodedStep (s : State) : Line → State
  | .dStage => s.stageStep
  | .dHouse => s.houseStep
  | .sync x => s.syncStep x
  | .rstAssert => s.resetStep
  | .rstRelease => s.releaseStep
  | .tickC _ | .tickM _ | .st _ _ | .dFetch | .dArg => s.quiet

/-- One line while the agents run. Only `D_ARG` with a `dp_cmd` that takes no argument presents a frame that does not
decode; it is `D_ARG`'s otherwise case (R113). -/
def State.runLine (s : State) (l : Line) : Host.Outcome State Fault Refusal :=
  match s.presents l with
  | some e =>
    match decode e with
    | .ok i => exec i s
    | .error _ => s.argOther
  | none => .next (s.unencodedStep l)

/-- One line while `rst` is asserted: no agent takes a step and every input event is ignored (R146). -/
def State.heldLine (s : State) : Line → State
  | .rstAssert => s.resetStep
  | .rstRelease => s.releaseStep
  | .tickC _ | .tickM _ | .st _ _ | .dFetch | .dArg | .dStage | .dHouse | .sync _ => s.quiet

/-- One step of the machine: `BOOT` if it is due, before any line (R149); else the next line. -/
def State.stepOnce (s : State) : Host.Outcome State Fault Refusal :=
  match s.resetPhase with
  | .bootDue => .next s.bootStep
  | .asserted => .next (s.popLine.heldLine s.nextLine)
  | .running => s.popLine.runLine s.nextLine

/-! ### Placing an instruction -/

/-- The command frame whose command byte is `c`, its argument byte (if it takes one) zero. -/
def frameBytes (c : Byte) : List Byte := if takesArg c then [c, 0] else [c]

/-- The bytes given as the only unread bytes of `RX`, the dispatcher idle, and `D_FETCH` the next line. -/
def State.placeFrame (s : State) (bytes : List Byte) : State :=
  let stored := bytes.zipIdx.foldl (fun t p => t.writeCell .rx ((s.rxRd + p.2) % s.par.cR) p.1) s
  { stored with
    rxWr := (s.rxRd + bytes.length) % s.par.cR
    rxFull := bytes.length == s.par.cR
    dpPhase := dpIdle
    inbox := .dFetch :: s.inbox
    resetPhase := .running }

/-- The line given as the next one, with the agents running. -/
def State.placeLine (s : State) (l : Line) : State := { s with inbox := l :: s.inbox, resetPhase := .running }

/-- The encoded input given as what the next step runs. -/
def State.place (s : State) : Encoded → State
  | .frame [] => s
  | .frame (c :: _) => s.placeFrame (frameBytes c)
  | .status cls d => s.placeLine (.st cls d)
  | .scanCode k => s.placeLine (.tickC k)
  | .sample m => s.placeLine (.tickM m)

end Sys2Proof.Machine
end

