-- ==== Sys2Proof/Safety.lean ====
section
/-! DEFINITION. The terms the claims are stated in: the invariants of a sound state, the contents of the queues, runs
of lines and of ticks, and what a step leaves as it was. -/

namespace Sys2Proof.Machine

/-! ### What the queues hold -/

/-- The unread events of the keyboard FIFO, oldest first: the cells from `kq_rd` up to but not including `kq_wr`
(R11, R45). -/
def State.kqUnread (s : State) : List Byte :=
  (List.range s.kqOccupancy.toNat).map fun j => s.readCell .kq ((s.kqRd.toNat + j) % Config.cK)

/-- The unread bytes of `RX`, oldest first: `rx_count` cells from `rx_rd` on (R16). -/
def State.rxUnread (s : State) : List Byte :=
  (List.range s.rxCount).map fun j => s.readCell .rx ((s.rxRd + j) % s.par.cR)

/-! ### Invariants -/

/-- The chain of R45 over the residues: the steps from `kq_rd_T` to `kq_rd`, from there to `kq_wr_B` and from there to
`kq_wr` add up to at most 31, which is what `RT ≤ R ≤ WB ≤ W ≤ RT + 31` says of their counts. -/
def PointerOrder (s : State) : Prop :=
  (s.kqRd - s.kqRdT).toNat + (s.kqWrB - s.kqRd).toNat + (s.kqWr - s.kqWrB).toNat ≤ 31

/-- The indices of `RX` are in range, there is room for a frame, and a full buffer has equal indices (R7, R16, R29). -/
def RxSound (s : State) : Prop :=
  2 ≤ s.par.cR ∧ s.rxWr < s.par.cR ∧ s.rxRd < s.par.cR ∧ (s.rxFull = true → s.rxWr = s.rxRd)

/-- The reachable values of the debounce machine (R71). -/
def StreakSound (s : State) : Prop :=
  s.streak.toNat ≤ Config.tRepeat ∧ (s.streak = 0 ↔ s.lastCode = 0)

/-- The cells of `TX` after the first hold 0x00, and `tx_wr` is 0 or 1 (R97, D19). -/
def TxSound (s : State) : Prop :=
  (∀ i, 1 ≤ i → s.readCell .tx i = 0) ∧ (s.txWr = 0 ∨ s.txWr = 1)

/-- `dp_phase` is never 3, and in `DP_ARG` the command waiting is one that takes an argument (R19, R113). -/
def PhaseSound (s : State) : Prop :=
  s.dpPhase ≠ 3 ∧ (s.dpPhase = dpArg → takesArg s.dpCmd = true)

/-- Every unread cell of the keyboard FIFO was written since reset, with a code other than 0 (R73, R78). -/
def KqWritten (s : State) : Prop :=
  ∀ j, j < s.kqOccupancy.toNat → ∃ v, findCell ((s.kqRd.toNat + j) % Config.cK) s.mem.kq = some v ∧ v ≠ 0

/-- Every unread cell of `RX` was written since reset (R96). -/
def RxWritten (s : State) : Prop :=
  ∀ j, j < s.rxCount → ∃ v, findCell ((s.rxRd + j) % s.par.cR) s.mem.rx = some v

/-- Every listed cell exists (R27). -/
def CellsExist (s : State) : Prop :=
  (∀ c ∈ s.mem.kq, c.1 < Config.cK) ∧ (∀ c ∈ s.mem.rx, c.1 < s.par.cR) ∧ (∀ c ∈ s.mem.tx, c.1 < Config.cT) ∧
    (∀ c ∈ s.mem.nvm, c.1 = s.par.slotSound ∨ c.1 = s.par.slotRepeat)

/-- The overflow handshake (R14): of the three links from `ovf_req` to `ovf_req_B` to `ovf_ack` to `ovf_ack_T` at most one
differs, since a raise is made only when none does. -/
def HandshakeSound (s : State) : Prop :=
  (s.ovfReq ≠ s.ovfReqB → s.ovfReqB = s.ovfAck ∧ s.ovfAck = s.ovfAckT) ∧
    (s.ovfReqB ≠ s.ovfAck → s.ovfReq = s.ovfReqB ∧ s.ovfAck = s.ovfAckT)

/-- The block's own state has the values of R25: all but what `RESET` leaves (R147) and the model's own fields. -/
def AtResetValues (s : State) : Prop :=
  s = { State.reset with
    par := s.par
    mem := { nvm := s.mem.nvm }
    resetPhase := s.resetPhase
    epoch := s.epoch
    inbox := s.inbox
    freeIdx := s.freeIdx
    out := s.out }

/-- Until the agents run, nothing has moved since `RESET` (R146, R149). -/
def ResetSound (s : State) : Prop := s.resetPhase ≠ .running → AtResetValues s

/-- The sound states: every invariant above, with lawful parameters and a canonical memory. -/
structure Sound (s : State) : Prop where
  params : s.par.wf
  memory : s.mem.wf
  cells : CellsExist s
  pointers : PointerOrder s
  rx : RxSound s
  streak : StreakSound s
  tx : TxSound s
  phase : PhaseSound s
  kqWritten : KqWritten s
  rxWritten : RxWritten s
  handshake : HandshakeSound s
  reset : ResetSound s

/-- The seen copy of a crossing equals its home signal (R37). -/
def seenAgrees (s : State) : Crossing → Prop
  | .kqWr => s.kqWrB = s.kqWr
  | .kqRd => s.kqRdT = s.kqRd
  | .cur => s.curCodeB = s.curCode
  | .cfg => s.soundEnT = nonZero s.soundEn ∧ s.repeatEnT = nonZero s.repeatEn
  | .cfgSound => s.soundEnT = nonZero s.soundEn
  | .cfgRepeat => s.repeatEnT = nonZero s.repeatEn
  | .ovfReq => s.ovfReqB = s.ovfReq
  | .ovfAck => s.ovfAckT = s.ovfAck

/-! ### What a step leaves as it was -/

/-- The home state of agent `T` (R24). -/
def SameDebounce (s t : State) : Prop :=
  t.lastCode = s.lastCode ∧ t.streak = s.streak ∧ t.kqWr = s.kqWr ∧ t.ovfReq = s.ovfReq

/-- The seen copies (R24, R37). -/
def SameSeen (s t : State) : Prop :=
  t.kqRdT = s.kqRdT ∧ t.kqWrB = s.kqWrB ∧ t.curCodeB = s.curCodeB ∧ t.soundEnT = s.soundEnT ∧
    t.repeatEnT = s.repeatEnT ∧ t.ovfReqB = s.ovfReqB ∧ t.ovfAckT = s.ovfAckT

/-- The home state of agent `E` that no other agent writes (R24). -/
def SameEngine (s t : State) : Prop := t.busy = s.busy ∧ t.rxWr = s.rxWr

/-- The flags and the index that both `E` and `D` write (R24). -/
def SameShared (s t : State) : Prop := t.rxFull = s.rxFull ∧ t.rxOvf = s.rxOvf ∧ t.txRd = s.txRd

/-- The settings and the LEDs (R20, R21). -/
def SameSettings (s t : State) : Prop := t.soundEn = s.soundEn ∧ t.repeatEn = s.repeatEn ∧ t.led = s.led

/-- The dispatcher's sequencing state (R19). -/
def SamePhase (s t : State) : Prop := t.dpPhase = s.dpPhase ∧ t.dpCmd = s.dpCmd ∧ t.dpReply = s.dpReply

/-- The home state of agent `D` that no other agent writes (R24). -/
def SameDispatcher (s t : State) : Prop :=
  t.rxRd = s.rxRd ∧ t.kqRd = s.kqRd ∧ t.ovfAck = s.ovfAck ∧ t.txWr = s.txWr ∧ SamePhase s t ∧ SameSettings s t

/-- What is not the block's: the parameters and the model's own fields but the ports. -/
def SameModel (s t : State) : Prop :=
  t.par = s.par ∧ t.resetPhase = s.resetPhase ∧ t.epoch = s.epoch ∧ t.inbox = s.inbox ∧ t.freeIdx = s.freeIdx

/-- Every cell reads as before. -/
def SameCells (s t : State) : Prop := ∀ sp i, t.readCell sp i = s.readCell sp i

/-- Every cell but cell `j` of `space` reads as before. -/
def SameCellsBut (space : Space) (j : Nat) (s t : State) : Prop :=
  ∀ sp i, ¬(sp = space ∧ i = j) → t.readCell sp i = s.readCell sp i

/-- The outcome with the ports of its next state idle: what is left of a step when its outputs are not looked at. -/
def portlessOutcome : Host.Outcome State Fault Refusal → Host.Outcome State Fault Refusal
  | .next t => .next t.quiet
  | .fault r => .fault r
  | .refused r => .refused r

/-! ### Runs -/

/-- The lines given, taken one after another while the agents run, stopping at the first fault or refusal. -/
def State.runLines (s : State) : List Line → Host.Outcome State Fault Refusal
  | [] => .next s
  | l :: rest =>
    match s.runLine l with
    | .next t => t.runLines rest
    | .fault r => .fault r
    | .refused r => .refused r

/-- The state after one tick for each scan code given. -/
def State.ticks (s : State) : List Byte → State
  | [] => s
  | k :: rest => (s.tick k).ticks rest

/-- How many events were emitted over those ticks. -/
def State.emissions (s : State) : List Byte → Nat
  | [] => 0
  | k :: rest => (s.tick k).out.emitted.toList.length + (s.tick k).emissions rest

/-- The state after the events given were pushed one after another. -/
def State.pushes (s : State) : List Byte → State
  | [] => s
  | k :: rest => (s.kqPush k).pushes rest

/-- The state after `n` steps, where a step that stops leaves it. -/
def State.after (s : State) : Nat → State
  | 0 => s
  | n + 1 =>
    match step s with
    | .next t => t.after n
    | .fault _ => s
    | .refused _ => s

end Sys2Proof.Machine
end

