-- ==== Sys2Proof/Certificates/Slice0/Obligations.lean ====
section
/-! DEFINITION. The statements for the provers. Where one rests on a choice of the model and not on a rule of the spec
its docstring says so and names the log entry. That a list of stimulus lines in the state says which step comes next is
log 1, wherever a statement speaks of the next line or of the lines to come. -/

open Sys2Proof Sys2Proof.Machine

/-! ### Encoding -/

/-- The words of 30_encoding.md's tables, written out, decode to the instructions they stand for. -/
def Obligations.TableCodesDecode : Prop :=
  decode (.frame [0x00]) = .ok .getkey ∧ decode (.frame [0x02]) = .ok .getcnt ∧
  decode (.frame [0x0A]) = .ok (.led0 none) ∧ decode (.frame [0x0D, 0x01]) = .ok (.led3 (some 0x01)) ∧
  decode (.frame [0x14, 0xFF]) = .ok (.setsnd (some 0xFF)) ∧ decode (.frame [0x63]) = .ok (.cmdIgnored 0x63) ∧
  decode (.status 0x0 0x55) = .ok .stBusError ∧ decode (.status 0x3 0x41) = .ok (.stRxDataAck 0x41) ∧
  decode (.status 0x9 0x00) = .ok .stTxDataNack ∧ decode (.status 0xF 0x00) = .ok (.stUnrecognized 0xF) ∧
  decode (.scanCode 0xC8) = .ok (.tickC 0xC8) ∧ decode (.sample 0x8001) = .ok (.tickM 0x8001)

/-- Every command byte and every status class matches exactly one row of the opcode table, and the decoder reads that
row's instruction. -/
def Obligations.EveryCodeMatchesOneRow : Prop :=
  (∀ c : Byte, ∃ r, commandRows.filter (·.covers c.toNat) = [r] ∧ (decodeCommandByte c).mnemonic = r.mnemonic) ∧
  (∀ (cls : BitVec 4) (d : Byte), ∃ r, statusRows.filter (·.covers cls.toNat) = [r] ∧
    (decodeStatus cls d).mnemonic = r.mnemonic)

/-- Decode inverts encode on every well-formed instruction, with every operand at every value. -/
def Obligations.DecodeInvertsEncode : Prop :=
  ∀ i : Instr, WellFormed i → decode (encode i) = .ok i

/-- Encode inverts decode: whatever decodes is well formed, and its encoding is the input again, but for the data byte
of the status classes that ignore it. -/
def Obligations.EncodeInvertsDecode : Prop :=
  ∀ (e : Encoded) (i : Instr), decode e = .ok i → WellFormed i ∧ encode i = e.withoutIgnoredBits

/-- The first byte alone decides the length of a frame: fetched by an idle dispatcher, it leaves the dispatcher waiting
for one more byte exactly when it is one of the six codes that take an argument. The decoder says the same of whole
frames: two bytes decode exactly with such a first byte, three or more never. It also decodes every first byte alone,
because that is what `D_FETCH` runs: the command of a `CMD2` frame without its argument is the model's form (log 10). -/
def Obligations.FirstByteDecidesLength : Prop :=
  (∀ (s : State) (c : Byte), s.fetchEnabled = true → s.rxRd < s.par.cR →
    ∃ t, exec (decodeCommandByte c) s = .next t ∧ (t.dpPhase = dpArg ↔ c ∈ [10, 11, 12, 13, 20, 21])) ∧
  (∀ c : Byte, ∃ i, decode (.frame [c]) = .ok i) ∧
  (∀ c a : Byte, (∃ i, decode (.frame [c, a]) = .ok i) ↔ c ∈ [10, 11, 12, 13, 20, 21]) ∧
  (∀ (c a b : Byte) (rest : List Byte), decode (.frame (c :: a :: b :: rest)) = .error .frameTooLong) ∧
  decode (.frame []) = .error .emptyFrame

/-! ### The step -/

/-- A step of a running machine runs the instruction that the next line presents, on the state with the line taken.
Two things here are the model's: that the lines are a list in the state, whose first one is next and is then gone
(log 1), and that `D_ARG` presents the command byte kept in `dp_cmd` with the byte it pops (log 10). -/
def Obligations.StepRunsDecodedInstruction : Prop :=
  (∀ (s : State) (e : Encoded) (i : Instr), s.resetPhase = .running → s.presents s.nextLine = some e →
    decode e = .ok i → step s = exec i s.popLine) ∧
  (∀ (s : State) (l : Line) (rest : List Line), s.inbox = l :: rest →
    s.nextLine = l ∧ s.popLine = { s with inbox := rest }) ∧
  (∀ (s : State) (k : Byte), s.presents (.tickC k) = some (.scanCode k)) ∧
  (∀ (s : State) (m : BitVec 16), s.presents (.tickM m) = some (.sample m)) ∧
  (∀ (s : State) (cls : BitVec 4) (d : Byte), s.presents (.st cls d) = some (.status cls d)) ∧
  (∀ s : State, s.fetchEnabled = true → s.presents .dFetch = some (.frame [s.rxHead])) ∧
  (∀ s : State, s.argEnabled = true → s.presents .dArg = some (.frame [s.dpCmd, s.rxHead]))

/-- `BOOT` comes before any other step, loads both settings, lets domain T see them, and arms the bus controller. That
it takes no line, and that an `rst` which goes up while it is due waits until after it, is the model's choice
(log 13). -/
def Obligations.BootLoadsSettingsFirst : Prop :=
  ∀ s : State, s.resetPhase = .bootDue →
    step s = .next { s with
      soundEn := s.readCell .nvm s.par.slotSound
      repeatEn := s.readCell .nvm s.par.slotRepeat
      soundEnT := decide (s.readCell .nvm s.par.slotSound ≠ 0)
      repeatEnT := decide (s.readCell .nvm s.par.slotRepeat ≠ 0)
      resetPhase := .running
      out := { action := some .armAddr } }

/-- `rst` resets both domains: every state element takes the value of R25, no port is driven, the non-volatile store
stays; and while it is asserted no agent takes a step and every input event is ignored: a line other than `rst` itself
changes nothing but the (idle) ports. That `rst` is a pair of lines is the model's rendering, and that one which goes up
while `BOOT` is due takes effect right after `BOOT` is its choice (log 13). -/
def Obligations.ResetSetsEveryElement : Prop :=
  (∀ s : State, s.nextLine = .rstAssert →
    (s.resetPhase = .bootDue → step s = .next s.bootStep) ∧
    ∃ t, step (if s.resetPhase = .bootDue then s.bootStep else s) = .next t ∧ t.resetPhase = .asserted ∧
    t.lastCode = 0 ∧ t.streak = 0 ∧ t.kqWr = 0 ∧ t.kqRd = 0 ∧ t.kqRdT = 0 ∧ t.kqWrB = 0 ∧ t.curCodeB = 0 ∧
    t.soundEnT = false ∧ t.repeatEnT = false ∧ t.ovfReq = false ∧ t.ovfAck = false ∧ t.ovfReqB = false ∧
    t.ovfAckT = false ∧ t.busy = false ∧ t.rxWr = 0 ∧ t.rxRd = 0 ∧ t.rxFull = false ∧ t.rxOvf = false ∧
    (∀ i, t.readCell .tx i = 0) ∧ t.txWr = 0 ∧ t.txRd = 0 ∧ t.dpPhase = 0 ∧ t.dpCmd = 0 ∧ t.dpReply = 0 ∧
    t.soundEn = 0 ∧ t.repeatEn = 0 ∧ t.led = 0 ∧ t.out = {} ∧ (∀ i, t.readCell .nvm i = s.readCell .nvm i)) ∧
  (∀ s : State, s.resetPhase = .asserted → s.nextLine ≠ .rstAssert → s.nextLine ≠ .rstRelease →
    step s = .next { s.popLine with out := {} })

/-- The state after reset has the value of R25 in every state element; what R25 leaves unspecified, the cells of `KQ`
and `RX`, is not listed. -/
def Obligations.ResetStateHasTheStatedValues : Prop :=
  let s := State.reset
  s.lastCode = 0 ∧ s.streak = 0 ∧ s.kqWr = 0 ∧ s.kqRd = 0 ∧ s.kqRdT = 0 ∧ s.kqWrB = 0 ∧ s.curCodeB = 0 ∧
  s.soundEnT = false ∧ s.repeatEnT = false ∧ s.ovfReq = false ∧ s.ovfAck = false ∧ s.ovfReqB = false ∧
  s.ovfAckT = false ∧ s.busy = false ∧ s.rxWr = 0 ∧ s.rxRd = 0 ∧ s.rxFull = false ∧ s.rxOvf = false ∧
  (∀ i, i < 4 → s.readCell .tx i = 0) ∧ s.txWr = 0 ∧ s.txRd = 0 ∧ s.dpPhase = dpIdle ∧ s.dpCmd = 0 ∧ s.dpReply = 0 ∧
  s.soundEn = 0 ∧ s.repeatEn = 0 ∧ s.led = 0 ∧ s.mem.kq = [] ∧ s.mem.rx = []

/-- The launch state: after `RESET` and `BOOT` all buffers are empty, every seen copy equals its home signal, nothing
is busy, pending or lit, the settings are as stored, and a bus read returns 0x00. That `rst` is a pair of lines and
that `BOOT` takes none is the model's (log 13). -/
def Obligations.LaunchStateAfterResetAndBoot : Prop :=
  ∀ (s : State) (rest : List Line), s.resetPhase ≠ .bootDue → s.inbox = .rstAssert :: .rstRelease :: rest →
    let t := s.after 3
    t.resetPhase = .running ∧ t.inbox = rest ∧ t.kqUnread = [] ∧ t.rxUnread = [] ∧ t.rxEmpty = true ∧
    (∀ x, seenAgrees t x) ∧ t.busy = false ∧ t.dpPhase = dpIdle ∧ t.kbdOvfPending = false ∧ t.rxOvf = false ∧
    t.streak = 0 ∧ t.lastCode = 0 ∧ t.led = 0 ∧ (∀ i, t.readCell .tx i = 0) ∧
    t.soundEn = s.readCell .nvm s.par.slotSound ∧ t.repeatEn = s.readCell .nvm s.par.slotRepeat ∧
    exec .stSlaRAck t = .next { t with txRd := 1, busy := true, out := { action := some (.send 0) } }

/-- A setting stored by its command is the setting that the next `RESET` and `BOOT` bring up: the byte whole in domain
B, enabled in domain T when it is not 0. The store behind it keeps the contract of R47 (log 6). -/
def Obligations.StoredSettingSurvivesReset : Prop :=
  ∀ (s t : State) (a : Byte), s.mem.wf → s.argEnabled = true →
    (s.dpCmd = 20 → exec (.setsnd (some a)) s = .next t →
      t.resetStep.releaseStep.bootStep.soundEn = a ∧ t.resetStep.releaseStep.bootStep.soundEnT = decide (a ≠ 0)) ∧
    (s.dpCmd = 21 → exec (.setrpt (some a)) s = .next t →
      t.resetStep.releaseStep.bootStep.repeatEn = a ∧ t.resetStep.releaseStep.bootStep.repeatEnT = decide (a ≠ 0))

/-! ### Scanner and debounce machine -/

/-- `TICK` completes in every state, with the registers and the emission that its three branches give, and a click
exactly when it emits with sound enabled; it changes nothing of any other agent's, no cell outside `KQ`, and drives no
port of domain B. -/
def Obligations.TickTransition : Prop :=
  ∀ (k : Byte) (s : State), ∃ t, exec (.tickC k) s = .next t ∧
    SameSeen s t ∧ SameEngine s t ∧ SameShared s t ∧ SameDispatcher s t ∧ SameModel s t ∧
    (∀ sp i, sp ≠ .kq → t.readCell sp i = s.readCell sp i) ∧
    t.out.click = (s.soundEnT && t.out.emitted.isSome) ∧
    t.out.alert = false ∧ t.out.action = none ∧ t.out.nvmStore = none ∧
    (k = 0 → t.lastCode = 0 ∧ t.streak = 0 ∧ t.out.emitted = none) ∧
    (k ≠ 0 → k ≠ s.lastCode → t.lastCode = k ∧ t.streak = 1 ∧ t.out.emitted = none) ∧
    (k ≠ 0 → k = s.lastCode →
      t.lastCode = k ∧
      t.streak.toNat = (if s.repeatEnT = true ∧ 75 ≤ s.streak.toNat + 1 then 60 else min (s.streak.toNat + 1) 75) ∧
      t.out.emitted =
        (if s.streak.toNat + 1 = 3 ∨ (s.repeatEnT = true ∧ 75 ≤ s.streak.toNat + 1) then some k else none))

/-- What a tick does to the FIFO, the click and the overflow signal: nothing without an emission; with one, the click
exactly when sound is enabled, and the event pushed, or dropped by a FIFO that the producer sees full, which raises
the signal exactly when sound is enabled and no raise is outstanding. -/
def Obligations.TickEmissionEffect : Prop :=
  ∀ (k : Byte) (s t : State), s.mem.wf → exec (.tickC k) s = .next t →
    (t.out.emitted = none → t.out.click = false ∧ t.kqWr = s.kqWr ∧ t.ovfReq = s.ovfReq ∧ SameCells s t) ∧
    (t.out.emitted ≠ none → t.out.emitted = some k ∧ t.out.click = s.soundEnT) ∧
    (t.out.emitted ≠ none → s.kqWr + 1 ≠ s.kqRdT →
      t.kqWr = s.kqWr + 1 ∧ t.readCell .kq s.kqWr.toNat = k ∧ SameCellsBut .kq s.kqWr.toNat s t ∧
      t.ovfReq = s.ovfReq ∧ t.out.raised = none) ∧
    (t.out.emitted ≠ none → s.kqWr + 1 = s.kqRdT →
      t.kqWr = s.kqWr ∧ SameCells s t ∧ t.out.raised = some (.kqOvf k) ∧
      t.ovfReq = (if s.soundEnT = true ∧ s.ovfReq = s.ovfAckT then !s.ovfReq else s.ovfReq))

/-- `SCAN`: the lowest row with exactly one column asserted decides, whatever the rows below and above it are
otherwise; without such a row the result is 0. The flag of row `r` and column `c` is bit `4*r + c` of the sample, and
their code is entry `4*r + c` of the key map, so that it is `4*r + c + 1` with the default table. -/
def Obligations.ScanTakesFirstUnambiguousRow : Prop :=
  ∀ (par : Config.Params) (m : BitVec 16),
    (∀ r c, r < 4 → c < 4 → (∀ c', c' < 4 → m.getLsbD (4 * r + c') = decide (c' = c)) →
      (∀ r', r' < r → ¬∃ d, d < 4 ∧ ∀ c', c' < 4 → m.getLsbD (4 * r' + c') = decide (c' = d)) →
      (∀ k, par.keymap[4 * r + c]? = some k → scan par m = k) ∧
      ((∀ j, j < 16 → par.keymap[j]? = some (BitVec.ofNat 8 (j + 1))) → (scan par m).toNat = 4 * r + c + 1)) ∧
    ((∀ r, r < 4 → ¬∃ d, d < 4 ∧ ∀ c', c' < 4 → m.getLsbD (4 * r + c') = decide (c' = d)) → scan par m = 0)

/-- `TICK.M` is `SCAN` followed by `TICK`: it completes in every state as `TICK.C` with the code scanned does, and
that code is 0 or one of 1 to 16. -/
def Obligations.TickOfSampleIsTickOfScan : Prop :=
  ∀ (m : BitVec 16) (s : State), ∃ t, exec (.tickM m) s = .next t ∧ exec (.tickC (scan s.par m)) s = .next t ∧
    (s.par.wf → (scan s.par m).toNat ≤ 16)

/-- The confirmation law: after any sequence of ticks from the rest state, the next tick emits a confirmation event
(one that leaves `streak` at 3) exactly when it and the two ticks before it had the same non-zero code and the tick
before those did not. -/
def Obligations.ConfirmationLaw : Prop :=
  ∀ (s : State) (ks : List Byte) (k : Byte), s.lastCode = 0 → s.streak = 0 →
    ((((s.ticks ks).tick k).out.emitted = some k ∧ ((s.ticks ks).tick k).streak = 3) ↔
      (k ≠ 0 ∧ ks.reverse[0]? = some k ∧ ks.reverse[1]? = some k ∧ ks.reverse[2]? ≠ some k))

/-- The repeat law: with repeat enabled, a hold of `n` ticks emits 0, 1 or `2 + floor((n − 75) / 15)` events, and its
tick number `n + 1` emits one exactly when it is the third, or the 75th or one of every 15th after that. -/
def Obligations.RepeatLaw : Prop :=
  ∀ (s : State) (k : Byte) (n : Nat), k ≠ 0 → s.lastCode ≠ k → s.repeatEnT = true →
    s.emissions (List.replicate n k) = (if n < 3 then 0 else if n < 75 then 1 else 2 + (n - 75) / 15) ∧
    ((s.ticks (List.replicate n k)).tick k).out.emitted =
      (if n + 1 = 3 ∨ (75 ≤ n + 1 ∧ (n + 1 - 75) % 15 = 0) then some k else none)

/-- With repeat disabled a hold emits exactly one event, at its third tick, and `streak` stays at 75. -/
def Obligations.RepeatDisabledLaw : Prop :=
  ∀ (s : State) (k : Byte) (n : Nat), k ≠ 0 → s.lastCode ≠ k → s.repeatEnT = false →
    s.emissions (List.replicate n k) = (if n < 3 then 0 else 1) ∧
    (1 ≤ n → (s.ticks (List.replicate n k)).streak.toNat = min n 75)

/-- Repeat set in the middle of a hold: enabled, the first repeat comes when `streak` reaches 75 (with the next tick,
if it stands there already) and then every 15 ticks; disabled, no repeat comes and `streak` climbs to 75 and stays. The
confirmation comes in either case, if it has not come yet. The source is silent on such a change; that a `streak` which
stands at 75 repeats with the next tick is a choice the spec marks as its own (D6). -/
def Obligations.RepeatChangedDuringHold : Prop :=
  ∀ (s : State) (k : Byte) (n : Nat), k ≠ 0 → s.lastCode = k → 1 ≤ s.streak.toNat → s.streak.toNat ≤ 75 →
    (s.repeatEnT = true →
      s.emissions (List.replicate n k) =
        (if s.streak.toNat < 3 ∧ 3 ≤ s.streak.toNat + n then 1 else 0) +
        (if n < max 1 (75 - s.streak.toNat) then 0 else 1 + (n - max 1 (75 - s.streak.toNat)) / 15) ∧
      (s.streak.toNat = 75 → (s.tick k).out.emitted = some k ∧ (s.tick k).streak = 60)) ∧
    (s.repeatEnT = false →
      s.emissions (List.replicate n k) = (if s.streak.toNat < 3 ∧ 3 ≤ s.streak.toNat + n then 1 else 0) ∧
      (s.ticks (List.replicate n k)).streak.toNat = min (s.streak.toNat + n) 75)

/-- `cur_code` over a hold: 0 for its first two ticks, then the code held, whatever repeat does; 0 from the first tick
without a key. -/
def Obligations.CurCodeOverHold : Prop :=
  ∀ (s : State) (k : Byte) (n : Nat), k ≠ 0 → s.lastCode ≠ k → 1 ≤ n →
    (s.ticks (List.replicate n k)).curCode = (if n < 3 then 0 else k) ∧
    ((s.ticks (List.replicate n k)).tick 0).curCode = 0

/-! ### Keyboard event FIFO -/

/-- `KQ_POP0`, `KQ_CLEAR` and `KQ_COUNT` on the consumer's view; none of them writes anything but `kq_rd`. -/
def Obligations.KqConsumerOperations : Prop :=
  (∀ s : State, s.kqRd = s.kqWrB → s.kqPop0 = (0, s)) ∧
  (∀ s : State, s.kqRd ≠ s.kqWrB → s.kqPop0 = (s.readCell .kq s.kqRd.toNat, { s with kqRd := s.kqRd + 1 })) ∧
  (∀ s : State, s.kqClear = { s with kqRd := s.kqWrB }) ∧
  (∀ s : State, s.kqCount.toNat = (s.kqWrB.toNat + 32 - s.kqRd.toNat) % 32)

/-- The FIFO order: at most 31 events are unread; with the pointers in order, an accepted push puts its event at the end of the unread events and a
dropped one leaves them; a pop takes the first of them; a clear takes as many as the consumer sees. -/
def Obligations.KeyboardFifoIsAQueue : Prop :=
  ∀ s : State, s.mem.wf → PointerOrder s →
    (∀ k, s.kqWr + 1 ≠ s.kqRdT → (s.kqPush k).kqUnread = s.kqUnread ++ [k]) ∧
    (∀ k, s.kqWr + 1 = s.kqRdT → (s.kqPush k).kqUnread = s.kqUnread) ∧
    (s.kqRd ≠ s.kqWrB → s.kqUnread = s.kqPop0.1 :: s.kqPop0.2.kqUnread) ∧
    s.kqClear.kqUnread = s.kqUnread.drop s.kqCount.toNat ∧ s.kqUnread.length ≤ 31

/-- The overflow law: of any number of events pushed into an empty FIFO that nobody reads, with sound enabled and no
raise outstanding, the first 31 are kept in order, the write index stops at 31, cell 31 is never written, and the
signal is raised once if more than 31 were pushed and not at all otherwise. -/
def Obligations.OverflowKeepsFirstThirtyOne : Prop :=
  ∀ (s : State) (ks : List Byte), s.mem.wf → s.kqWr = 0 → s.kqRdT = 0 → s.soundEnT = true → s.ovfReq = s.ovfAckT →
    (s.pushes ks).kqWr.toNat = min ks.length 31 ∧
    (∀ j, j < 31 → ∀ k, ks[j]? = some k → (s.pushes ks).readCell .kq j = k) ∧
    (s.pushes ks).readCell .kq 31 = s.readCell .kq 31 ∧
    (s.pushes ks).ovfReq = (if 31 < ks.length then !s.ovfReq else s.ovfReq)

/-- The pointer order is the chain of R45 over unbounded counts of which the four pointers are the residues. -/
def Obligations.PointerOrderIsTheChainOfCounts : Prop :=
  ∀ s : State, PointerOrder s ↔ ∃ rt r wb w : Nat, rt ≤ r ∧ r ≤ wb ∧ wb ≤ w ∧ w ≤ rt + 31 ∧
    s.kqRdT.toNat = rt % 32 ∧ s.kqRd.toNat = r % 32 ∧ s.kqWrB.toNat = wb % 32 ∧ s.kqWr.toNat = w % 32

/-- Every step keeps the pointer order, from every state that has it. -/
def Obligations.StepKeepsPointerOrder : Prop :=
  ∀ s t : State, PointerOrder s → step s = .next t → PointerOrder t

/-- What the pointer order gives: the producer never sees room that is not there, the consumer never sees an event
that is not there, and the cells it may read and the cell the producer may write are disjoint. -/
def Obligations.PointerOrderConsequences : Prop :=
  ∀ s : State, PointerOrder s →
    s.kqOccupancy.toNat ≤ (s.kqWr - s.kqRdT).toNat ∧ s.kqCount.toNat ≤ s.kqOccupancy.toNat ∧
    ∀ j, j < s.kqCount.toNat → (s.kqRd.toNat + j) % 32 ≠ s.kqWr.toNat

/-! ### Synchroniser -/

/-- Each synchroniser step copies its home signal as it is now, is always enabled, and has no other effect. -/
def Obligations.SyncStepsCopy : Prop :=
  ∀ s : State, s.resetPhase = .running →
    (s.nextLine = .sync .kqWr → step s = .next { s.popLine with kqWrB := s.kqWr, out := {} }) ∧
    (s.nextLine = .sync .kqRd → step s = .next { s.popLine with kqRdT := s.kqRd, out := {} }) ∧
    (s.nextLine = .sync .cur →
      step s = .next { s.popLine with curCodeB := (if 3 ≤ s.streak.toNat then s.lastCode else 0), out := {} }) ∧
    (s.nextLine = .sync .cfg → step s = .next { s.popLine with
      soundEnT := decide (s.soundEn ≠ 0), repeatEnT := decide (s.repeatEn ≠ 0), out := {} }) ∧
    (s.nextLine = .sync .cfgSound → step s = .next { s.popLine with soundEnT := decide (s.soundEn ≠ 0), out := {} }) ∧
    (s.nextLine = .sync .cfgRepeat →
      step s = .next { s.popLine with repeatEnT := decide (s.repeatEn ≠ 0), out := {} }) ∧
    (s.nextLine = .sync .ovfReq → step s = .next { s.popLine with ovfReqB := s.ovfReq, out := {} }) ∧
    (s.nextLine = .sync .ovfAck → step s = .next { s.popLine with ovfAckT := s.ovfAck, out := {} })

/-- A seen copy changes in no step of a running machine but a synchroniser's and a reset. -/
def Obligations.SeenCopiesChangeOnlyBySync : Prop :=
  ∀ s t : State, s.resetPhase = .running → (∀ x, s.nextLine ≠ .sync x) → s.nextLine ≠ .rstAssert →
    step s = .next t → SameSeen s t

/-- Progress of the synchroniser: from a sound state, once the lines to come hold a copy's step, that copy agrees with
its home signal at some moment within two steps for each line up to that one, whatever the other lines are (a reset
among them too). The premise stands for the fairness of R46, which the model does not build in (log 16). -/
def Obligations.SeenCopyCatchesUp : Prop :=
  ∀ (s : State) (before rest : List Line) (x : Crossing), Sound s → s.inbox = before ++ .sync x :: rest →
    ∃ n, n ≤ 2 * (before.length + 1) ∧ seenAgrees (s.after n) x

/-! ### Bus slave engine -/

/-- The address events of a write and the ends of a transaction, with the class each one has: `busy`, the action, and
nothing else. -/
def Obligations.AddressAndEndEvents : Prop :=
  ∀ (s : State) (d : Byte),
    (decodeStatus 0x1 d = .stSlaWAck ∧
      exec .stSlaWAck s = .next { s with busy := true, out := { action := some .armRx } }) ∧
    (decodeStatus 0x2 d = .stGcAck ∧
      exec .stGcAck s = .next { s with busy := true, out := { action := some .armRx } }) ∧
    (decodeStatus 0x9 d = .stTxDataNack ∧
      exec .stTxDataNack s = .next { s with busy := false, out := { action := some .armAddr } }) ∧
    (decodeStatus 0x6 d = .stStopRestart ∧
      exec .stStopRestart s = .next { s with busy := false, out := { action := some .armAddr } }) ∧
    ∀ cls ∈ [0xB#4, 0xC#4, 0xD#4, 0xE#4, 0xF#4], decodeStatus cls d = .stUnrecognized cls ∧
      exec (.stUnrecognized cls) s = .next { s with busy := false, out := { action := some .armAddr } }

/-- The events of a read, with the class each one has, send the byte at `tx_rd`, advance `tx_rd` with wrap-around, and
set `busy`; nothing else. -/
def Obligations.ReadEventsSendNextByte : Prop :=
  ∀ (s : State) (d : Byte), decodeStatus 0x7 d = .stSlaRAck ∧ decodeStatus 0x8 d = .stTxDataAck ∧
    ∀ i ∈ [Instr.stSlaRAck, Instr.stTxDataAck],
      exec i s = .next { s with
        txRd := BitVec.ofNat 2 ((s.txRd.toNat + 1) % 4)
        busy := true
        out := { action := some (.send (s.readCell .tx s.txRd.toNat)) } }

/-- The three error classes change no state: the bus is released and the condition goes to the trace. -/
def Obligations.ErrorClassesReleaseTheBus : Prop :=
  ∀ (s : State) (d : Byte),
    (decodeStatus 0x0 d = .stBusError ∧
      exec .stBusError s = .next { s with out := { action := some .releaseBus, raised := some (.bus 0x0) } }) ∧
    (decodeStatus 0x5 d = .stRxDataNack ∧
      exec .stRxDataNack s = .next { s with out := { action := some .releaseBus, raised := some (.bus 0x5) } }) ∧
    (decodeStatus 0xA d = .stTxLastAck ∧
      exec .stTxLastAck s = .next { s with out := { action := some .releaseBus, raised := some (.bus 0xA) } })

/-- A byte received, addressed or by general call: dropped by a full buffer with the signal raised, stored otherwise
with `rx_full` set exactly when the write index comes round to the read index; one more byte is armed in both cases. -/
def Obligations.ReceivedByteIsStoredOrDropped : Prop :=
  ∀ (s : State) (d : Byte), decodeStatus 0x3 d = .stRxDataAck d ∧ decodeStatus 0x4 d = .stGcRxDataAck d ∧
    ∀ i ∈ [Instr.stRxDataAck d, Instr.stGcRxDataAck d],
    (s.rxFull = true →
      exec i s = .next { s with rxOvf := true, out := { action := some .armRx, raised := some (.rxOvf d) } }) ∧
    (s.rxFull = false → s.rxWr < s.par.cR → s.mem.wf → ∃ t, exec i s = .next t ∧
      t.readCell .rx s.rxWr = d ∧ SameCellsBut .rx s.rxWr s t ∧ t.rxWr = (s.rxWr + 1) % s.par.cR ∧
      t.rxFull = decide (t.rxWr = s.rxRd) ∧ t.rxOvf = s.rxOvf ∧ t.txRd = s.txRd ∧ t.busy = s.busy ∧
      SameDebounce s t ∧ SameSeen s t ∧ SameDispatcher s t ∧ SameModel s t ∧ t.out = { action := some .armRx })

/-- No status step is ever blocked: whatever the class and the data, it completes and drives exactly one action. -/
def Obligations.StatusAlwaysCompletesWithOneAction : Prop :=
  ∀ (cls : BitVec 4) (d : Byte) (s : State), s.rxWr < s.par.cR →
    ∃ t a, exec (decodeStatus cls d) s = .next t ∧ t.out.action = some a

/-- The `busy` flag over a run: which classes set it, clear it and leave it, and nothing but a status event and a
reset writes it. -/
def Obligations.BusyFollowsStatusClasses : Prop :=
  ∀ s t : State, s.resetPhase = .running → step s = .next t →
    (∀ cls d, s.nextLine = .st cls d →
      (cls.toNat ∈ [1, 2, 7, 8] → t.busy = true) ∧ (cls.toNat ∈ [6, 9, 11, 12, 13, 14, 15] → t.busy = false) ∧
      (cls.toNat ∈ [0, 3, 4, 5, 10] → t.busy = s.busy)) ∧
    ((∀ cls d, s.nextLine ≠ .st cls d) → s.nextLine ≠ .rstAssert → t.busy = s.busy)

/-- Over-reading: from `tx_rd` = 0 the byte number `n` that the master reads, counted from 0, is cell `n mod 4`, for
ever. -/
def Obligations.OverReadCyclesTheBuffer : Prop :=
  ∀ (s : State) (n : Nat), s.txRd = 0 → ∃ t,
    s.runLines (.st 0x7 0 :: List.replicate n (.st 0x8 0)) = .next t ∧
    t.out.action = some (.send (s.readCell .tx (n % 4))) ∧ t.busy = true ∧ SameCells s t

/-- The receive buffer is a queue of up to `C_R` bytes: a byte stored goes to the end of the unread bytes, a byte
popped is the first of them, a byte dropped leaves them; it never holds more than `C_R`, and is full exactly when it
holds as many. -/
def Obligations.ReceiveBufferIsAQueue : Prop :=
  ∀ s : State, s.mem.wf → RxSound s →
    (∀ d, s.rxFull = false → (s.rxStore d).rxUnread = s.rxUnread ++ [d]) ∧
    (∀ d, (s.raise (.rxOvf d)).rxUnread = s.rxUnread) ∧
    (s.rxEmpty = false → s.rxUnread = s.rxPop.1 :: s.rxPop.2.rxUnread) ∧
    (s.rxEmpty = true ↔ s.rxUnread = []) ∧ s.rxUnread.length ≤ s.par.cR ∧
    (s.rxFull = true ↔ s.rxUnread.length = s.par.cR)

/-! ### Dispatcher -/

/-- The commands that reply, with the code each one has, fetched by an idle dispatcher: the reply, what becomes of the
FIFO, the byte popped, and nothing else. -/
def Obligations.ReplyCommands : Prop :=
  decodeCommandByte 0 = .getkey ∧ decodeCommandByte 1 = .getcur ∧ decodeCommandByte 2 = .getcnt ∧
  ∀ s : State, s.fetchEnabled = true → s.rxRd < s.par.cR →
    exec .getkey s = .next { s with
      rxRd := (s.rxRd + 1) % s.par.cR, rxFull := false
      kqRd := s.kqWrB
      dpReply := if s.kqRd = s.kqWrB then 0 else s.readCell .kq s.kqRd.toNat
      dpPhase := dpStage, out := {} } ∧
    exec .getcur s = .next { s with
      rxRd := (s.rxRd + 1) % s.par.cR, rxFull := false
      kqRd := s.kqWrB, dpReply := s.curCodeB, dpPhase := dpStage, out := {} } ∧
    exec .getcnt s = .next { s with
      rxRd := (s.rxRd + 1) % s.par.cR, rxFull := false
      dpReply := BitVec.ofNat 8 ((s.kqWrB.toNat + 32 - s.kqRd.toNat) % 32), dpPhase := dpStage, out := {} }

/-- The LED commands, with the code each one has: the command byte, fetched by an idle dispatcher, is kept and the
argument awaited; the argument lights its LED when it is not 0 and puts it out when it is, and the other LEDs are as
they were. Neither step changes anything else. -/
def Obligations.LedCommandsSetTheirLed : Prop :=
  ∀ p ∈ [(Instr.led0, 0), (Instr.led1, 1), (Instr.led2, 2), (Instr.led3, 3)],
    decodeCommandByte (BitVec.ofNat 8 (10 + p.2)) = p.1 none ∧
    (∀ s : State, s.fetchEnabled = true → s.rxRd < s.par.cR →
      exec (p.1 none) s = .next { s with
        rxRd := (s.rxRd + 1) % s.par.cR, rxFull := false, dpCmd := BitVec.ofNat 8 (10 + p.2), dpPhase := dpArg
        out := {} }) ∧
    (∀ (s : State) (a : Byte), s.argEnabled = true → s.rxRd < s.par.cR → s.dpCmd.toNat = 10 + p.2 →
      ∃ lit : BitVec 4,
        exec (p.1 (some a)) s = .next { s with
          rxRd := (s.rxRd + 1) % s.par.cR, rxFull := false, led := lit, dpPhase := dpIdle, out := {} } ∧
        lit.getLsbD p.2 = decide (a ≠ 0) ∧ ∀ j, j ≠ p.2 → lit.getLsbD j = s.led.getLsbD j)

/-- The setting commands, with the code each one has: the command byte, fetched by an idle dispatcher, is kept and the
argument awaited; the argument goes whole into its register and its non-volatile slot, and the store is driven. Neither
step changes anything else. -/
def Obligations.SettingCommandsStoreTheirByte : Prop :=
  (decodeCommandByte 20 = .setsnd none ∧ decodeCommandByte 21 = .setrpt none) ∧
  (∀ s : State, s.fetchEnabled = true → s.rxRd < s.par.cR →
    exec (.setsnd none) s = .next { s with
      rxRd := (s.rxRd + 1) % s.par.cR, rxFull := false, dpCmd := 20, dpPhase := dpArg, out := {} } ∧
    exec (.setrpt none) s = .next { s with
      rxRd := (s.rxRd + 1) % s.par.cR, rxFull := false, dpCmd := 21, dpPhase := dpArg, out := {} }) ∧
  (∀ (s : State) (a : Byte), s.argEnabled = true → s.rxRd < s.par.cR → s.mem.wf →
    (s.dpCmd = 20 → ∃ t, exec (.setsnd (some a)) s = .next t ∧
      t.readCell .nvm s.par.slotSound = a ∧ SameCellsBut .nvm s.par.slotSound s t ∧
      t = { s with
        mem := t.mem, rxRd := (s.rxRd + 1) % s.par.cR, rxFull := false, soundEn := a, dpPhase := dpIdle
        out := { nvmStore := some (s.par.slotSound, a) } }) ∧
    (s.dpCmd = 21 → ∃ t, exec (.setrpt (some a)) s = .next t ∧
      t.readCell .nvm s.par.slotRepeat = a ∧ SameCellsBut .nvm s.par.slotRepeat s t ∧
      t = { s with
        mem := t.mem, rxRd := (s.rxRd + 1) % s.par.cR, rxFull := false, repeatEn := a, dpPhase := dpIdle
        out := { nvmStore := some (s.par.slotRepeat, a) } }))

/-- Every other command code: exactly one byte is consumed and nothing else changes but the trace. -/
def Obligations.OtherCommandsAreIgnored : Prop :=
  ∀ (s : State) (c : Byte), isCommand c = false → s.fetchEnabled = true → s.rxRd < s.par.cR →
    decodeCommandByte c = .cmdIgnored c ∧
    exec (.cmdIgnored c) s = .next { s with
      rxRd := (s.rxRd + 1) % s.par.cR, rxFull := false, out := { raised := some (.badCmd c) } }

/-- `D_ARG`: while the dispatcher waits in a command that takes an argument it runs that command with the byte popped;
with any other `dp_cmd` the byte is popped and nothing else happens. -/
def Obligations.ArgumentStepFinishesTheCommand : Prop :=
  ∀ s : State, s.resetPhase = .running → s.nextLine = .dArg → s.argEnabled = true → s.rxRd < s.par.cR →
    (∀ i, decodeArgumentByte s.dpCmd s.rxHead = .ok i → step s = exec i s.popLine) ∧
    (takesArg s.dpCmd = false → step s = .next { s.popLine with
      rxRd := (s.rxRd + 1) % s.par.cR, rxFull := false, dpPhase := dpIdle, out := {} })

/-- `D_STAGE`: while the engine is idle the reply becomes cell 0 of `TX`, both `TX` indices are set, the dispatcher is
idle, and nothing else changes; while the engine is busy the dispatcher has no enabled step. -/
def Obligations.StageStepStagesTheReply : Prop :=
  (∀ s : State, s.resetPhase = .running → s.nextLine = .dStage → s.dpPhase = dpStage → s.busy = false → s.mem.wf →
    ∃ t, step s = .next t ∧ t.readCell .tx 0 = s.dpReply ∧ SameCellsBut .tx 0 s t ∧
      t = { s.popLine with mem := t.mem, txWr := 1, txRd := 0, dpPhase := dpIdle, out := {} }) ∧
  (∀ s : State, s.dpPhase = dpStage → s.busy = true → s.dispatcherIdle = true)

/-- `D_HOUSE`: both overflow signals are cleared, and one alert sounds exactly when sound is enabled then; nothing
else changes. It is not enabled while the dispatcher waits. -/
def Obligations.HouseStepClearsOverflows : Prop :=
  (∀ s : State, s.resetPhase = .running → s.nextLine = .dHouse → s.dpPhase = dpIdle ∨ s.dpPhase = 3 →
    s.ovfReqB ≠ s.ovfAck ∨ s.rxOvf = true →
    step s = .next
      { s.popLine with ovfAck := s.ovfReqB, rxOvf := false, out := { alert := decide (s.soundEn ≠ 0) } }) ∧
  (∀ s : State, s.dpPhase = dpArg ∨ s.dpPhase = dpStage → s.houseEnabled = false)

/-- A reply reaches the master that reads after it was staged: from an idle dispatcher and an idle engine, fetching a
reply command, staging, and the address event of a read send the event, the current code or the count. -/
def Obligations.ReplyReachesTheMaster : Prop :=
  ∀ s : State, s.mem.wf → s.fetchEnabled = true → s.rxRd < s.par.cR → s.busy = false →
    let sent (b : Byte) := ∃ t, s.runLines [.dFetch, .dStage, .st 0x7 0] = .next t ∧ t.out.action = some (.send b)
    (s.rxHead = 0 → sent (if s.kqRd = s.kqWrB then 0 else s.readCell .kq s.kqRd.toNat)) ∧
    (s.rxHead = 1 → sent s.curCodeB) ∧
    (s.rxHead = 2 → sent (BitVec.ofNat 8 ((s.kqWrB.toNat + 32 - s.kqRd.toNat) % 32)))

/-- A waiting dispatcher waits: in `DP_ARG` with `RX` empty, and in `DP_STAGE` with `busy` = 1, no line of the
dispatcher changes anything but the (idle) ports. That such a line is taken at all, and does nothing, is the model's
choice (log 2). -/
def Obligations.BlockedDispatcherDoesNothing : Prop :=
  ∀ s : State, s.resetPhase = .running →
    (s.dpPhase = dpArg ∧ s.rxWr = s.rxRd ∧ s.rxFull = false) ∨ (s.dpPhase = dpStage ∧ s.busy = true) →
    s.nextLine ∈ [Line.dFetch, Line.dArg, Line.dStage, Line.dHouse] →
    step s = .next { s.popLine with out := {} }

/-- No time-out: a running machine leaves `DP_ARG` by `D_ARG` alone and `DP_STAGE` by `D_STAGE` alone, but for a
reset. -/
def Obligations.WaitsEndOnlyByTheirOwnStep : Prop :=
  ∀ s t : State, s.resetPhase = .running → s.nextLine ≠ .rstAssert → step s = .next t →
    (s.dpPhase = dpArg → t.dpPhase ≠ dpArg → s.nextLine = .dArg) ∧
    (s.dpPhase = dpStage → t.dpPhase ≠ dpStage → s.nextLine = .dStage)

/-- A command that is not enabled changes nothing but the (idle) ports: the model's choice for an instruction run
where its agent has no step (log 2). -/
def Obligations.CommandNotEnabledDoesNothing : Prop :=
  ∀ (s : State) (c a : Byte),
    (s.fetchEnabled = false → ∀ i ∈ [Instr.getkey, .getcur, .getcnt, .led0 none, .led1 none, .led2 none, .led3 none,
      .setsnd none, .setrpt none, .cmdIgnored c], exec i s = .next { s with out := {} }) ∧
    (s.argEnabled = false → ∀ i ∈ [Instr.led0 (some a), .led1 (some a), .led2 (some a), .led3 (some a),
      .setsnd (some a), .setrpt (some a)], exec i s = .next { s with out := {} })

/-- An access to `RX` at an index that does not exist faults: the model's choice for states that no run reaches
(log 8). -/
def Obligations.MissingRxCellFaults : Prop :=
  ∀ (s : State) (c a d : Byte),
    (s.fetchEnabled = true → s.par.cR ≤ s.rxRd → ∀ i ∈ [Instr.getkey, .getcur, .getcnt, .led0 none, .led1 none,
      .led2 none, .led3 none, .setsnd none, .setrpt none, .cmdIgnored c], exec i s = .fault (.noSuchRxCell s.rxRd)) ∧
    (s.argEnabled = true → s.par.cR ≤ s.rxRd →
      ∀ p ∈ [(Instr.led0 (some a), 10#8), (.led1 (some a), 11#8), (.led2 (some a), 12#8), (.led3 (some a), 13#8),
        (.setsnd (some a), 20#8), (.setrpt (some a), 21#8)],
        s.dpCmd = p.2 → exec p.1 s = .fault (.noSuchRxCell s.rxRd)) ∧
    (s.rxFull = false → s.par.cR ≤ s.rxWr → ∀ i ∈ [Instr.stRxDataAck d, .stGcRxDataAck d],
      exec i s = .fault (.noSuchRxCell s.rxWr))

/-! ### Frames -/

/-- The frame of the commands: whatever the command and its operand, the state of `T` and of `E`, the seen copies,
`rx_ovf`, the `TX` indices and `ovf_ack` are unchanged; every cell reads as before but the slot that the argument of a
setting command is stored in. -/
def Obligations.CommandFrame : Prop :=
  ∀ (s t : State) (c : Byte) (arg : Option Byte),
    (∀ i ∈ [Instr.getkey, .getcur, .getcnt, .cmdIgnored c, .led0 arg, .led1 arg, .led2 arg, .led3 arg, .setsnd none,
      .setrpt none], exec i s = .next t → SameCells s t) ∧
    (exec (.setsnd arg) s = .next t → SameCellsBut .nvm s.par.slotSound s t) ∧
    (exec (.setrpt arg) s = .next t → SameCellsBut .nvm s.par.slotRepeat s t) ∧
    (∀ i ∈ [Instr.getkey, .getcur, .getcnt, .cmdIgnored c, .led0 arg, .led1 arg, .led2 arg, .led3 arg, .setsnd arg,
      .setrpt arg], exec i s = .next t →
        SameDebounce s t ∧ SameSeen s t ∧ SameEngine s t ∧ SameModel s t ∧ t.rxOvf = s.rxOvf ∧ t.txRd = s.txRd ∧
        t.txWr = s.txWr ∧ t.ovfAck = s.ovfAck)

/-- The frame of the status events: the state of `T` and of `D` and the seen copies are unchanged; every cell reads as
before but cell `rx_wr` of `RX`, and that one too for the classes that receive no byte. -/
def Obligations.StatusFrame : Prop :=
  ∀ (s t : State) (cls : BitVec 4) (d : Byte), exec (decodeStatus cls d) s = .next t →
    SameDebounce s t ∧ SameSeen s t ∧ SameDispatcher s t ∧ SameModel s t ∧ SameCellsBut .rx s.rxWr s t ∧
    (cls ≠ 0x3 → cls ≠ 0x4 → SameCells s t ∧ t.rxWr = s.rxWr ∧ t.rxFull = s.rxFull ∧ t.rxOvf = s.rxOvf) ∧
    (cls ≠ 0x7 → cls ≠ 0x8 → t.txRd = s.txRd)

/-- The settings, the LEDs and the non-volatile slots change in a running machine by their own commands' arguments
alone, but for a reset, which leaves the slots. -/
def Obligations.SettingsChangeOnlyByTheirCommands : Prop :=
  ∀ s t : State, s.resetPhase = .running → step s = .next t → s.nextLine ≠ .rstAssert →
    (t.soundEn ≠ s.soundEn → s.nextLine = .dArg ∧ s.dpCmd = 20) ∧
    (t.repeatEn ≠ s.repeatEn → s.nextLine = .dArg ∧ s.dpCmd = 21) ∧
    (t.led ≠ s.led → s.nextLine = .dArg ∧ s.dpCmd.toNat ∈ [10, 11, 12, 13]) ∧
    (∀ i, t.readCell .nvm i ≠ s.readCell .nvm i →
      s.nextLine = .dArg ∧ (s.dpCmd = 20 ∧ i = s.par.slotSound ∨ s.dpCmd = 21 ∧ i = s.par.slotRepeat))

/-- The overflow signals are cleared by `D_HOUSE` and by a reset, by nothing else. -/
def Obligations.OverflowsClearedOnlyByHouse : Prop :=
  ∀ s t : State, HandshakeSound s → s.resetPhase = .running → step s = .next t →
    (s.rxOvf = true → t.rxOvf = false → s.nextLine = .dHouse ∨ s.nextLine = .rstAssert) ∧
    (s.kbdOvfPending = true → t.kbdOvfPending = false → s.nextLine = .dHouse ∨ s.nextLine = .rstAssert)

/-! ### Agents together -/

/-- A tick and a status event commute: in either order the outcome is the same, ports apart. -/
def Obligations.TickAndStatusCommute : Prop :=
  ∀ (s : State) (k : Byte) (cls : BitVec 4) (d : Byte),
    portlessOutcome (s.runLines [.tickC k, .st cls d]) = portlessOutcome (s.runLines [.st cls d, .tickC k])

/-- A tick and a dispatcher step commute wherever the pointers are in order: in either order the outcome is the same,
ports apart. Where the dispatcher step is not enabled they commute because its line does nothing (log 2). -/
def Obligations.TickAndDispatcherCommute : Prop :=
  ∀ (s : State) (k : Byte), PointerOrder s → ∀ l ∈ [Line.dFetch, Line.dArg, Line.dStage, Line.dHouse],
    portlessOutcome (s.runLines [.tickC k, l]) = portlessOutcome (s.runLines [l, .tickC k])

/-! ### Invariants -/

/-- Each of these invariants is kept by every step on its own, from every state that has it: the canonical form of the
memory, the indices of `RX` in range, the reachable values of the debounce machine, the tail of `TX`, a legal
`dp_phase`, the overflow handshake. -/
def Obligations.StepKeepsEachLocalInvariant : Prop :=
  ∀ s t : State, step s = .next t →
    (s.mem.wf → t.mem.wf) ∧ (RxSound s → RxSound t) ∧ (StreakSound s → StreakSound t) ∧ (TxSound s → TxSound t) ∧
    (PhaseSound s → PhaseSound t) ∧ (HandshakeSound s → HandshakeSound t)

/-- Every step keeps the whole invariant: among other things no unread cell of the keyboard FIFO or of `RX` is one that
nothing wrote, so the unspecified reset contents are never observed. -/
def Obligations.StepKeepsInvariant : Prop :=
  ∀ s t : State, Sound s → step s = .next t → Sound t

/-- The state after reset is sound. -/
def Obligations.ResetStateIsSound : Prop := Sound State.reset

/-- A sound machine never stops: every step answers a next state. Where the next line is a dispatcher step that is not
enabled, which the spec calls blocked or asleep, that next state is the model's choice: nothing moves but the ports, and
the line is gone (log 2). -/
def Obligations.SoundMachineNeverStops : Prop :=
  ∀ s : State, Sound s → ∃ t, step s = .next t
end

