-- ==== Sys2Proof/Laws/Cells.lean ====
section
/-! SUPPORT. The laws of the cells: reading after writing, and the canonical form is kept. -/

namespace Sys2Proof.Machine

/-- A cell put is found, or it holds the stated value of an unlisted cell and is not listed. -/
theorem findCell_putCell_same (fill : Option Byte) (i : Nat) (v : Byte) (cells : List Host.Cell)
    (h : cells.Pairwise (fun a b => a.1 < b.1)) :
    findCell i (putCell fill i v cells) = if fill = some v then none else some v := by
  induction cells with
  | nil => by_cases hf : fill = some v <;> simp [putCell, findCell, hf]
  | cons c rest ih =>
    obtain ⟨j, w⟩ := c
    have absent : ∀ l : List Host.Cell, (∀ d ∈ l, i < d.1) → findCell i l = none := by
      intro l hl
      induction l with
      | nil => rfl
      | cons d l ihl =>
        have hd : i < d.1 := hl d (by simp)
        simp only [findCell]
        rw [if_neg (by omega), ihl fun e he => hl e (by simp [he])]
    rw [List.pairwise_cons] at h
    simp only [putCell]
    split
    · rename_i hij
      have hall : ∀ d ∈ (j, w) :: rest, i < d.1 := by
        intro d hd
        rcases List.mem_cons.1 hd with rfl | hd
        · exact hij
        · exact Nat.lt_trans hij (h.1 d hd)
      split
      · exact absent _ hall
      · simp [findCell]
    · split
      · rename_i hij
        subst hij
        split
        · exact absent _ h.1
        · simp [findCell]
      · rename_i hne
        simp only [findCell, if_neg hne]
        exact ih h.2

/-- Putting one cell leaves every other as it was. -/
theorem findCell_putCell_other (fill : Option Byte) {i j : Nat} (v : Byte) (cells : List Host.Cell) (hne : j ≠ i) :
    findCell j (putCell fill i v cells) = findCell j cells := by
  induction cells with
  | nil => by_cases hf : fill = some v <;> simp [putCell, findCell, hf, hne]
  | cons c rest ih =>
    obtain ⟨k, w⟩ := c
    simp only [putCell]
    split
    · split <;> simp [findCell, hne]
    · split
      · rename_i hik
        subst hik
        split <;> simp [findCell, hne]
      · simp only [findCell, ih]

/-- Every cell of the list after a put is the one put or was there before. -/
theorem mem_putCell {fill : Option Byte} {i : Nat} {v : Byte} {cells : List Host.Cell} {c : Host.Cell}
    (h : c ∈ putCell fill i v cells) : (c = (i, v) ∧ fill ≠ some v) ∨ c ∈ cells := by
  induction cells with
  | nil =>
    simp only [putCell] at h
    split at h
    · simp at h
    · rename_i hf
      exact Or.inl ⟨by simpa using h, hf⟩
  | cons d rest ih =>
    obtain ⟨j, w⟩ := d
    simp only [putCell] at h
    split at h
    · split at h
      · exact Or.inr h
      · rename_i hf
        rcases List.mem_cons.1 h with rfl | h
        · exact Or.inl ⟨rfl, hf⟩
        · exact Or.inr h
    · split at h
      · split at h
        · exact Or.inr (List.mem_cons_of_mem _ h)
        · rename_i hf
          rcases List.mem_cons.1 h with rfl | h
          · exact Or.inl ⟨rfl, hf⟩
          · exact Or.inr (List.mem_cons_of_mem _ h)
      · rcases List.mem_cons.1 h with rfl | h
        · exact Or.inr (by simp)
        · rcases ih h with h | h
          · exact Or.inl h
          · exact Or.inr (List.mem_cons_of_mem _ h)

/-- Putting a cell keeps the canonical form. -/
theorem putCell_keeps_wf {fill : Option Byte} (i : Nat) (v : Byte) {cells : List Host.Cell} (h : cellsWf fill cells) :
    cellsWf fill (putCell fill i v cells) := by
  refine ⟨?_, fun c hc => ?_⟩
  · have hp := h.1
    clear h
    induction cells with
    | nil => by_cases hf : fill = some v <;> simp [putCell, hf]
    | cons d rest ih =>
      obtain ⟨j, w⟩ := d
      rw [List.pairwise_cons] at hp
      simp only [putCell]
      split
      · rename_i hij
        split
        · exact List.pairwise_cons.2 hp
        · refine List.pairwise_cons.2 ⟨fun d hd => ?_, List.pairwise_cons.2 hp⟩
          rcases List.mem_cons.1 hd with rfl | hd
          · exact hij
          · exact Nat.lt_trans hij (hp.1 d hd)
      · split
        · rename_i hij
          subst hij
          split
          · exact hp.2
          · exact List.pairwise_cons.2 hp
        · refine List.pairwise_cons.2 ⟨fun d hd => ?_, ih hp.2⟩
          rcases mem_putCell hd with ⟨rfl, -⟩ | hd
          · show j < i
            omega
          · exact hp.1 d hd
  · rcases mem_putCell hc with ⟨rfl, hf⟩ | hc
    · exact hf
    · exact h.2 c hc

/-- Writing a cell keeps the canonical form of the memory. -/
theorem Memory.write_keeps_wf {m : Memory} (sp : Space) (i : Nat) (v : Byte) (h : m.wf) : (m.write sp i v).wf := by
  obtain ⟨h1, h2, h3, h4⟩ := h
  cases sp
  · exact ⟨putCell_keeps_wf i v h1, h2, h3, h4⟩
  · exact ⟨h1, putCell_keeps_wf i v h2, h3, h4⟩
  · exact ⟨h1, h2, putCell_keeps_wf i v h3, h4⟩
  · exact ⟨h1, h2, h3, putCell_keeps_wf i v h4⟩

/-- The memory with nothing listed has the canonical form. -/
theorem Memory.empty_wf : Memory.wf {} := by simp [Memory.wf, cellsWf]

/-- The list of a space after a write: of the space written to, with the cell put; of any other, as it was. -/
theorem Memory.cells_write (m : Memory) (sp sp' : Space) (i : Nat) (v : Byte) :
    (m.write sp i v).cells sp' = if sp' = sp then putCell sp.fill i v (m.cells sp) else m.cells sp' := by
  cases sp <;> cases sp' <;> rfl

/-- A canonical memory has every space's list canonical. -/
theorem Memory.wf_cells {m : Memory} (h : m.wf) (sp : Space) : cellsWf sp.fill (m.cells sp) := by
  obtain ⟨h1, h2, h3, h4⟩ := h
  cases sp <;> assumption

/-- Reading a cell after writing it gives the value written. -/
theorem State.readCell_writeCell_same {s : State} (sp : Space) (i : Nat) (v : Byte) (h : s.mem.wf) :
    (s.writeCell sp i v).readCell sp i = v := by
  have hc := findCell_putCell_same sp.fill i v (s.mem.cells sp) (Memory.wf_cells h sp).1
  simp only [State.readCell, State.writeCell, Memory.cells_write, if_pos, hc]
  split
  · rename_i hf
    cases sp <;> simp_all [Space.fill, unlistedCell]
  · rfl

/-- Writing a cell leaves every other cell as it was. -/
theorem State.readCell_writeCell_other {s : State} {sp sp' : Space} {i j : Nat} (v : Byte)
    (h : ¬(sp' = sp ∧ j = i)) : (s.writeCell sp i v).readCell sp' j = s.readCell sp' j := by
  simp only [State.readCell, State.writeCell, Memory.cells_write]
  split
  · rename_i hsp
    subst hsp
    rw [findCell_putCell_other _ _ _ fun hj => h ⟨rfl, hj⟩]
  · rfl

/-- What a cell reads as depends on the memory and the epoch alone. -/
theorem State.readCell_congr {s t : State} (hm : t.mem = s.mem) (he : t.epoch = s.epoch) (sp : Space) (i : Nat) :
    t.readCell sp i = s.readCell sp i := by
  simp only [State.readCell, hm, he]

end Sys2Proof.Machine
end

