-- ==== Sys2Proof/Laws/State.lean ====
section
/-! SUPPORT. What each named update of the state does to each field, so that no later proof unfolds an update. -/

namespace Sys2Proof.Machine

/-! ### `State.quiet` -/

@[simp] theorem State.quiet_par (s : State) : s.quiet.par = s.par := rfl
@[simp] theorem State.quiet_mem (s : State) : s.quiet.mem = s.mem := rfl
@[simp] theorem State.quiet_lastCode (s : State) : s.quiet.lastCode = s.lastCode := rfl
@[simp] theorem State.quiet_streak (s : State) : s.quiet.streak = s.streak := rfl
@[simp] theorem State.quiet_kqWr (s : State) : s.quiet.kqWr = s.kqWr := rfl
@[simp] theorem State.quiet_kqRd (s : State) : s.quiet.kqRd = s.kqRd := rfl
@[simp] theorem State.quiet_kqRdT (s : State) : s.quiet.kqRdT = s.kqRdT := rfl
@[simp] theorem State.quiet_kqWrB (s : State) : s.quiet.kqWrB = s.kqWrB := rfl
@[simp] theorem State.quiet_curCodeB (s : State) : s.quiet.curCodeB = s.curCodeB := rfl
@[simp] theorem State.quiet_soundEnT (s : State) : s.quiet.soundEnT = s.soundEnT := rfl
@[simp] theorem State.quiet_repeatEnT (s : State) : s.quiet.repeatEnT = s.repeatEnT := rfl
@[simp] theorem State.quiet_ovfReq (s : State) : s.quiet.ovfReq = s.ovfReq := rfl
@[simp] theorem State.quiet_ovfAck (s : State) : s.quiet.ovfAck = s.ovfAck := rfl
@[simp] theorem State.quiet_ovfReqB (s : State) : s.quiet.ovfReqB = s.ovfReqB := rfl
@[simp] theorem State.quiet_ovfAckT (s : State) : s.quiet.ovfAckT = s.ovfAckT := rfl
@[simp] theorem State.quiet_busy (s : State) : s.quiet.busy = s.busy := rfl
@[simp] theorem State.quiet_rxWr (s : State) : s.quiet.rxWr = s.rxWr := rfl
@[simp] theorem State.quiet_rxRd (s : State) : s.quiet.rxRd = s.rxRd := rfl
@[simp] theorem State.quiet_rxFull (s : State) : s.quiet.rxFull = s.rxFull := rfl
@[simp] theorem State.quiet_rxOvf (s : State) : s.quiet.rxOvf = s.rxOvf := rfl
@[simp] theorem State.quiet_txWr (s : State) : s.quiet.txWr = s.txWr := rfl
@[simp] theorem State.quiet_txRd (s : State) : s.quiet.txRd = s.txRd := rfl
@[simp] theorem State.quiet_dpPhase (s : State) : s.quiet.dpPhase = s.dpPhase := rfl
@[simp] theorem State.quiet_dpCmd (s : State) : s.quiet.dpCmd = s.dpCmd := rfl
@[simp] theorem State.quiet_dpReply (s : State) : s.quiet.dpReply = s.dpReply := rfl
@[simp] theorem State.quiet_soundEn (s : State) : s.quiet.soundEn = s.soundEn := rfl
@[simp] theorem State.quiet_repeatEn (s : State) : s.quiet.repeatEn = s.repeatEn := rfl
@[simp] theorem State.quiet_led (s : State) : s.quiet.led = s.led := rfl
@[simp] theorem State.quiet_resetPhase (s : State) : s.quiet.resetPhase = s.resetPhase := rfl
@[simp] theorem State.quiet_epoch (s : State) : s.quiet.epoch = s.epoch := rfl
@[simp] theorem State.quiet_inbox (s : State) : s.quiet.inbox = s.inbox := rfl
@[simp] theorem State.quiet_freeIdx (s : State) : s.quiet.freeIdx = s.freeIdx := rfl
@[simp] theorem State.quiet_out (s : State) : s.quiet.out = {} := rfl

/-! ### `State.drive` -/

@[simp] theorem State.drive_par (s : State) (a : EngAction) : (s.drive a).par = s.par := rfl
@[simp] theorem State.drive_mem (s : State) (a : EngAction) : (s.drive a).mem = s.mem := rfl
@[simp] theorem State.drive_lastCode (s : State) (a : EngAction) : (s.drive a).lastCode = s.lastCode := rfl
@[simp] theorem State.drive_streak (s : State) (a : EngAction) : (s.drive a).streak = s.streak := rfl
@[simp] theorem State.drive_kqWr (s : State) (a : EngAction) : (s.drive a).kqWr = s.kqWr := rfl
@[simp] theorem State.drive_kqRd (s : State) (a : EngAction) : (s.drive a).kqRd = s.kqRd := rfl
@[simp] theorem State.drive_kqRdT (s : State) (a : EngAction) : (s.drive a).kqRdT = s.kqRdT := rfl
@[simp] theorem State.drive_kqWrB (s : State) (a : EngAction) : (s.drive a).kqWrB = s.kqWrB := rfl
@[simp] theorem State.drive_curCodeB (s : State) (a : EngAction) : (s.drive a).curCodeB = s.curCodeB := rfl
@[simp] theorem State.drive_soundEnT (s : State) (a : EngAction) : (s.drive a).soundEnT = s.soundEnT := rfl
@[simp] theorem State.drive_repeatEnT (s : State) (a : EngAction) : (s.drive a).repeatEnT = s.repeatEnT := rfl
@[simp] theorem State.drive_ovfReq (s : State) (a : EngAction) : (s.drive a).ovfReq = s.ovfReq := rfl
@[simp] theorem State.drive_ovfAck (s : State) (a : EngAction) : (s.drive a).ovfAck = s.ovfAck := rfl
@[simp] theorem State.drive_ovfReqB (s : State) (a : EngAction) : (s.drive a).ovfReqB = s.ovfReqB := rfl
@[simp] theorem State.drive_ovfAckT (s : State) (a : EngAction) : (s.drive a).ovfAckT = s.ovfAckT := rfl
@[simp] theorem State.drive_busy (s : State) (a : EngAction) : (s.drive a).busy = s.busy := rfl
@[simp] theorem State.drive_rxWr (s : State) (a : EngAction) : (s.drive a).rxWr = s.rxWr := rfl
@[simp] theorem State.drive_rxRd (s : State) (a : EngAction) : (s.drive a).rxRd = s.rxRd := rfl
@[simp] theorem State.drive_rxFull (s : State) (a : EngAction) : (s.drive a).rxFull = s.rxFull := rfl
@[simp] theorem State.drive_rxOvf (s : State) (a : EngAction) : (s.drive a).rxOvf = s.rxOvf := rfl
@[simp] theorem State.drive_txWr (s : State) (a : EngAction) : (s.drive a).txWr = s.txWr := rfl
@[simp] theorem State.drive_txRd (s : State) (a : EngAction) : (s.drive a).txRd = s.txRd := rfl
@[simp] theorem State.drive_dpPhase (s : State) (a : EngAction) : (s.drive a).dpPhase = s.dpPhase := rfl
@[simp] theorem State.drive_dpCmd (s : State) (a : EngAction) : (s.drive a).dpCmd = s.dpCmd := rfl
@[simp] theorem State.drive_dpReply (s : State) (a : EngAction) : (s.drive a).dpReply = s.dpReply := rfl
@[simp] theorem State.drive_soundEn (s : State) (a : EngAction) : (s.drive a).soundEn = s.soundEn := rfl
@[simp] theorem State.drive_repeatEn (s : State) (a : EngAction) : (s.drive a).repeatEn = s.repeatEn := rfl
@[simp] theorem State.drive_led (s : State) (a : EngAction) : (s.drive a).led = s.led := rfl
@[simp] theorem State.drive_resetPhase (s : State) (a : EngAction) : (s.drive a).resetPhase = s.resetPhase := rfl
@[simp] theorem State.drive_epoch (s : State) (a : EngAction) : (s.drive a).epoch = s.epoch := rfl
@[simp] theorem State.drive_inbox (s : State) (a : EngAction) : (s.drive a).inbox = s.inbox := rfl
@[simp] theorem State.drive_freeIdx (s : State) (a : EngAction) : (s.drive a).freeIdx = s.freeIdx := rfl
@[simp] theorem State.drive_out (s : State) (a : EngAction) : (s.drive a).out = { s.out with action := some a } := rfl

/-! ### `State.writeCell` -/

@[simp] theorem State.writeCell_par (s : State) (sp : Space) (i : Nat) (v : Byte) :
    (s.writeCell sp i v).par = s.par := rfl
@[simp] theorem State.writeCell_mem (s : State) (sp : Space) (i : Nat) (v : Byte) :
    (s.writeCell sp i v).mem = s.mem.write sp i v := rfl
@[simp] theorem State.writeCell_lastCode (s : State) (sp : Space) (i : Nat) (v : Byte) :
    (s.writeCell sp i v).lastCode = s.lastCode := rfl
@[simp] theorem State.writeCell_streak (s : State) (sp : Space) (i : Nat) (v : Byte) :
    (s.writeCell sp i v).streak = s.streak := rfl
@[simp] theorem State.writeCell_kqWr (s : State) (sp : Space) (i : Nat) (v : Byte) :
    (s.writeCell sp i v).kqWr = s.kqWr := rfl
@[simp] theorem State.writeCell_kqRd (s : State) (sp : Space) (i : Nat) (v : Byte) :
    (s.writeCell sp i v).kqRd = s.kqRd := rfl
@[simp] theorem State.writeCell_kqRdT (s : State) (sp : Space) (i : Nat) (v : Byte) :
    (s.writeCell sp i v).kqRdT = s.kqRdT := rfl
@[simp] theorem State.writeCell_kqWrB (s : State) (sp : Space) (i : Nat) (v : Byte) :
    (s.writeCell sp i v).kqWrB = s.kqWrB := rfl
@[simp] theorem State.writeCell_curCodeB (s : State) (sp : Space) (i : Nat) (v : Byte) :
    (s.writeCell sp i v).curCodeB = s.curCodeB := rfl
@[simp] theorem State.writeCell_soundEnT (s : State) (sp : Space) (i : Nat) (v : Byte) :
    (s.writeCell sp i v).soundEnT = s.soundEnT := rfl
@[simp] theorem State.writeCell_repeatEnT (s : State) (sp : Space) (i : Nat) (v : Byte) :
    (s.writeCell sp i v).repeatEnT = s.repeatEnT := rfl
@[simp] theorem State.writeCell_ovfReq (s : State) (sp : Space) (i : Nat) (v : Byte) :
    (s.writeCell sp i v).ovfReq = s.ovfReq := rfl
@[simp] theorem State.writeCell_ovfAck (s : State) (sp : Space) (i : Nat) (v : Byte) :
    (s.writeCell sp i v).ovfAck = s.ovfAck := rfl
@[simp] theorem State.writeCell_ovfReqB (s : State) (sp : Space) (i : Nat) (v : Byte) :
    (s.writeCell sp i v).ovfReqB = s.ovfReqB := rfl
@[simp] theorem State.writeCell_ovfAckT (s : State) (sp : Space) (i : Nat) (v : Byte) :
    (s.writeCell sp i v).ovfAckT = s.ovfAckT := rfl
@[simp] theorem State.writeCell_busy (s : State) (sp : Space) (i : Nat) (v : Byte) :
    (s.writeCell sp i v).busy = s.busy := rfl
@[simp] theorem State.writeCell_rxWr (s : State) (sp : Space) (i : Nat) (v : Byte) :
    (s.writeCell sp i v).rxWr = s.rxWr := rfl
@[simp] theorem State.writeCell_rxRd (s : State) (sp : Space) (i : Nat) (v : Byte) :
    (s.writeCell sp i v).rxRd = s.rxRd := rfl
@[simp] theorem State.writeCell_rxFull (s : State) (sp : Space) (i : Nat) (v : Byte) :
    (s.writeCell sp i v).rxFull = s.rxFull := rfl
@[simp] theorem State.writeCell_rxOvf (s : State) (sp : Space) (i : Nat) (v : Byte) :
    (s.writeCell sp i v).rxOvf = s.rxOvf := rfl
@[simp] theorem State.writeCell_txWr (s : State) (sp : Space) (i : Nat) (v : Byte) :
    (s.writeCell sp i v).txWr = s.txWr := rfl
@[simp] theorem State.writeCell_txRd (s : State) (sp : Space) (i : Nat) (v : Byte) :
    (s.writeCell sp i v).txRd = s.txRd := rfl
@[simp] theorem State.writeCell_dpPhase (s : State) (sp : Space) (i : Nat) (v : Byte) :
    (s.writeCell sp i v).dpPhase = s.dpPhase := rfl
@[simp] theorem State.writeCell_dpCmd (s : State) (sp : Space) (i : Nat) (v : Byte) :
    (s.writeCell sp i v).dpCmd = s.dpCmd := rfl
@[simp] theorem State.writeCell_dpReply (s : State) (sp : Space) (i : Nat) (v : Byte) :
    (s.writeCell sp i v).dpReply = s.dpReply := rfl
@[simp] theorem State.writeCell_soundEn (s : State) (sp : Space) (i : Nat) (v : Byte) :
    (s.writeCell sp i v).soundEn = s.soundEn := rfl
@[simp] theorem State.writeCell_repeatEn (s : State) (sp : Space) (i : Nat) (v : Byte) :
    (s.writeCell sp i v).repeatEn = s.repeatEn := rfl
@[simp] theorem State.writeCell_led (s : State) (sp : Space) (i : Nat) (v : Byte) :
    (s.writeCell sp i v).led = s.led := rfl
@[simp] theorem State.writeCell_resetPhase (s : State) (sp : Space) (i : Nat) (v : Byte) :
    (s.writeCell sp i v).resetPhase = s.resetPhase := rfl
@[simp] theorem State.writeCell_epoch (s : State) (sp : Space) (i : Nat) (v : Byte) :
    (s.writeCell sp i v).epoch = s.epoch := rfl
@[simp] theorem State.writeCell_inbox (s : State) (sp : Space) (i : Nat) (v : Byte) :
    (s.writeCell sp i v).inbox = s.inbox := rfl
@[simp] theorem State.writeCell_freeIdx (s : State) (sp : Space) (i : Nat) (v : Byte) :
    (s.writeCell sp i v).freeIdx = s.freeIdx := rfl
@[simp] theorem State.writeCell_out (s : State) (sp : Space) (i : Nat) (v : Byte) :
    (s.writeCell sp i v).out = s.out := rfl

/-! ### `State.rxAdvance` -/

@[simp] theorem State.rxAdvance_par (s : State) : s.rxAdvance.par = s.par := rfl
@[simp] theorem State.rxAdvance_mem (s : State) : s.rxAdvance.mem = s.mem := rfl
@[simp] theorem State.rxAdvance_lastCode (s : State) : s.rxAdvance.lastCode = s.lastCode := rfl
@[simp] theorem State.rxAdvance_streak (s : State) : s.rxAdvance.streak = s.streak := rfl
@[simp] theorem State.rxAdvance_kqWr (s : State) : s.rxAdvance.kqWr = s.kqWr := rfl
@[simp] theorem State.rxAdvance_kqRd (s : State) : s.rxAdvance.kqRd = s.kqRd := rfl
@[simp] theorem State.rxAdvance_kqRdT (s : State) : s.rxAdvance.kqRdT = s.kqRdT := rfl
@[simp] theorem State.rxAdvance_kqWrB (s : State) : s.rxAdvance.kqWrB = s.kqWrB := rfl
@[simp] theorem State.rxAdvance_curCodeB (s : State) : s.rxAdvance.curCodeB = s.curCodeB := rfl
@[simp] theorem State.rxAdvance_soundEnT (s : State) : s.rxAdvance.soundEnT = s.soundEnT := rfl
@[simp] theorem State.rxAdvance_repeatEnT (s : State) : s.rxAdvance.repeatEnT = s.repeatEnT := rfl
@[simp] theorem State.rxAdvance_ovfReq (s : State) : s.rxAdvance.ovfReq = s.ovfReq := rfl
@[simp] theorem State.rxAdvance_ovfAck (s : State) : s.rxAdvance.ovfAck = s.ovfAck := rfl
@[simp] theorem State.rxAdvance_ovfReqB (s : State) : s.rxAdvance.ovfReqB = s.ovfReqB := rfl
@[simp] theorem State.rxAdvance_ovfAckT (s : State) : s.rxAdvance.ovfAckT = s.ovfAckT := rfl
@[simp] theorem State.rxAdvance_busy (s : State) : s.rxAdvance.busy = s.busy := rfl
@[simp] theorem State.rxAdvance_rxWr (s : State) : s.rxAdvance.rxWr = s.rxWr := rfl
@[simp] theorem State.rxAdvance_rxRd (s : State) : s.rxAdvance.rxRd = s.rxNext s.rxRd := rfl
@[simp] theorem State.rxAdvance_rxFull (s : State) : s.rxAdvance.rxFull = false := rfl
@[simp] theorem State.rxAdvance_rxOvf (s : State) : s.rxAdvance.rxOvf = s.rxOvf := rfl
@[simp] theorem State.rxAdvance_txWr (s : State) : s.rxAdvance.txWr = s.txWr := rfl
@[simp] theorem State.rxAdvance_txRd (s : State) : s.rxAdvance.txRd = s.txRd := rfl
@[simp] theorem State.rxAdvance_dpPhase (s : State) : s.rxAdvance.dpPhase = s.dpPhase := rfl
@[simp] theorem State.rxAdvance_dpCmd (s : State) : s.rxAdvance.dpCmd = s.dpCmd := rfl
@[simp] theorem State.rxAdvance_dpReply (s : State) : s.rxAdvance.dpReply = s.dpReply := rfl
@[simp] theorem State.rxAdvance_soundEn (s : State) : s.rxAdvance.soundEn = s.soundEn := rfl
@[simp] theorem State.rxAdvance_repeatEn (s : State) : s.rxAdvance.repeatEn = s.repeatEn := rfl
@[simp] theorem State.rxAdvance_led (s : State) : s.rxAdvance.led = s.led := rfl
@[simp] theorem State.rxAdvance_resetPhase (s : State) : s.rxAdvance.resetPhase = s.resetPhase := rfl
@[simp] theorem State.rxAdvance_epoch (s : State) : s.rxAdvance.epoch = s.epoch := rfl
@[simp] theorem State.rxAdvance_inbox (s : State) : s.rxAdvance.inbox = s.inbox := rfl
@[simp] theorem State.rxAdvance_freeIdx (s : State) : s.rxAdvance.freeIdx = s.freeIdx := rfl
@[simp] theorem State.rxAdvance_out (s : State) : s.rxAdvance.out = s.out := rfl

/-! ### `State.kqClear` -/

@[simp] theorem State.kqClear_par (s : State) : s.kqClear.par = s.par := rfl
@[simp] theorem State.kqClear_mem (s : State) : s.kqClear.mem = s.mem := rfl
@[simp] theorem State.kqClear_lastCode (s : State) : s.kqClear.lastCode = s.lastCode := rfl
@[simp] theorem State.kqClear_streak (s : State) : s.kqClear.streak = s.streak := rfl
@[simp] theorem State.kqClear_kqWr (s : State) : s.kqClear.kqWr = s.kqWr := rfl
@[simp] theorem State.kqClear_kqRd (s : State) : s.kqClear.kqRd = s.kqWrB := rfl
@[simp] theorem State.kqClear_kqRdT (s : State) : s.kqClear.kqRdT = s.kqRdT := rfl
@[simp] theorem State.kqClear_kqWrB (s : State) : s.kqClear.kqWrB = s.kqWrB := rfl
@[simp] theorem State.kqClear_curCodeB (s : State) : s.kqClear.curCodeB = s.curCodeB := rfl
@[simp] theorem State.kqClear_soundEnT (s : State) : s.kqClear.soundEnT = s.soundEnT := rfl
@[simp] theorem State.kqClear_repeatEnT (s : State) : s.kqClear.repeatEnT = s.repeatEnT := rfl
@[simp] theorem State.kqClear_ovfReq (s : State) : s.kqClear.ovfReq = s.ovfReq := rfl
@[simp] theorem State.kqClear_ovfAck (s : State) : s.kqClear.ovfAck = s.ovfAck := rfl
@[simp] theorem State.kqClear_ovfReqB (s : State) : s.kqClear.ovfReqB = s.ovfReqB := rfl
@[simp] theorem State.kqClear_ovfAckT (s : State) : s.kqClear.ovfAckT = s.ovfAckT := rfl
@[simp] theorem State.kqClear_busy (s : State) : s.kqClear.busy = s.busy := rfl
@[simp] theorem State.kqClear_rxWr (s : State) : s.kqClear.rxWr = s.rxWr := rfl
@[simp] theorem State.kqClear_rxRd (s : State) : s.kqClear.rxRd = s.rxRd := rfl
@[simp] theorem State.kqClear_rxFull (s : State) : s.kqClear.rxFull = s.rxFull := rfl
@[simp] theorem State.kqClear_rxOvf (s : State) : s.kqClear.rxOvf = s.rxOvf := rfl
@[simp] theorem State.kqClear_txWr (s : State) : s.kqClear.txWr = s.txWr := rfl
@[simp] theorem State.kqClear_txRd (s : State) : s.kqClear.txRd = s.txRd := rfl
@[simp] theorem State.kqClear_dpPhase (s : State) : s.kqClear.dpPhase = s.dpPhase := rfl
@[simp] theorem State.kqClear_dpCmd (s : State) : s.kqClear.dpCmd = s.dpCmd := rfl
@[simp] theorem State.kqClear_dpReply (s : State) : s.kqClear.dpReply = s.dpReply := rfl
@[simp] theorem State.kqClear_soundEn (s : State) : s.kqClear.soundEn = s.soundEn := rfl
@[simp] theorem State.kqClear_repeatEn (s : State) : s.kqClear.repeatEn = s.repeatEn := rfl
@[simp] theorem State.kqClear_led (s : State) : s.kqClear.led = s.led := rfl
@[simp] theorem State.kqClear_resetPhase (s : State) : s.kqClear.resetPhase = s.resetPhase := rfl
@[simp] theorem State.kqClear_epoch (s : State) : s.kqClear.epoch = s.epoch := rfl
@[simp] theorem State.kqClear_inbox (s : State) : s.kqClear.inbox = s.inbox := rfl
@[simp] theorem State.kqClear_freeIdx (s : State) : s.kqClear.freeIdx = s.freeIdx := rfl
@[simp] theorem State.kqClear_out (s : State) : s.kqClear.out = s.out := rfl

/-! ### `State.acknowledgeOverflows` -/

@[simp] theorem State.acknowledgeOverflows_par (s : State) : s.acknowledgeOverflows.par = s.par := rfl
@[simp] theorem State.acknowledgeOverflows_mem (s : State) : s.acknowledgeOverflows.mem = s.mem := rfl
@[simp] theorem State.acknowledgeOverflows_lastCode (s : State) : s.acknowledgeOverflows.lastCode = s.lastCode := rfl
@[simp] theorem State.acknowledgeOverflows_streak (s : State) : s.acknowledgeOverflows.streak = s.streak := rfl
@[simp] theorem State.acknowledgeOverflows_kqWr (s : State) : s.acknowledgeOverflows.kqWr = s.kqWr := rfl
@[simp] theorem State.acknowledgeOverflows_kqRd (s : State) : s.acknowledgeOverflows.kqRd = s.kqRd := rfl
@[simp] theorem State.acknowledgeOverflows_kqRdT (s : State) : s.acknowledgeOverflows.kqRdT = s.kqRdT := rfl
@[simp] theorem State.acknowledgeOverflows_kqWrB (s : State) : s.acknowledgeOverflows.kqWrB = s.kqWrB := rfl
@[simp] theorem State.acknowledgeOverflows_curCodeB (s : State) : s.acknowledgeOverflows.curCodeB = s.curCodeB := rfl
@[simp] theorem State.acknowledgeOverflows_soundEnT (s : State) : s.acknowledgeOverflows.soundEnT = s.soundEnT := rfl
@[simp] theorem State.acknowledgeOverflows_repeatEnT (s : State) :
    s.acknowledgeOverflows.repeatEnT = s.repeatEnT := rfl
@[simp] theorem State.acknowledgeOverflows_ovfReq (s : State) : s.acknowledgeOverflows.ovfReq = s.ovfReq := rfl
@[simp] theorem State.acknowledgeOverflows_ovfAck (s : State) : s.acknowledgeOverflows.ovfAck = s.ovfReqB := rfl
@[simp] theorem State.acknowledgeOverflows_ovfReqB (s : State) : s.acknowledgeOverflows.ovfReqB = s.ovfReqB := rfl
@[simp] theorem State.acknowledgeOverflows_ovfAckT (s : State) : s.acknowledgeOverflows.ovfAckT = s.ovfAckT := rfl
@[simp] theorem State.acknowledgeOverflows_busy (s : State) : s.acknowledgeOverflows.busy = s.busy := rfl
@[simp] theorem State.acknowledgeOverflows_rxWr (s : State) : s.acknowledgeOverflows.rxWr = s.rxWr := rfl
@[simp] theorem State.acknowledgeOverflows_rxRd (s : State) : s.acknowledgeOverflows.rxRd = s.rxRd := rfl
@[simp] theorem State.acknowledgeOverflows_rxFull (s : State) : s.acknowledgeOverflows.rxFull = s.rxFull := rfl
@[simp] theorem State.acknowledgeOverflows_rxOvf (s : State) : s.acknowledgeOverflows.rxOvf = false := rfl
@[simp] theorem State.acknowledgeOverflows_txWr (s : State) : s.acknowledgeOverflows.txWr = s.txWr := rfl
@[simp] theorem State.acknowledgeOverflows_txRd (s : State) : s.acknowledgeOverflows.txRd = s.txRd := rfl
@[simp] theorem State.acknowledgeOverflows_dpPhase (s : State) : s.acknowledgeOverflows.dpPhase = s.dpPhase := rfl
@[simp] theorem State.acknowledgeOverflows_dpCmd (s : State) : s.acknowledgeOverflows.dpCmd = s.dpCmd := rfl
@[simp] theorem State.acknowledgeOverflows_dpReply (s : State) : s.acknowledgeOverflows.dpReply = s.dpReply := rfl
@[simp] theorem State.acknowledgeOverflows_soundEn (s : State) : s.acknowledgeOverflows.soundEn = s.soundEn := rfl
@[simp] theorem State.acknowledgeOverflows_repeatEn (s : State) : s.acknowledgeOverflows.repeatEn = s.repeatEn := rfl
@[simp] theorem State.acknowledgeOverflows_led (s : State) : s.acknowledgeOverflows.led = s.led := rfl
@[simp] theorem State.acknowledgeOverflows_resetPhase (s : State) :
    s.acknowledgeOverflows.resetPhase = s.resetPhase := rfl
@[simp] theorem State.acknowledgeOverflows_epoch (s : State) : s.acknowledgeOverflows.epoch = s.epoch := rfl
@[simp] theorem State.acknowledgeOverflows_inbox (s : State) : s.acknowledgeOverflows.inbox = s.inbox := rfl
@[simp] theorem State.acknowledgeOverflows_freeIdx (s : State) : s.acknowledgeOverflows.freeIdx = s.freeIdx := rfl
@[simp] theorem State.acknowledgeOverflows_out (s : State) : s.acknowledgeOverflows.out = s.out := rfl

/-! ### `State.awaitArg` -/

@[simp] theorem State.awaitArg_par (s : State) (c : Byte) : (s.awaitArg c).par = s.par := rfl
@[simp] theorem State.awaitArg_mem (s : State) (c : Byte) : (s.awaitArg c).mem = s.mem := rfl
@[simp] theorem State.awaitArg_lastCode (s : State) (c : Byte) : (s.awaitArg c).lastCode = s.lastCode := rfl
@[simp] theorem State.awaitArg_streak (s : State) (c : Byte) : (s.awaitArg c).streak = s.streak := rfl
@[simp] theorem State.awaitArg_kqWr (s : State) (c : Byte) : (s.awaitArg c).kqWr = s.kqWr := rfl
@[simp] theorem State.awaitArg_kqRd (s : State) (c : Byte) : (s.awaitArg c).kqRd = s.kqRd := rfl
@[simp] theorem State.awaitArg_kqRdT (s : State) (c : Byte) : (s.awaitArg c).kqRdT = s.kqRdT := rfl
@[simp] theorem State.awaitArg_kqWrB (s : State) (c : Byte) : (s.awaitArg c).kqWrB = s.kqWrB := rfl
@[simp] theorem State.awaitArg_curCodeB (s : State) (c : Byte) : (s.awaitArg c).curCodeB = s.curCodeB := rfl
@[simp] theorem State.awaitArg_soundEnT (s : State) (c : Byte) : (s.awaitArg c).soundEnT = s.soundEnT := rfl
@[simp] theorem State.awaitArg_repeatEnT (s : State) (c : Byte) : (s.awaitArg c).repeatEnT = s.repeatEnT := rfl
@[simp] theorem State.awaitArg_ovfReq (s : State) (c : Byte) : (s.awaitArg c).ovfReq = s.ovfReq := rfl
@[simp] theorem State.awaitArg_ovfAck (s : State) (c : Byte) : (s.awaitArg c).ovfAck = s.ovfAck := rfl
@[simp] theorem State.awaitArg_ovfReqB (s : State) (c : Byte) : (s.awaitArg c).ovfReqB = s.ovfReqB := rfl
@[simp] theorem State.awaitArg_ovfAckT (s : State) (c : Byte) : (s.awaitArg c).ovfAckT = s.ovfAckT := rfl
@[simp] theorem State.awaitArg_busy (s : State) (c : Byte) : (s.awaitArg c).busy = s.busy := rfl
@[simp] theorem State.awaitArg_rxWr (s : State) (c : Byte) : (s.awaitArg c).rxWr = s.rxWr := rfl
@[simp] theorem State.awaitArg_rxRd (s : State) (c : Byte) : (s.awaitArg c).rxRd = s.rxRd := rfl
@[simp] theorem State.awaitArg_rxFull (s : State) (c : Byte) : (s.awaitArg c).rxFull = s.rxFull := rfl
@[simp] theorem State.awaitArg_rxOvf (s : State) (c : Byte) : (s.awaitArg c).rxOvf = s.rxOvf := rfl
@[simp] theorem State.awaitArg_txWr (s : State) (c : Byte) : (s.awaitArg c).txWr = s.txWr := rfl
@[simp] theorem State.awaitArg_txRd (s : State) (c : Byte) : (s.awaitArg c).txRd = s.txRd := rfl
@[simp] theorem State.awaitArg_dpPhase (s : State) (c : Byte) : (s.awaitArg c).dpPhase = dpArg := rfl
@[simp] theorem State.awaitArg_dpCmd (s : State) (c : Byte) : (s.awaitArg c).dpCmd = c := rfl
@[simp] theorem State.awaitArg_dpReply (s : State) (c : Byte) : (s.awaitArg c).dpReply = s.dpReply := rfl
@[simp] theorem State.awaitArg_soundEn (s : State) (c : Byte) : (s.awaitArg c).soundEn = s.soundEn := rfl
@[simp] theorem State.awaitArg_repeatEn (s : State) (c : Byte) : (s.awaitArg c).repeatEn = s.repeatEn := rfl
@[simp] theorem State.awaitArg_led (s : State) (c : Byte) : (s.awaitArg c).led = s.led := rfl
@[simp] theorem State.awaitArg_resetPhase (s : State) (c : Byte) : (s.awaitArg c).resetPhase = s.resetPhase := rfl
@[simp] theorem State.awaitArg_epoch (s : State) (c : Byte) : (s.awaitArg c).epoch = s.epoch := rfl
@[simp] theorem State.awaitArg_inbox (s : State) (c : Byte) : (s.awaitArg c).inbox = s.inbox := rfl
@[simp] theorem State.awaitArg_freeIdx (s : State) (c : Byte) : (s.awaitArg c).freeIdx = s.freeIdx := rfl
@[simp] theorem State.awaitArg_out (s : State) (c : Byte) : (s.awaitArg c).out = s.out := rfl

/-! ### `State.awaitStage` -/

@[simp] theorem State.awaitStage_par (s : State) (v : Byte) : (s.awaitStage v).par = s.par := rfl
@[simp] theorem State.awaitStage_mem (s : State) (v : Byte) : (s.awaitStage v).mem = s.mem := rfl
@[simp] theorem State.awaitStage_lastCode (s : State) (v : Byte) : (s.awaitStage v).lastCode = s.lastCode := rfl
@[simp] theorem State.awaitStage_streak (s : State) (v : Byte) : (s.awaitStage v).streak = s.streak := rfl
@[simp] theorem State.awaitStage_kqWr (s : State) (v : Byte) : (s.awaitStage v).kqWr = s.kqWr := rfl
@[simp] theorem State.awaitStage_kqRd (s : State) (v : Byte) : (s.awaitStage v).kqRd = s.kqRd := rfl
@[simp] theorem State.awaitStage_kqRdT (s : State) (v : Byte) : (s.awaitStage v).kqRdT = s.kqRdT := rfl
@[simp] theorem State.awaitStage_kqWrB (s : State) (v : Byte) : (s.awaitStage v).kqWrB = s.kqWrB := rfl
@[simp] theorem State.awaitStage_curCodeB (s : State) (v : Byte) : (s.awaitStage v).curCodeB = s.curCodeB := rfl
@[simp] theorem State.awaitStage_soundEnT (s : State) (v : Byte) : (s.awaitStage v).soundEnT = s.soundEnT := rfl
@[simp] theorem State.awaitStage_repeatEnT (s : State) (v : Byte) : (s.awaitStage v).repeatEnT = s.repeatEnT := rfl
@[simp] theorem State.awaitStage_ovfReq (s : State) (v : Byte) : (s.awaitStage v).ovfReq = s.ovfReq := rfl
@[simp] theorem State.awaitStage_ovfAck (s : State) (v : Byte) : (s.awaitStage v).ovfAck = s.ovfAck := rfl
@[simp] theorem State.awaitStage_ovfReqB (s : State) (v : Byte) : (s.awaitStage v).ovfReqB = s.ovfReqB := rfl
@[simp] theorem State.awaitStage_ovfAckT (s : State) (v : Byte) : (s.awaitStage v).ovfAckT = s.ovfAckT := rfl
@[simp] theorem State.awaitStage_busy (s : State) (v : Byte) : (s.awaitStage v).busy = s.busy := rfl
@[simp] theorem State.awaitStage_rxWr (s : State) (v : Byte) : (s.awaitStage v).rxWr = s.rxWr := rfl
@[simp] theorem State.awaitStage_rxRd (s : State) (v : Byte) : (s.awaitStage v).rxRd = s.rxRd := rfl
@[simp] theorem State.awaitStage_rxFull (s : State) (v : Byte) : (s.awaitStage v).rxFull = s.rxFull := rfl
@[simp] theorem State.awaitStage_rxOvf (s : State) (v : Byte) : (s.awaitStage v).rxOvf = s.rxOvf := rfl
@[simp] theorem State.awaitStage_txWr (s : State) (v : Byte) : (s.awaitStage v).txWr = s.txWr := rfl
@[simp] theorem State.awaitStage_txRd (s : State) (v : Byte) : (s.awaitStage v).txRd = s.txRd := rfl
@[simp] theorem State.awaitStage_dpPhase (s : State) (v : Byte) : (s.awaitStage v).dpPhase = dpStage := rfl
@[simp] theorem State.awaitStage_dpCmd (s : State) (v : Byte) : (s.awaitStage v).dpCmd = s.dpCmd := rfl
@[simp] theorem State.awaitStage_dpReply (s : State) (v : Byte) : (s.awaitStage v).dpReply = v := rfl
@[simp] theorem State.awaitStage_soundEn (s : State) (v : Byte) : (s.awaitStage v).soundEn = s.soundEn := rfl
@[simp] theorem State.awaitStage_repeatEn (s : State) (v : Byte) : (s.awaitStage v).repeatEn = s.repeatEn := rfl
@[simp] theorem State.awaitStage_led (s : State) (v : Byte) : (s.awaitStage v).led = s.led := rfl
@[simp] theorem State.awaitStage_resetPhase (s : State) (v : Byte) : (s.awaitStage v).resetPhase = s.resetPhase := rfl
@[simp] theorem State.awaitStage_epoch (s : State) (v : Byte) : (s.awaitStage v).epoch = s.epoch := rfl
@[simp] theorem State.awaitStage_inbox (s : State) (v : Byte) : (s.awaitStage v).inbox = s.inbox := rfl
@[simp] theorem State.awaitStage_freeIdx (s : State) (v : Byte) : (s.awaitStage v).freeIdx = s.freeIdx := rfl
@[simp] theorem State.awaitStage_out (s : State) (v : Byte) : (s.awaitStage v).out = s.out := rfl

/-! ### `State.setLed` -/

@[simp] theorem State.setLed_par (s : State) (c a : Byte) : (s.setLed c a).par = s.par := rfl
@[simp] theorem State.setLed_mem (s : State) (c a : Byte) : (s.setLed c a).mem = s.mem := rfl
@[simp] theorem State.setLed_lastCode (s : State) (c a : Byte) : (s.setLed c a).lastCode = s.lastCode := rfl
@[simp] theorem State.setLed_streak (s : State) (c a : Byte) : (s.setLed c a).streak = s.streak := rfl
@[simp] theorem State.setLed_kqWr (s : State) (c a : Byte) : (s.setLed c a).kqWr = s.kqWr := rfl
@[simp] theorem State.setLed_kqRd (s : State) (c a : Byte) : (s.setLed c a).kqRd = s.kqRd := rfl
@[simp] theorem State.setLed_kqRdT (s : State) (c a : Byte) : (s.setLed c a).kqRdT = s.kqRdT := rfl
@[simp] theorem State.setLed_kqWrB (s : State) (c a : Byte) : (s.setLed c a).kqWrB = s.kqWrB := rfl
@[simp] theorem State.setLed_curCodeB (s : State) (c a : Byte) : (s.setLed c a).curCodeB = s.curCodeB := rfl
@[simp] theorem State.setLed_soundEnT (s : State) (c a : Byte) : (s.setLed c a).soundEnT = s.soundEnT := rfl
@[simp] theorem State.setLed_repeatEnT (s : State) (c a : Byte) : (s.setLed c a).repeatEnT = s.repeatEnT := rfl
@[simp] theorem State.setLed_ovfReq (s : State) (c a : Byte) : (s.setLed c a).ovfReq = s.ovfReq := rfl
@[simp] theorem State.setLed_ovfAck (s : State) (c a : Byte) : (s.setLed c a).ovfAck = s.ovfAck := rfl
@[simp] theorem State.setLed_ovfReqB (s : State) (c a : Byte) : (s.setLed c a).ovfReqB = s.ovfReqB := rfl
@[simp] theorem State.setLed_ovfAckT (s : State) (c a : Byte) : (s.setLed c a).ovfAckT = s.ovfAckT := rfl
@[simp] theorem State.setLed_busy (s : State) (c a : Byte) : (s.setLed c a).busy = s.busy := rfl
@[simp] theorem State.setLed_rxWr (s : State) (c a : Byte) : (s.setLed c a).rxWr = s.rxWr := rfl
@[simp] theorem State.setLed_rxRd (s : State) (c a : Byte) : (s.setLed c a).rxRd = s.rxRd := rfl
@[simp] theorem State.setLed_rxFull (s : State) (c a : Byte) : (s.setLed c a).rxFull = s.rxFull := rfl
@[simp] theorem State.setLed_rxOvf (s : State) (c a : Byte) : (s.setLed c a).rxOvf = s.rxOvf := rfl
@[simp] theorem State.setLed_txWr (s : State) (c a : Byte) : (s.setLed c a).txWr = s.txWr := rfl
@[simp] theorem State.setLed_txRd (s : State) (c a : Byte) : (s.setLed c a).txRd = s.txRd := rfl
@[simp] theorem State.setLed_dpPhase (s : State) (c a : Byte) : (s.setLed c a).dpPhase = s.dpPhase := rfl
@[simp] theorem State.setLed_dpCmd (s : State) (c a : Byte) : (s.setLed c a).dpCmd = s.dpCmd := rfl
@[simp] theorem State.setLed_dpReply (s : State) (c a : Byte) : (s.setLed c a).dpReply = s.dpReply := rfl
@[simp] theorem State.setLed_soundEn (s : State) (c a : Byte) : (s.setLed c a).soundEn = s.soundEn := rfl
@[simp] theorem State.setLed_repeatEn (s : State) (c a : Byte) : (s.setLed c a).repeatEn = s.repeatEn := rfl
@[simp] theorem State.setLed_led (s : State) (c a : Byte) :
    (s.setLed c a).led = setLedBit s.led (ledIndex c) (nonZero a) := rfl
@[simp] theorem State.setLed_resetPhase (s : State) (c a : Byte) : (s.setLed c a).resetPhase = s.resetPhase := rfl
@[simp] theorem State.setLed_epoch (s : State) (c a : Byte) : (s.setLed c a).epoch = s.epoch := rfl
@[simp] theorem State.setLed_inbox (s : State) (c a : Byte) : (s.setLed c a).inbox = s.inbox := rfl
@[simp] theorem State.setLed_freeIdx (s : State) (c a : Byte) : (s.setLed c a).freeIdx = s.freeIdx := rfl
@[simp] theorem State.setLed_out (s : State) (c a : Byte) : (s.setLed c a).out = s.out := rfl

/-! ### `State.rxStore` -/

@[simp] theorem State.rxStore_par (s : State) (d : Byte) : (s.rxStore d).par = s.par := rfl
@[simp] theorem State.rxStore_mem (s : State) (d : Byte) : (s.rxStore d).mem = s.mem.write .rx s.rxWr d := rfl
@[simp] theorem State.rxStore_lastCode (s : State) (d : Byte) : (s.rxStore d).lastCode = s.lastCode := rfl
@[simp] theorem State.rxStore_streak (s : State) (d : Byte) : (s.rxStore d).streak = s.streak := rfl
@[simp] theorem State.rxStore_kqWr (s : State) (d : Byte) : (s.rxStore d).kqWr = s.kqWr := rfl
@[simp] theorem State.rxStore_kqRd (s : State) (d : Byte) : (s.rxStore d).kqRd = s.kqRd := rfl
@[simp] theorem State.rxStore_kqRdT (s : State) (d : Byte) : (s.rxStore d).kqRdT = s.kqRdT := rfl
@[simp] theorem State.rxStore_kqWrB (s : State) (d : Byte) : (s.rxStore d).kqWrB = s.kqWrB := rfl
@[simp] theorem State.rxStore_curCodeB (s : State) (d : Byte) : (s.rxStore d).curCodeB = s.curCodeB := rfl
@[simp] theorem State.rxStore_soundEnT (s : State) (d : Byte) : (s.rxStore d).soundEnT = s.soundEnT := rfl
@[simp] theorem State.rxStore_repeatEnT (s : State) (d : Byte) : (s.rxStore d).repeatEnT = s.repeatEnT := rfl
@[simp] theorem State.rxStore_ovfReq (s : State) (d : Byte) : (s.rxStore d).ovfReq = s.ovfReq := rfl
@[simp] theorem State.rxStore_ovfAck (s : State) (d : Byte) : (s.rxStore d).ovfAck = s.ovfAck := rfl
@[simp] theorem State.rxStore_ovfReqB (s : State) (d : Byte) : (s.rxStore d).ovfReqB = s.ovfReqB := rfl
@[simp] theorem State.rxStore_ovfAckT (s : State) (d : Byte) : (s.rxStore d).ovfAckT = s.ovfAckT := rfl
@[simp] theorem State.rxStore_busy (s : State) (d : Byte) : (s.rxStore d).busy = s.busy := rfl
@[simp] theorem State.rxStore_rxWr (s : State) (d : Byte) : (s.rxStore d).rxWr = s.rxNext s.rxWr := rfl
@[simp] theorem State.rxStore_rxRd (s : State) (d : Byte) : (s.rxStore d).rxRd = s.rxRd := rfl
@[simp] theorem State.rxStore_rxFull (s : State) (d : Byte) :
    (s.rxStore d).rxFull = (decide (s.rxNext s.rxWr = s.rxRd) || s.rxFull) := rfl
@[simp] theorem State.rxStore_rxOvf (s : State) (d : Byte) : (s.rxStore d).rxOvf = s.rxOvf := rfl
@[simp] theorem State.rxStore_txWr (s : State) (d : Byte) : (s.rxStore d).txWr = s.txWr := rfl
@[simp] theorem State.rxStore_txRd (s : State) (d : Byte) : (s.rxStore d).txRd = s.txRd := rfl
@[simp] theorem State.rxStore_dpPhase (s : State) (d : Byte) : (s.rxStore d).dpPhase = s.dpPhase := rfl
@[simp] theorem State.rxStore_dpCmd (s : State) (d : Byte) : (s.rxStore d).dpCmd = s.dpCmd := rfl
@[simp] theorem State.rxStore_dpReply (s : State) (d : Byte) : (s.rxStore d).dpReply = s.dpReply := rfl
@[simp] theorem State.rxStore_soundEn (s : State) (d : Byte) : (s.rxStore d).soundEn = s.soundEn := rfl
@[simp] theorem State.rxStore_repeatEn (s : State) (d : Byte) : (s.rxStore d).repeatEn = s.repeatEn := rfl
@[simp] theorem State.rxStore_led (s : State) (d : Byte) : (s.rxStore d).led = s.led := rfl
@[simp] theorem State.rxStore_resetPhase (s : State) (d : Byte) : (s.rxStore d).resetPhase = s.resetPhase := rfl
@[simp] theorem State.rxStore_epoch (s : State) (d : Byte) : (s.rxStore d).epoch = s.epoch := rfl
@[simp] theorem State.rxStore_inbox (s : State) (d : Byte) : (s.rxStore d).inbox = s.inbox := rfl
@[simp] theorem State.rxStore_freeIdx (s : State) (d : Byte) : (s.rxStore d).freeIdx = s.freeIdx := rfl
@[simp] theorem State.rxStore_out (s : State) (d : Byte) : (s.rxStore d).out = s.out := rfl

/-! ### `State.addressedForWrite` -/

@[simp] theorem State.addressedForWrite_par (s : State) : s.addressedForWrite.par = s.par := rfl
@[simp] theorem State.addressedForWrite_mem (s : State) : s.addressedForWrite.mem = s.mem := rfl
@[simp] theorem State.addressedForWrite_lastCode (s : State) : s.addressedForWrite.lastCode = s.lastCode := rfl
@[simp] theorem State.addressedForWrite_streak (s : State) : s.addressedForWrite.streak = s.streak := rfl
@[simp] theorem State.addressedForWrite_kqWr (s : State) : s.addressedForWrite.kqWr = s.kqWr := rfl
@[simp] theorem State.addressedForWrite_kqRd (s : State) : s.addressedForWrite.kqRd = s.kqRd := rfl
@[simp] theorem State.addressedForWrite_kqRdT (s : State) : s.addressedForWrite.kqRdT = s.kqRdT := rfl
@[simp] theorem State.addressedForWrite_kqWrB (s : State) : s.addressedForWrite.kqWrB = s.kqWrB := rfl
@[simp] theorem State.addressedForWrite_curCodeB (s : State) : s.addressedForWrite.curCodeB = s.curCodeB := rfl
@[simp] theorem State.addressedForWrite_soundEnT (s : State) : s.addressedForWrite.soundEnT = s.soundEnT := rfl
@[simp] theorem State.addressedForWrite_repeatEnT (s : State) : s.addressedForWrite.repeatEnT = s.repeatEnT := rfl
@[simp] theorem State.addressedForWrite_ovfReq (s : State) : s.addressedForWrite.ovfReq = s.ovfReq := rfl
@[simp] theorem State.addressedForWrite_ovfAck (s : State) : s.addressedForWrite.ovfAck = s.ovfAck := rfl
@[simp] theorem State.addressedForWrite_ovfReqB (s : State) : s.addressedForWrite.ovfReqB = s.ovfReqB := rfl
@[simp] theorem State.addressedForWrite_ovfAckT (s : State) : s.addressedForWrite.ovfAckT = s.ovfAckT := rfl
@[simp] theorem State.addressedForWrite_busy (s : State) : s.addressedForWrite.busy = true := rfl
@[simp] theorem State.addressedForWrite_rxWr (s : State) : s.addressedForWrite.rxWr = s.rxWr := rfl
@[simp] theorem State.addressedForWrite_rxRd (s : State) : s.addressedForWrite.rxRd = s.rxRd := rfl
@[simp] theorem State.addressedForWrite_rxFull (s : State) : s.addressedForWrite.rxFull = s.rxFull := rfl
@[simp] theorem State.addressedForWrite_rxOvf (s : State) : s.addressedForWrite.rxOvf = s.rxOvf := rfl
@[simp] theorem State.addressedForWrite_txWr (s : State) : s.addressedForWrite.txWr = s.txWr := rfl
@[simp] theorem State.addressedForWrite_txRd (s : State) : s.addressedForWrite.txRd = s.txRd := rfl
@[simp] theorem State.addressedForWrite_dpPhase (s : State) : s.addressedForWrite.dpPhase = s.dpPhase := rfl
@[simp] theorem State.addressedForWrite_dpCmd (s : State) : s.addressedForWrite.dpCmd = s.dpCmd := rfl
@[simp] theorem State.addressedForWrite_dpReply (s : State) : s.addressedForWrite.dpReply = s.dpReply := rfl
@[simp] theorem State.addressedForWrite_soundEn (s : State) : s.addressedForWrite.soundEn = s.soundEn := rfl
@[simp] theorem State.addressedForWrite_repeatEn (s : State) : s.addressedForWrite.repeatEn = s.repeatEn := rfl
@[simp] theorem State.addressedForWrite_led (s : State) : s.addressedForWrite.led = s.led := rfl
@[simp] theorem State.addressedForWrite_resetPhase (s : State) : s.addressedForWrite.resetPhase = s.resetPhase := rfl
@[simp] theorem State.addressedForWrite_epoch (s : State) : s.addressedForWrite.epoch = s.epoch := rfl
@[simp] theorem State.addressedForWrite_inbox (s : State) : s.addressedForWrite.inbox = s.inbox := rfl
@[simp] theorem State.addressedForWrite_freeIdx (s : State) : s.addressedForWrite.freeIdx = s.freeIdx := rfl
@[simp] theorem State.addressedForWrite_out (s : State) : s.addressedForWrite.out = { action := some .armRx } := rfl

/-! ### `State.transactionEnd` -/

@[simp] theorem State.transactionEnd_par (s : State) : s.transactionEnd.par = s.par := rfl
@[simp] theorem State.transactionEnd_mem (s : State) : s.transactionEnd.mem = s.mem := rfl
@[simp] theorem State.transactionEnd_lastCode (s : State) : s.transactionEnd.lastCode = s.lastCode := rfl
@[simp] theorem State.transactionEnd_streak (s : State) : s.transactionEnd.streak = s.streak := rfl
@[simp] theorem State.transactionEnd_kqWr (s : State) : s.transactionEnd.kqWr = s.kqWr := rfl
@[simp] theorem State.transactionEnd_kqRd (s : State) : s.transactionEnd.kqRd = s.kqRd := rfl
@[simp] theorem State.transactionEnd_kqRdT (s : State) : s.transactionEnd.kqRdT = s.kqRdT := rfl
@[simp] theorem State.transactionEnd_kqWrB (s : State) : s.transactionEnd.kqWrB = s.kqWrB := rfl
@[simp] theorem State.transactionEnd_curCodeB (s : State) : s.transactionEnd.curCodeB = s.curCodeB := rfl
@[simp] theorem State.transactionEnd_soundEnT (s : State) : s.transactionEnd.soundEnT = s.soundEnT := rfl
@[simp] theorem State.transactionEnd_repeatEnT (s : State) : s.transactionEnd.repeatEnT = s.repeatEnT := rfl
@[simp] theorem State.transactionEnd_ovfReq (s : State) : s.transactionEnd.ovfReq = s.ovfReq := rfl
@[simp] theorem State.transactionEnd_ovfAck (s : State) : s.transactionEnd.ovfAck = s.ovfAck := rfl
@[simp] theorem State.transactionEnd_ovfReqB (s : State) : s.transactionEnd.ovfReqB = s.ovfReqB := rfl
@[simp] theorem State.transactionEnd_ovfAckT (s : State) : s.transactionEnd.ovfAckT = s.ovfAckT := rfl
@[simp] theorem State.transactionEnd_busy (s : State) : s.transactionEnd.busy = false := rfl
@[simp] theorem State.transactionEnd_rxWr (s : State) : s.transactionEnd.rxWr = s.rxWr := rfl
@[simp] theorem State.transactionEnd_rxRd (s : State) : s.transactionEnd.rxRd = s.rxRd := rfl
@[simp] theorem State.transactionEnd_rxFull (s : State) : s.transactionEnd.rxFull = s.rxFull := rfl
@[simp] theorem State.transactionEnd_rxOvf (s : State) : s.transactionEnd.rxOvf = s.rxOvf := rfl
@[simp] theorem State.transactionEnd_txWr (s : State) : s.transactionEnd.txWr = s.txWr := rfl
@[simp] theorem State.transactionEnd_txRd (s : State) : s.transactionEnd.txRd = s.txRd := rfl
@[simp] theorem State.transactionEnd_dpPhase (s : State) : s.transactionEnd.dpPhase = s.dpPhase := rfl
@[simp] theorem State.transactionEnd_dpCmd (s : State) : s.transactionEnd.dpCmd = s.dpCmd := rfl
@[simp] theorem State.transactionEnd_dpReply (s : State) : s.transactionEnd.dpReply = s.dpReply := rfl
@[simp] theorem State.transactionEnd_soundEn (s : State) : s.transactionEnd.soundEn = s.soundEn := rfl
@[simp] theorem State.transactionEnd_repeatEn (s : State) : s.transactionEnd.repeatEn = s.repeatEn := rfl
@[simp] theorem State.transactionEnd_led (s : State) : s.transactionEnd.led = s.led := rfl
@[simp] theorem State.transactionEnd_resetPhase (s : State) : s.transactionEnd.resetPhase = s.resetPhase := rfl
@[simp] theorem State.transactionEnd_epoch (s : State) : s.transactionEnd.epoch = s.epoch := rfl
@[simp] theorem State.transactionEnd_inbox (s : State) : s.transactionEnd.inbox = s.inbox := rfl
@[simp] theorem State.transactionEnd_freeIdx (s : State) : s.transactionEnd.freeIdx = s.freeIdx := rfl
@[simp] theorem State.transactionEnd_out (s : State) : s.transactionEnd.out = { action := some .armAddr } := rfl

/-! ### `State.txStage` -/

@[simp] theorem State.txStage_par (s : State) (v : Byte) : (s.txStage v).par = s.par := rfl
@[simp] theorem State.txStage_mem (s : State) (v : Byte) : (s.txStage v).mem = s.mem.write .tx 0 v := rfl
@[simp] theorem State.txStage_lastCode (s : State) (v : Byte) : (s.txStage v).lastCode = s.lastCode := rfl
@[simp] theorem State.txStage_streak (s : State) (v : Byte) : (s.txStage v).streak = s.streak := rfl
@[simp] theorem State.txStage_kqWr (s : State) (v : Byte) : (s.txStage v).kqWr = s.kqWr := rfl
@[simp] theorem State.txStage_kqRd (s : State) (v : Byte) : (s.txStage v).kqRd = s.kqRd := rfl
@[simp] theorem State.txStage_kqRdT (s : State) (v : Byte) : (s.txStage v).kqRdT = s.kqRdT := rfl
@[simp] theorem State.txStage_kqWrB (s : State) (v : Byte) : (s.txStage v).kqWrB = s.kqWrB := rfl
@[simp] theorem State.txStage_curCodeB (s : State) (v : Byte) : (s.txStage v).curCodeB = s.curCodeB := rfl
@[simp] theorem State.txStage_soundEnT (s : State) (v : Byte) : (s.txStage v).soundEnT = s.soundEnT := rfl
@[simp] theorem State.txStage_repeatEnT (s : State) (v : Byte) : (s.txStage v).repeatEnT = s.repeatEnT := rfl
@[simp] theorem State.txStage_ovfReq (s : State) (v : Byte) : (s.txStage v).ovfReq = s.ovfReq := rfl
@[simp] theorem State.txStage_ovfAck (s : State) (v : Byte) : (s.txStage v).ovfAck = s.ovfAck := rfl
@[simp] theorem State.txStage_ovfReqB (s : State) (v : Byte) : (s.txStage v).ovfReqB = s.ovfReqB := rfl
@[simp] theorem State.txStage_ovfAckT (s : State) (v : Byte) : (s.txStage v).ovfAckT = s.ovfAckT := rfl
@[simp] theorem State.txStage_busy (s : State) (v : Byte) : (s.txStage v).busy = s.busy := rfl
@[simp] theorem State.txStage_rxWr (s : State) (v : Byte) : (s.txStage v).rxWr = s.rxWr := rfl
@[simp] theorem State.txStage_rxRd (s : State) (v : Byte) : (s.txStage v).rxRd = s.rxRd := rfl
@[simp] theorem State.txStage_rxFull (s : State) (v : Byte) : (s.txStage v).rxFull = s.rxFull := rfl
@[simp] theorem State.txStage_rxOvf (s : State) (v : Byte) : (s.txStage v).rxOvf = s.rxOvf := rfl
@[simp] theorem State.txStage_txWr (s : State) (v : Byte) : (s.txStage v).txWr = 1 := rfl
@[simp] theorem State.txStage_txRd (s : State) (v : Byte) : (s.txStage v).txRd = 0 := rfl
@[simp] theorem State.txStage_dpPhase (s : State) (v : Byte) : (s.txStage v).dpPhase = s.dpPhase := rfl
@[simp] theorem State.txStage_dpCmd (s : State) (v : Byte) : (s.txStage v).dpCmd = s.dpCmd := rfl
@[simp] theorem State.txStage_dpReply (s : State) (v : Byte) : (s.txStage v).dpReply = s.dpReply := rfl
@[simp] theorem State.txStage_soundEn (s : State) (v : Byte) : (s.txStage v).soundEn = s.soundEn := rfl
@[simp] theorem State.txStage_repeatEn (s : State) (v : Byte) : (s.txStage v).repeatEn = s.repeatEn := rfl
@[simp] theorem State.txStage_led (s : State) (v : Byte) : (s.txStage v).led = s.led := rfl
@[simp] theorem State.txStage_resetPhase (s : State) (v : Byte) : (s.txStage v).resetPhase = s.resetPhase := rfl
@[simp] theorem State.txStage_epoch (s : State) (v : Byte) : (s.txStage v).epoch = s.epoch := rfl
@[simp] theorem State.txStage_inbox (s : State) (v : Byte) : (s.txStage v).inbox = s.inbox := rfl
@[simp] theorem State.txStage_freeIdx (s : State) (v : Byte) : (s.txStage v).freeIdx = s.freeIdx := rfl
@[simp] theorem State.txStage_out (s : State) (v : Byte) : (s.txStage v).out = s.out := rfl

/-! ### `State.txNext` -/

@[simp] theorem State.txNext_par (s : State) : s.txNext.par = s.par := rfl
@[simp] theorem State.txNext_mem (s : State) : s.txNext.mem = s.mem := rfl
@[simp] theorem State.txNext_lastCode (s : State) : s.txNext.lastCode = s.lastCode := rfl
@[simp] theorem State.txNext_streak (s : State) : s.txNext.streak = s.streak := rfl
@[simp] theorem State.txNext_kqWr (s : State) : s.txNext.kqWr = s.kqWr := rfl
@[simp] theorem State.txNext_kqRd (s : State) : s.txNext.kqRd = s.kqRd := rfl
@[simp] theorem State.txNext_kqRdT (s : State) : s.txNext.kqRdT = s.kqRdT := rfl
@[simp] theorem State.txNext_kqWrB (s : State) : s.txNext.kqWrB = s.kqWrB := rfl
@[simp] theorem State.txNext_curCodeB (s : State) : s.txNext.curCodeB = s.curCodeB := rfl
@[simp] theorem State.txNext_soundEnT (s : State) : s.txNext.soundEnT = s.soundEnT := rfl
@[simp] theorem State.txNext_repeatEnT (s : State) : s.txNext.repeatEnT = s.repeatEnT := rfl
@[simp] theorem State.txNext_ovfReq (s : State) : s.txNext.ovfReq = s.ovfReq := rfl
@[simp] theorem State.txNext_ovfAck (s : State) : s.txNext.ovfAck = s.ovfAck := rfl
@[simp] theorem State.txNext_ovfReqB (s : State) : s.txNext.ovfReqB = s.ovfReqB := rfl
@[simp] theorem State.txNext_ovfAckT (s : State) : s.txNext.ovfAckT = s.ovfAckT := rfl
@[simp] theorem State.txNext_busy (s : State) : s.txNext.busy = true := rfl
@[simp] theorem State.txNext_rxWr (s : State) : s.txNext.rxWr = s.rxWr := rfl
@[simp] theorem State.txNext_rxRd (s : State) : s.txNext.rxRd = s.rxRd := rfl
@[simp] theorem State.txNext_rxFull (s : State) : s.txNext.rxFull = s.rxFull := rfl
@[simp] theorem State.txNext_rxOvf (s : State) : s.txNext.rxOvf = s.rxOvf := rfl
@[simp] theorem State.txNext_txWr (s : State) : s.txNext.txWr = s.txWr := rfl
@[simp] theorem State.txNext_txRd (s : State) : s.txNext.txRd = s.txRd + 1 := rfl
@[simp] theorem State.txNext_dpPhase (s : State) : s.txNext.dpPhase = s.dpPhase := rfl
@[simp] theorem State.txNext_dpCmd (s : State) : s.txNext.dpCmd = s.dpCmd := rfl
@[simp] theorem State.txNext_dpReply (s : State) : s.txNext.dpReply = s.dpReply := rfl
@[simp] theorem State.txNext_soundEn (s : State) : s.txNext.soundEn = s.soundEn := rfl
@[simp] theorem State.txNext_repeatEn (s : State) : s.txNext.repeatEn = s.repeatEn := rfl
@[simp] theorem State.txNext_led (s : State) : s.txNext.led = s.led := rfl
@[simp] theorem State.txNext_resetPhase (s : State) : s.txNext.resetPhase = s.resetPhase := rfl
@[simp] theorem State.txNext_epoch (s : State) : s.txNext.epoch = s.epoch := rfl
@[simp] theorem State.txNext_inbox (s : State) : s.txNext.inbox = s.inbox := rfl
@[simp] theorem State.txNext_freeIdx (s : State) : s.txNext.freeIdx = s.freeIdx := rfl
@[simp] theorem State.txNext_out (s : State) :
    s.txNext.out = { s.out with action := some (.send (s.readCell .tx s.txRd.toNat)) } := rfl

/-! ### `State.nvmWrite` -/

@[simp] theorem State.nvmWrite_par (s : State) (slot : Nat) (v : Byte) : (s.nvmWrite slot v).par = s.par := rfl
@[simp] theorem State.nvmWrite_mem (s : State) (slot : Nat) (v : Byte) :
    (s.nvmWrite slot v).mem = s.mem.write .nvm slot v := rfl
@[simp] theorem State.nvmWrite_lastCode (s : State) (slot : Nat) (v : Byte) :
    (s.nvmWrite slot v).lastCode = s.lastCode := rfl
@[simp] theorem State.nvmWrite_streak (s : State) (slot : Nat) (v : Byte) :
    (s.nvmWrite slot v).streak = s.streak := rfl
@[simp] theorem State.nvmWrite_kqWr (s : State) (slot : Nat) (v : Byte) : (s.nvmWrite slot v).kqWr = s.kqWr := rfl
@[simp] theorem State.nvmWrite_kqRd (s : State) (slot : Nat) (v : Byte) : (s.nvmWrite slot v).kqRd = s.kqRd := rfl
@[simp] theorem State.nvmWrite_kqRdT (s : State) (slot : Nat) (v : Byte) : (s.nvmWrite slot v).kqRdT = s.kqRdT := rfl
@[simp] theorem State.nvmWrite_kqWrB (s : State) (slot : Nat) (v : Byte) : (s.nvmWrite slot v).kqWrB = s.kqWrB := rfl
@[simp] theorem State.nvmWrite_curCodeB (s : State) (slot : Nat) (v : Byte) :
    (s.nvmWrite slot v).curCodeB = s.curCodeB := rfl
@[simp] theorem State.nvmWrite_soundEnT (s : State) (slot : Nat) (v : Byte) :
    (s.nvmWrite slot v).soundEnT = s.soundEnT := rfl
@[simp] theorem State.nvmWrite_repeatEnT (s : State) (slot : Nat) (v : Byte) :
    (s.nvmWrite slot v).repeatEnT = s.repeatEnT := rfl
@[simp] theorem State.nvmWrite_ovfReq (s : State) (slot : Nat) (v : Byte) :
    (s.nvmWrite slot v).ovfReq = s.ovfReq := rfl
@[simp] theorem State.nvmWrite_ovfAck (s : State) (slot : Nat) (v : Byte) :
    (s.nvmWrite slot v).ovfAck = s.ovfAck := rfl
@[simp] theorem State.nvmWrite_ovfReqB (s : State) (slot : Nat) (v : Byte) :
    (s.nvmWrite slot v).ovfReqB = s.ovfReqB := rfl
@[simp] theorem State.nvmWrite_ovfAckT (s : State) (slot : Nat) (v : Byte) :
    (s.nvmWrite slot v).ovfAckT = s.ovfAckT := rfl
@[simp] theorem State.nvmWrite_busy (s : State) (slot : Nat) (v : Byte) : (s.nvmWrite slot v).busy = s.busy := rfl
@[simp] theorem State.nvmWrite_rxWr (s : State) (slot : Nat) (v : Byte) : (s.nvmWrite slot v).rxWr = s.rxWr := rfl
@[simp] theorem State.nvmWrite_rxRd (s : State) (slot : Nat) (v : Byte) : (s.nvmWrite slot v).rxRd = s.rxRd := rfl
@[simp] theorem State.nvmWrite_rxFull (s : State) (slot : Nat) (v : Byte) :
    (s.nvmWrite slot v).rxFull = s.rxFull := rfl
@[simp] theorem State.nvmWrite_rxOvf (s : State) (slot : Nat) (v : Byte) : (s.nvmWrite slot v).rxOvf = s.rxOvf := rfl
@[simp] theorem State.nvmWrite_txWr (s : State) (slot : Nat) (v : Byte) : (s.nvmWrite slot v).txWr = s.txWr := rfl
@[simp] theorem State.nvmWrite_txRd (s : State) (slot : Nat) (v : Byte) : (s.nvmWrite slot v).txRd = s.txRd := rfl
@[simp] theorem State.nvmWrite_dpPhase (s : State) (slot : Nat) (v : Byte) :
    (s.nvmWrite slot v).dpPhase = s.dpPhase := rfl
@[simp] theorem State.nvmWrite_dpCmd (s : State) (slot : Nat) (v : Byte) : (s.nvmWrite slot v).dpCmd = s.dpCmd := rfl
@[simp] theorem State.nvmWrite_dpReply (s : State) (slot : Nat) (v : Byte) :
    (s.nvmWrite slot v).dpReply = s.dpReply := rfl
@[simp] theorem State.nvmWrite_soundEn (s : State) (slot : Nat) (v : Byte) :
    (s.nvmWrite slot v).soundEn = s.soundEn := rfl
@[simp] theorem State.nvmWrite_repeatEn (s : State) (slot : Nat) (v : Byte) :
    (s.nvmWrite slot v).repeatEn = s.repeatEn := rfl
@[simp] theorem State.nvmWrite_led (s : State) (slot : Nat) (v : Byte) : (s.nvmWrite slot v).led = s.led := rfl
@[simp] theorem State.nvmWrite_resetPhase (s : State) (slot : Nat) (v : Byte) :
    (s.nvmWrite slot v).resetPhase = s.resetPhase := rfl
@[simp] theorem State.nvmWrite_epoch (s : State) (slot : Nat) (v : Byte) : (s.nvmWrite slot v).epoch = s.epoch := rfl
@[simp] theorem State.nvmWrite_inbox (s : State) (slot : Nat) (v : Byte) : (s.nvmWrite slot v).inbox = s.inbox := rfl
@[simp] theorem State.nvmWrite_freeIdx (s : State) (slot : Nat) (v : Byte) :
    (s.nvmWrite slot v).freeIdx = s.freeIdx := rfl
@[simp] theorem State.nvmWrite_out (s : State) (slot : Nat) (v : Byte) :
    (s.nvmWrite slot v).out = { s.out with nvmStore := some (slot, v) } := rfl

/-! ### `State.syncCfg` -/

@[simp] theorem State.syncCfg_par (s : State) : s.syncCfg.par = s.par := rfl
@[simp] theorem State.syncCfg_mem (s : State) : s.syncCfg.mem = s.mem := rfl
@[simp] theorem State.syncCfg_lastCode (s : State) : s.syncCfg.lastCode = s.lastCode := rfl
@[simp] theorem State.syncCfg_streak (s : State) : s.syncCfg.streak = s.streak := rfl
@[simp] theorem State.syncCfg_kqWr (s : State) : s.syncCfg.kqWr = s.kqWr := rfl
@[simp] theorem State.syncCfg_kqRd (s : State) : s.syncCfg.kqRd = s.kqRd := rfl
@[simp] theorem State.syncCfg_kqRdT (s : State) : s.syncCfg.kqRdT = s.kqRdT := rfl
@[simp] theorem State.syncCfg_kqWrB (s : State) : s.syncCfg.kqWrB = s.kqWrB := rfl
@[simp] theorem State.syncCfg_curCodeB (s : State) : s.syncCfg.curCodeB = s.curCodeB := rfl
@[simp] theorem State.syncCfg_soundEnT (s : State) : s.syncCfg.soundEnT = nonZero s.soundEn := rfl
@[simp] theorem State.syncCfg_repeatEnT (s : State) : s.syncCfg.repeatEnT = nonZero s.repeatEn := rfl
@[simp] theorem State.syncCfg_ovfReq (s : State) : s.syncCfg.ovfReq = s.ovfReq := rfl
@[simp] theorem State.syncCfg_ovfAck (s : State) : s.syncCfg.ovfAck = s.ovfAck := rfl
@[simp] theorem State.syncCfg_ovfReqB (s : State) : s.syncCfg.ovfReqB = s.ovfReqB := rfl
@[simp] theorem State.syncCfg_ovfAckT (s : State) : s.syncCfg.ovfAckT = s.ovfAckT := rfl
@[simp] theorem State.syncCfg_busy (s : State) : s.syncCfg.busy = s.busy := rfl
@[simp] theorem State.syncCfg_rxWr (s : State) : s.syncCfg.rxWr = s.rxWr := rfl
@[simp] theorem State.syncCfg_rxRd (s : State) : s.syncCfg.rxRd = s.rxRd := rfl
@[simp] theorem State.syncCfg_rxFull (s : State) : s.syncCfg.rxFull = s.rxFull := rfl
@[simp] theorem State.syncCfg_rxOvf (s : State) : s.syncCfg.rxOvf = s.rxOvf := rfl
@[simp] theorem State.syncCfg_txWr (s : State) : s.syncCfg.txWr = s.txWr := rfl
@[simp] theorem State.syncCfg_txRd (s : State) : s.syncCfg.txRd = s.txRd := rfl
@[simp] theorem State.syncCfg_dpPhase (s : State) : s.syncCfg.dpPhase = s.dpPhase := rfl
@[simp] theorem State.syncCfg_dpCmd (s : State) : s.syncCfg.dpCmd = s.dpCmd := rfl
@[simp] theorem State.syncCfg_dpReply (s : State) : s.syncCfg.dpReply = s.dpReply := rfl
@[simp] theorem State.syncCfg_soundEn (s : State) : s.syncCfg.soundEn = s.soundEn := rfl
@[simp] theorem State.syncCfg_repeatEn (s : State) : s.syncCfg.repeatEn = s.repeatEn := rfl
@[simp] theorem State.syncCfg_led (s : State) : s.syncCfg.led = s.led := rfl
@[simp] theorem State.syncCfg_resetPhase (s : State) : s.syncCfg.resetPhase = s.resetPhase := rfl
@[simp] theorem State.syncCfg_epoch (s : State) : s.syncCfg.epoch = s.epoch := rfl
@[simp] theorem State.syncCfg_inbox (s : State) : s.syncCfg.inbox = s.inbox := rfl
@[simp] theorem State.syncCfg_freeIdx (s : State) : s.syncCfg.freeIdx = s.freeIdx := rfl
@[simp] theorem State.syncCfg_out (s : State) : s.syncCfg.out = s.out := rfl

/-! ### `State.raise` -/

@[simp] theorem State.raise_par (s : State) (e : ErrorCondition) :
    (s.raise e).par = s.par := by cases e <;> simp [State.raise, apply_ite]
@[simp] theorem State.raise_mem (s : State) (e : ErrorCondition) :
    (s.raise e).mem = s.mem := by cases e <;> simp [State.raise, apply_ite]
@[simp] theorem State.raise_lastCode (s : State) (e : ErrorCondition) :
    (s.raise e).lastCode = s.lastCode := by cases e <;> simp [State.raise, apply_ite]
@[simp] theorem State.raise_streak (s : State) (e : ErrorCondition) :
    (s.raise e).streak = s.streak := by cases e <;> simp [State.raise, apply_ite]
@[simp] theorem State.raise_kqWr (s : State) (e : ErrorCondition) :
    (s.raise e).kqWr = s.kqWr := by cases e <;> simp [State.raise, apply_ite]
@[simp] theorem State.raise_kqRd (s : State) (e : ErrorCondition) :
    (s.raise e).kqRd = s.kqRd := by cases e <;> simp [State.raise, apply_ite]
@[simp] theorem State.raise_kqRdT (s : State) (e : ErrorCondition) :
    (s.raise e).kqRdT = s.kqRdT := by cases e <;> simp [State.raise, apply_ite]
@[simp] theorem State.raise_kqWrB (s : State) (e : ErrorCondition) :
    (s.raise e).kqWrB = s.kqWrB := by cases e <;> simp [State.raise, apply_ite]
@[simp] theorem State.raise_curCodeB (s : State) (e : ErrorCondition) :
    (s.raise e).curCodeB = s.curCodeB := by cases e <;> simp [State.raise, apply_ite]
@[simp] theorem State.raise_soundEnT (s : State) (e : ErrorCondition) :
    (s.raise e).soundEnT = s.soundEnT := by cases e <;> simp [State.raise, apply_ite]
@[simp] theorem State.raise_repeatEnT (s : State) (e : ErrorCondition) :
    (s.raise e).repeatEnT = s.repeatEnT := by cases e <;> simp [State.raise, apply_ite]
@[simp] theorem State.raise_ovfAck (s : State) (e : ErrorCondition) :
    (s.raise e).ovfAck = s.ovfAck := by cases e <;> simp [State.raise, apply_ite]
@[simp] theorem State.raise_ovfReqB (s : State) (e : ErrorCondition) :
    (s.raise e).ovfReqB = s.ovfReqB := by cases e <;> simp [State.raise, apply_ite]
@[simp] theorem State.raise_ovfAckT (s : State) (e : ErrorCondition) :
    (s.raise e).ovfAckT = s.ovfAckT := by cases e <;> simp [State.raise, apply_ite]
@[simp] theorem State.raise_busy (s : State) (e : ErrorCondition) :
    (s.raise e).busy = s.busy := by cases e <;> simp [State.raise, apply_ite]
@[simp] theorem State.raise_rxWr (s : State) (e : ErrorCondition) :
    (s.raise e).rxWr = s.rxWr := by cases e <;> simp [State.raise, apply_ite]
@[simp] theorem State.raise_rxRd (s : State) (e : ErrorCondition) :
    (s.raise e).rxRd = s.rxRd := by cases e <;> simp [State.raise, apply_ite]
@[simp] theorem State.raise_rxFull (s : State) (e : ErrorCondition) :
    (s.raise e).rxFull = s.rxFull := by cases e <;> simp [State.raise, apply_ite]
@[simp] theorem State.raise_txWr (s : State) (e : ErrorCondition) :
    (s.raise e).txWr = s.txWr := by cases e <;> simp [State.raise, apply_ite]
@[simp] theorem State.raise_txRd (s : State) (e : ErrorCondition) :
    (s.raise e).txRd = s.txRd := by cases e <;> simp [State.raise, apply_ite]
@[simp] theorem State.raise_dpPhase (s : State) (e : ErrorCondition) :
    (s.raise e).dpPhase = s.dpPhase := by cases e <;> simp [State.raise, apply_ite]
@[simp] theorem State.raise_dpCmd (s : State) (e : ErrorCondition) :
    (s.raise e).dpCmd = s.dpCmd := by cases e <;> simp [State.raise, apply_ite]
@[simp] theorem State.raise_dpReply (s : State) (e : ErrorCondition) :
    (s.raise e).dpReply = s.dpReply := by cases e <;> simp [State.raise, apply_ite]
@[simp] theorem State.raise_soundEn (s : State) (e : ErrorCondition) :
    (s.raise e).soundEn = s.soundEn := by cases e <;> simp [State.raise, apply_ite]
@[simp] theorem State.raise_repeatEn (s : State) (e : ErrorCondition) :
    (s.raise e).repeatEn = s.repeatEn := by cases e <;> simp [State.raise, apply_ite]
@[simp] theorem State.raise_led (s : State) (e : ErrorCondition) :
    (s.raise e).led = s.led := by cases e <;> simp [State.raise, apply_ite]
@[simp] theorem State.raise_resetPhase (s : State) (e : ErrorCondition) :
    (s.raise e).resetPhase = s.resetPhase := by cases e <;> simp [State.raise, apply_ite]
@[simp] theorem State.raise_epoch (s : State) (e : ErrorCondition) :
    (s.raise e).epoch = s.epoch := by cases e <;> simp [State.raise, apply_ite]
@[simp] theorem State.raise_inbox (s : State) (e : ErrorCondition) :
    (s.raise e).inbox = s.inbox := by cases e <;> simp [State.raise, apply_ite]
@[simp] theorem State.raise_freeIdx (s : State) (e : ErrorCondition) :
    (s.raise e).freeIdx = s.freeIdx := by cases e <;> simp [State.raise, apply_ite]

/-! ### `State.kqPush` -/

@[simp] theorem State.kqPush_par (s : State) (k : Byte) :
    (s.kqPush k).par = s.par := by simp [State.kqPush, State.raise, apply_ite]
@[simp] theorem State.kqPush_lastCode (s : State) (k : Byte) :
    (s.kqPush k).lastCode = s.lastCode := by simp [State.kqPush, State.raise, apply_ite]
@[simp] theorem State.kqPush_streak (s : State) (k : Byte) :
    (s.kqPush k).streak = s.streak := by simp [State.kqPush, State.raise, apply_ite]
@[simp] theorem State.kqPush_kqRd (s : State) (k : Byte) :
    (s.kqPush k).kqRd = s.kqRd := by simp [State.kqPush, State.raise, apply_ite]
@[simp] theorem State.kqPush_kqRdT (s : State) (k : Byte) :
    (s.kqPush k).kqRdT = s.kqRdT := by simp [State.kqPush, State.raise, apply_ite]
@[simp] theorem State.kqPush_kqWrB (s : State) (k : Byte) :
    (s.kqPush k).kqWrB = s.kqWrB := by simp [State.kqPush, State.raise, apply_ite]
@[simp] theorem State.kqPush_curCodeB (s : State) (k : Byte) :
    (s.kqPush k).curCodeB = s.curCodeB := by simp [State.kqPush, State.raise, apply_ite]
@[simp] theorem State.kqPush_soundEnT (s : State) (k : Byte) :
    (s.kqPush k).soundEnT = s.soundEnT := by simp [State.kqPush, State.raise, apply_ite]
@[simp] theorem State.kqPush_repeatEnT (s : State) (k : Byte) :
    (s.kqPush k).repeatEnT = s.repeatEnT := by simp [State.kqPush, State.raise, apply_ite]
@[simp] theorem State.kqPush_ovfAck (s : State) (k : Byte) :
    (s.kqPush k).ovfAck = s.ovfAck := by simp [State.kqPush, State.raise, apply_ite]
@[simp] theorem State.kqPush_ovfReqB (s : State) (k : Byte) :
    (s.kqPush k).ovfReqB = s.ovfReqB := by simp [State.kqPush, State.raise, apply_ite]
@[simp] theorem State.kqPush_ovfAckT (s : State) (k : Byte) :
    (s.kqPush k).ovfAckT = s.ovfAckT := by simp [State.kqPush, State.raise, apply_ite]
@[simp] theorem State.kqPush_busy (s : State) (k : Byte) :
    (s.kqPush k).busy = s.busy := by simp [State.kqPush, State.raise, apply_ite]
@[simp] theorem State.kqPush_rxWr (s : State) (k : Byte) :
    (s.kqPush k).rxWr = s.rxWr := by simp [State.kqPush, State.raise, apply_ite]
@[simp] theorem State.kqPush_rxRd (s : State) (k : Byte) :
    (s.kqPush k).rxRd = s.rxRd := by simp [State.kqPush, State.raise, apply_ite]
@[simp] theorem State.kqPush_rxFull (s : State) (k : Byte) :
    (s.kqPush k).rxFull = s.rxFull := by simp [State.kqPush, State.raise, apply_ite]
@[simp] theorem State.kqPush_rxOvf (s : State) (k : Byte) :
    (s.kqPush k).rxOvf = s.rxOvf := by simp [State.kqPush, State.raise, apply_ite]
@[simp] theorem State.kqPush_txWr (s : State) (k : Byte) :
    (s.kqPush k).txWr = s.txWr := by simp [State.kqPush, State.raise, apply_ite]
@[simp] theorem State.kqPush_txRd (s : State) (k : Byte) :
    (s.kqPush k).txRd = s.txRd := by simp [State.kqPush, State.raise, apply_ite]
@[simp] theorem State.kqPush_dpPhase (s : State) (k : Byte) :
    (s.kqPush k).dpPhase = s.dpPhase := by simp [State.kqPush, State.raise, apply_ite]
@[simp] theorem State.kqPush_dpCmd (s : State) (k : Byte) :
    (s.kqPush k).dpCmd = s.dpCmd := by simp [State.kqPush, State.raise, apply_ite]
@[simp] theorem State.kqPush_dpReply (s : State) (k : Byte) :
    (s.kqPush k).dpReply = s.dpReply := by simp [State.kqPush, State.raise, apply_ite]
@[simp] theorem State.kqPush_soundEn (s : State) (k : Byte) :
    (s.kqPush k).soundEn = s.soundEn := by simp [State.kqPush, State.raise, apply_ite]
@[simp] theorem State.kqPush_repeatEn (s : State) (k : Byte) :
    (s.kqPush k).repeatEn = s.repeatEn := by simp [State.kqPush, State.raise, apply_ite]
@[simp] theorem State.kqPush_led (s : State) (k : Byte) :
    (s.kqPush k).led = s.led := by simp [State.kqPush, State.raise, apply_ite]
@[simp] theorem State.kqPush_resetPhase (s : State) (k : Byte) :
    (s.kqPush k).resetPhase = s.resetPhase := by simp [State.kqPush, State.raise, apply_ite]
@[simp] theorem State.kqPush_epoch (s : State) (k : Byte) :
    (s.kqPush k).epoch = s.epoch := by simp [State.kqPush, State.raise, apply_ite]
@[simp] theorem State.kqPush_inbox (s : State) (k : Byte) :
    (s.kqPush k).inbox = s.inbox := by simp [State.kqPush, State.raise, apply_ite]
@[simp] theorem State.kqPush_freeIdx (s : State) (k : Byte) :
    (s.kqPush k).freeIdx = s.freeIdx := by simp [State.kqPush, State.raise, apply_ite]

/-! ### `State.emit` -/

@[simp] theorem State.emit_par (s : State) (k : Byte) : (s.emit k).par = s.par := State.kqPush_par _ k
@[simp] theorem State.emit_lastCode (s : State) (k : Byte) :
    (s.emit k).lastCode = s.lastCode := State.kqPush_lastCode _ k
@[simp] theorem State.emit_streak (s : State) (k : Byte) : (s.emit k).streak = s.streak := State.kqPush_streak _ k
@[simp] theorem State.emit_kqRd (s : State) (k : Byte) : (s.emit k).kqRd = s.kqRd := State.kqPush_kqRd _ k
@[simp] theorem State.emit_kqRdT (s : State) (k : Byte) : (s.emit k).kqRdT = s.kqRdT := State.kqPush_kqRdT _ k
@[simp] theorem State.emit_kqWrB (s : State) (k : Byte) : (s.emit k).kqWrB = s.kqWrB := State.kqPush_kqWrB _ k
@[simp] theorem State.emit_curCodeB (s : State) (k : Byte) :
    (s.emit k).curCodeB = s.curCodeB := State.kqPush_curCodeB _ k
@[simp] theorem State.emit_soundEnT (s : State) (k : Byte) :
    (s.emit k).soundEnT = s.soundEnT := State.kqPush_soundEnT _ k
@[simp] theorem State.emit_repeatEnT (s : State) (k : Byte) :
    (s.emit k).repeatEnT = s.repeatEnT := State.kqPush_repeatEnT _ k
@[simp] theorem State.emit_ovfAck (s : State) (k : Byte) : (s.emit k).ovfAck = s.ovfAck := State.kqPush_ovfAck _ k
@[simp] theorem State.emit_ovfReqB (s : State) (k : Byte) : (s.emit k).ovfReqB = s.ovfReqB := State.kqPush_ovfReqB _ k
@[simp] theorem State.emit_ovfAckT (s : State) (k : Byte) : (s.emit k).ovfAckT = s.ovfAckT := State.kqPush_ovfAckT _ k
@[simp] theorem State.emit_busy (s : State) (k : Byte) : (s.emit k).busy = s.busy := State.kqPush_busy _ k
@[simp] theorem State.emit_rxWr (s : State) (k : Byte) : (s.emit k).rxWr = s.rxWr := State.kqPush_rxWr _ k
@[simp] theorem State.emit_rxRd (s : State) (k : Byte) : (s.emit k).rxRd = s.rxRd := State.kqPush_rxRd _ k
@[simp] theorem State.emit_rxFull (s : State) (k : Byte) : (s.emit k).rxFull = s.rxFull := State.kqPush_rxFull _ k
@[simp] theorem State.emit_rxOvf (s : State) (k : Byte) : (s.emit k).rxOvf = s.rxOvf := State.kqPush_rxOvf _ k
@[simp] theorem State.emit_txWr (s : State) (k : Byte) : (s.emit k).txWr = s.txWr := State.kqPush_txWr _ k
@[simp] theorem State.emit_txRd (s : State) (k : Byte) : (s.emit k).txRd = s.txRd := State.kqPush_txRd _ k
@[simp] theorem State.emit_dpPhase (s : State) (k : Byte) : (s.emit k).dpPhase = s.dpPhase := State.kqPush_dpPhase _ k
@[simp] theorem State.emit_dpCmd (s : State) (k : Byte) : (s.emit k).dpCmd = s.dpCmd := State.kqPush_dpCmd _ k
@[simp] theorem State.emit_dpReply (s : State) (k : Byte) : (s.emit k).dpReply = s.dpReply := State.kqPush_dpReply _ k
@[simp] theorem State.emit_soundEn (s : State) (k : Byte) : (s.emit k).soundEn = s.soundEn := State.kqPush_soundEn _ k
@[simp] theorem State.emit_repeatEn (s : State) (k : Byte) :
    (s.emit k).repeatEn = s.repeatEn := State.kqPush_repeatEn _ k
@[simp] theorem State.emit_led (s : State) (k : Byte) : (s.emit k).led = s.led := State.kqPush_led _ k
@[simp] theorem State.emit_resetPhase (s : State) (k : Byte) :
    (s.emit k).resetPhase = s.resetPhase := State.kqPush_resetPhase _ k
@[simp] theorem State.emit_epoch (s : State) (k : Byte) : (s.emit k).epoch = s.epoch := State.kqPush_epoch _ k
@[simp] theorem State.emit_inbox (s : State) (k : Byte) : (s.emit k).inbox = s.inbox := State.kqPush_inbox _ k
@[simp] theorem State.emit_freeIdx (s : State) (k : Byte) : (s.emit k).freeIdx = s.freeIdx := State.kqPush_freeIdx _ k

/-! ### `State.popLine` -/

@[simp] theorem State.popLine_par (s : State) : s.popLine.par = s.par := by unfold State.popLine; split <;> rfl
@[simp] theorem State.popLine_mem (s : State) : s.popLine.mem = s.mem := by unfold State.popLine; split <;> rfl
@[simp] theorem State.popLine_lastCode (s : State) :
    s.popLine.lastCode = s.lastCode := by unfold State.popLine; split <;> rfl
@[simp] theorem State.popLine_streak (s : State) :
    s.popLine.streak = s.streak := by unfold State.popLine; split <;> rfl
@[simp] theorem State.popLine_kqWr (s : State) : s.popLine.kqWr = s.kqWr := by unfold State.popLine; split <;> rfl
@[simp] theorem State.popLine_kqRd (s : State) : s.popLine.kqRd = s.kqRd := by unfold State.popLine; split <;> rfl
@[simp] theorem State.popLine_kqRdT (s : State) : s.popLine.kqRdT = s.kqRdT := by unfold State.popLine; split <;> rfl
@[simp] theorem State.popLine_kqWrB (s : State) : s.popLine.kqWrB = s.kqWrB := by unfold State.popLine; split <;> rfl
@[simp] theorem State.popLine_curCodeB (s : State) :
    s.popLine.curCodeB = s.curCodeB := by unfold State.popLine; split <;> rfl
@[simp] theorem State.popLine_soundEnT (s : State) :
    s.popLine.soundEnT = s.soundEnT := by unfold State.popLine; split <;> rfl
@[simp] theorem State.popLine_repeatEnT (s : State) :
    s.popLine.repeatEnT = s.repeatEnT := by unfold State.popLine; split <;> rfl
@[simp] theorem State.popLine_ovfReq (s : State) :
    s.popLine.ovfReq = s.ovfReq := by unfold State.popLine; split <;> rfl
@[simp] theorem State.popLine_ovfAck (s : State) :
    s.popLine.ovfAck = s.ovfAck := by unfold State.popLine; split <;> rfl
@[simp] theorem State.popLine_ovfReqB (s : State) :
    s.popLine.ovfReqB = s.ovfReqB := by unfold State.popLine; split <;> rfl
@[simp] theorem State.popLine_ovfAckT (s : State) :
    s.popLine.ovfAckT = s.ovfAckT := by unfold State.popLine; split <;> rfl
@[simp] theorem State.popLine_busy (s : State) : s.popLine.busy = s.busy := by unfold State.popLine; split <;> rfl
@[simp] theorem State.popLine_rxWr (s : State) : s.popLine.rxWr = s.rxWr := by unfold State.popLine; split <;> rfl
@[simp] theorem State.popLine_rxRd (s : State) : s.popLine.rxRd = s.rxRd := by unfold State.popLine; split <;> rfl
@[simp] theorem State.popLine_rxFull (s : State) :
    s.popLine.rxFull = s.rxFull := by unfold State.popLine; split <;> rfl
@[simp] theorem State.popLine_rxOvf (s : State) : s.popLine.rxOvf = s.rxOvf := by unfold State.popLine; split <;> rfl
@[simp] theorem State.popLine_txWr (s : State) : s.popLine.txWr = s.txWr := by unfold State.popLine; split <;> rfl
@[simp] theorem State.popLine_txRd (s : State) : s.popLine.txRd = s.txRd := by unfold State.popLine; split <;> rfl
@[simp] theorem State.popLine_dpPhase (s : State) :
    s.popLine.dpPhase = s.dpPhase := by unfold State.popLine; split <;> rfl
@[simp] theorem State.popLine_dpCmd (s : State) : s.popLine.dpCmd = s.dpCmd := by unfold State.popLine; split <;> rfl
@[simp] theorem State.popLine_dpReply (s : State) :
    s.popLine.dpReply = s.dpReply := by unfold State.popLine; split <;> rfl
@[simp] theorem State.popLine_soundEn (s : State) :
    s.popLine.soundEn = s.soundEn := by unfold State.popLine; split <;> rfl
@[simp] theorem State.popLine_repeatEn (s : State) :
    s.popLine.repeatEn = s.repeatEn := by unfold State.popLine; split <;> rfl
@[simp] theorem State.popLine_led (s : State) : s.popLine.led = s.led := by unfold State.popLine; split <;> rfl
@[simp] theorem State.popLine_resetPhase (s : State) :
    s.popLine.resetPhase = s.resetPhase := by unfold State.popLine; split <;> rfl
@[simp] theorem State.popLine_epoch (s : State) : s.popLine.epoch = s.epoch := by unfold State.popLine; split <;> rfl
@[simp] theorem State.popLine_out (s : State) : s.popLine.out = s.out := by unfold State.popLine; split <;> rfl

/-- Taking a line leaves everything but the list of lines and the count of free lines. -/
theorem State.popLine_eq (s : State) :
    s.popLine = { s with inbox := s.popLine.inbox, freeIdx := s.popLine.freeIdx } := by
  unfold State.popLine; split <;> rfl

/-- With a line listed, the next line is that one and taking it leaves the rest. -/
theorem State.popLine_of_inbox {s : State} {l : Line} {rest : List Line} (h : s.inbox = l :: rest) :
    s.nextLine = l ∧ s.popLine = { s with inbox := rest } := by
  simp [State.nextLine, State.popLine, h]

end Sys2Proof.Machine
end

