-- ==== Sys2Proof/Laws/Ops.lean ====
section
/-! SUPPORT. One lemma per shared operation that says once everything it can do. -/

namespace Sys2Proof.Machine

/-! ### Error conditions and pushes -/

/-- Raising a condition changes the trace, and `rx_ovf` or `ovf_req` where R131 says so, and nothing else. -/
theorem State.raise_eq (s : State) (e : ErrorCondition) :
    s.raise e =
      { s with
        out := { s.out with raised := some e }
        rxOvf := match e with | .rxOvf _ => true | _ => s.rxOvf
        ovfReq := match e with
          | .kqOvf _ => if s.soundEnT && s.ovfReq == s.ovfAckT then !s.ovfReq else s.ovfReq
          | _ => s.ovfReq } := by
  cases e <;> simp only [State.raise]
  split <;> simp_all

/-- `KQ_PUSH` drops the event when the producer sees the FIFO full, and stores it otherwise. -/
theorem State.kqPush_cases (s : State) (k : Byte) :
    (s.kqWr + 1 = s.kqRdT ∧ s.kqPush k = s.raise (.kqOvf k)) ∨
      (s.kqWr + 1 ≠ s.kqRdT ∧ s.kqPush k = { s.writeCell .kq s.kqWr.toNat k with kqWr := s.kqWr + 1 }) := by
  unfold State.kqPush
  split
  · exact Or.inl ⟨by assumption, rfl⟩
  · exact Or.inr ⟨by assumption, rfl⟩

/-- `EMIT` is a push after the click and the trace are set. -/
theorem State.emit_eq (s : State) (k : Byte) :
    s.emit k = ({ s with out := { s.out with emitted := some k, click := s.soundEnT || s.out.click } } : State).kqPush k :=
  rfl

/-- `KQ_POP0` answers 0 and changes nothing on an empty view, and takes the oldest event otherwise. -/
theorem State.kqPop0_cases (s : State) :
    (s.kqRd = s.kqWrB ∧ s.kqPop0 = (0, s)) ∨
      (s.kqRd ≠ s.kqWrB ∧ s.kqPop0 = (s.readCell .kq s.kqRd.toNat, { s with kqRd := s.kqRd + 1 })) := by
  unfold State.kqPop0
  split
  · exact Or.inl ⟨by assumption, rfl⟩
  · exact Or.inr ⟨by assumption, rfl⟩

/-- If `RX_PUSH` answers a next state, the byte was dropped by a full buffer or stored at an index that exists. -/
theorem State.rxPush_next {s t : State} {d : Byte} (h : s.rxPush d = .next t) :
    (s.rxFull = true ∧ t = (s.raise (.rxOvf d)).drive .armRx) ∨
      (s.rxFull = false ∧ s.rxWr < s.par.cR ∧ t = (s.rxStore d).drive .armRx) := by
  unfold State.rxPush at h
  split at h
  · rename_i hf
    cases h
    exact Or.inl ⟨hf, rfl⟩
  · rename_i hf
    split at h
    · rename_i hw
      cases h
      exact Or.inr ⟨by simpa using hf, hw, rfl⟩
    · cases h

/-- `RX_PUSH` completes whenever the buffer is full or its write index exists. -/
theorem State.rxPush_completes {s : State} (d : Byte) (h : s.rxWr < s.par.cR) : ∃ t, s.rxPush d = .next t := by
  unfold State.rxPush
  split <;> exact ⟨_, rfl⟩

/-! ### The dispatcher's steps -/

/-- If `D_FETCH` answers a next state, it was not enabled and nothing happened, or the command's effect happened on
the state with one byte popped. -/
theorem State.fetchStep_next {s t : State} {effect : State → State} (h : s.fetchStep effect = .next t) :
    (s.fetchEnabled = false ∧ t = s.quiet) ∨
      (s.fetchEnabled = true ∧ s.rxRd < s.par.cR ∧ t = effect s.quiet.rxAdvance) := by
  unfold State.fetchStep at h
  split at h
  · rename_i he
    split at h
    · rename_i hr
      cases h
      exact Or.inr ⟨he, hr, rfl⟩
    · cases h
  · rename_i he
    cases h
    exact Or.inl ⟨by simpa using he, rfl⟩

/-- `D_FETCH`, enabled on an index that exists, completes with the command's effect. -/
theorem State.fetchStep_enabled {s : State} {effect : State → State} (he : s.fetchEnabled = true)
    (hr : s.rxRd < s.par.cR) : s.fetchStep effect = .next (effect s.quiet.rxAdvance) := by
  simp [State.fetchStep, he, hr]

/-- If `D_ARG` answers a next state, it was not enabled and nothing happened, or the argument's effect happened on the
state with one byte popped and the dispatcher is idle. -/
theorem State.argStep_next {s t : State} {effect : State → State} (h : s.argStep effect = .next t) :
    (s.argEnabled = false ∧ t = s.quiet) ∨
      (s.argEnabled = true ∧ s.rxRd < s.par.cR ∧ t = { effect s.quiet.rxAdvance with dpPhase := dpIdle }) := by
  unfold State.argStep at h
  split at h
  · rename_i he
    split at h
    · rename_i hr
      cases h
      exact Or.inr ⟨he, hr, rfl⟩
    · cases h
  · rename_i he
    cases h
    exact Or.inl ⟨by simpa using he, rfl⟩

/-- `D_ARG`, enabled on an index that exists, completes with the argument's effect. -/
theorem State.argStep_enabled {s : State} {effect : State → State} (he : s.argEnabled = true)
    (hr : s.rxRd < s.par.cR) :
    s.argStep effect = .next { effect s.quiet.rxAdvance with dpPhase := dpIdle } := by
  simp [State.argStep, he, hr]

/-- If a `CMD2` command answers a next state, it was not enabled and nothing happened, or its command byte was fetched,
or its argument finished it. -/
theorem State.cmd2_next {s t : State} {c : Byte} {arg : Option Byte} {effect : Byte → State → State}
    (h : s.cmd2 c arg effect = .next t) :
    t = s.quiet ∨
      (arg = none ∧ s.fetchEnabled = true ∧ s.rxRd < s.par.cR ∧ t = s.quiet.rxAdvance.awaitArg c) ∨
      (∃ a, arg = some a ∧ s.dpCmd = c ∧ s.argEnabled = true ∧ s.rxRd < s.par.cR ∧
        t = { effect a s.quiet.rxAdvance with dpPhase := dpIdle }) := by
  unfold State.cmd2 at h
  cases arg with
  | none =>
    rcases State.fetchStep_next h with ⟨-, rfl⟩ | ⟨he, hr, rfl⟩
    · exact Or.inl rfl
    · exact Or.inr (Or.inl ⟨rfl, he, hr, rfl⟩)
  | some a =>
    dsimp only at h
    split at h
    · rename_i hc
      rcases State.argStep_next h with ⟨-, rfl⟩ | ⟨he, hr, rfl⟩
      · exact Or.inl rfl
      · exact Or.inr (Or.inr ⟨a, rfl, hc, he, hr, rfl⟩)
    · cases h
      exact Or.inl rfl

/-- `D_STAGE` stages the reply and is idle again, or is not enabled. -/
theorem State.stageStep_cases (s : State) :
    (s.stageEnabled = false ∧ s.stageStep = s.quiet) ∨
      (s.stageEnabled = true ∧ s.stageStep = { s.quiet.txStage s.dpReply with dpPhase := dpIdle }) := by
  unfold State.stageStep
  split
  · exact Or.inr ⟨by assumption, rfl⟩
  · rename_i he
    exact Or.inl ⟨by simpa using he, rfl⟩

/-- `D_HOUSE` clears both signals, or is not enabled. -/
theorem State.houseStep_cases (s : State) :
    (s.houseEnabled = false ∧ s.houseStep = s.quiet) ∨
      (s.houseEnabled = true ∧
        s.houseStep = { s.quiet.acknowledgeOverflows with out := { alert := nonZero s.soundEn } }) := by
  unfold State.houseStep
  split
  · exact Or.inr ⟨by assumption, rfl⟩
  · rename_i he
    exact Or.inl ⟨by simpa using he, rfl⟩

/-! ### The tick -/

/-- The next count of a hold, as a natural number. -/
theorem streakNext_toNat (streak : BitVec 7) : (streakNext streak).toNat = min (streak.toNat + 1) 75 := by
  have hlt : streak.toNat < 128 := streak.isLt
  unfold streakNext
  split
  · rename_i h
    rw [show Config.tRepeat = 75 from rfl] at h
    rw [BitVec.toNat_add]
    show (streak.toNat + 1) % 128 = _
    omega
  · rename_i h
    rw [show Config.tRepeat = 75 from rfl] at h
    show 75 = _
    omega

/-- `TICK` takes exactly one of five courses: no key; another key; the same key with no event, with the confirmation
event, or with a repeat event. At most one event is emitted. -/
theorem State.tick_cases (s : State) (k : Byte) :
    (k = 0 ∧ s.tick k = { s.quiet with lastCode := 0, streak := 0 }) ∨
    (k ≠ 0 ∧ k ≠ s.lastCode ∧ s.tick k = { s.quiet with lastCode := k, streak := 1 }) ∨
    (k ≠ 0 ∧ k = s.lastCode ∧ (streakNext s.streak).toNat ≠ 3 ∧
      ¬(s.repeatEnT = true ∧ (streakNext s.streak).toNat = 75) ∧
      s.tick k = { s.quiet with streak := streakNext s.streak }) ∨
    (k ≠ 0 ∧ k = s.lastCode ∧ (streakNext s.streak).toNat = 3 ∧
      s.tick k = { s.quiet.emit k with streak := streakNext s.streak }) ∨
    (k ≠ 0 ∧ k = s.lastCode ∧ s.repeatEnT = true ∧ (streakNext s.streak).toNat = 75 ∧
      s.tick k = { s.quiet.emit k with streak := 60 }) := by
  have hsame : k ≠ 0 → k = s.lastCode → s.tick k = s.quiet.tickSameKey k := by
    intro h0 h1
    unfold State.tick
    rw [if_neg h0, if_neg (fun h => h h1)]
  by_cases h0 : k = 0
  · exact Or.inl ⟨h0, by unfold State.tick; rw [if_pos h0]⟩
  by_cases h1 : k = s.lastCode
  · rw [hsame h0 h1]
    right; right
    by_cases h3 : (streakNext s.streak).toNat = 3
    · right; left
      refine ⟨h0, h1, h3, ?_⟩
      simp [State.tickSameKey, h3, Config.tConfirm, Config.tRepeat]
    · by_cases h75 : s.repeatEnT = true ∧ (streakNext s.streak).toNat = 75
      · right; right
        refine ⟨h0, h1, h75.1, h75.2, ?_⟩
        simp [State.tickSameKey, h75.1, h75.2, Config.tConfirm, Config.tRepeat, Config.tRollback]
      · left
        refine ⟨h0, h1, h3, h75, ?_⟩
        have hb : (s.repeatEnT && (streakNext s.streak).toNat == 75) = false := by
          cases hr : s.repeatEnT <;> simp_all
        simp [State.tickSameKey, h3, hb, Config.tConfirm, Config.tRepeat]
  · exact Or.inr (Or.inl ⟨h0, h1, by unfold State.tick; rw [if_neg h0, if_pos h1]⟩)

end Sys2Proof.Machine
end

