-- ==== Sys2Proof/Laws/PerInstr.lean ====
section
/-! SUPPORT. A law of every instruction as syntax: its encoding falls in exactly one row of the opcode table, the one
that bears its mnemonic. -/

namespace Sys2Proof.Laws.EncodeMatchesRow

/-- The encoding of a well-formed instruction matches exactly one row of its space, and that row bears its mnemonic;
the tick inputs carry an operand and no opcode bits, so no row has a pattern for them. -/
def Statement (i : Instr) : Prop :=
  WellFormed i →
    ((∃ r, (encode i).rows = [r] ∧ r.mnemonic = i.mnemonic) ∨
      (∃ k, encode i = .scanCode k ∧ i.mnemonic = "TICK.C") ∨ ∃ m, encode i = .sample m ∧ i.mnemonic = "TICK.M")

/-- What the rows say of a frame is said of its command byte alone. -/
theorem rows_commandFrame (c : Byte) (arg : Option Byte) : (commandFrame c arg).rows = (commandFrame c none).rows := by
  cases arg <;> rfl

theorem getkey : Statement .getkey := fun _ => .inl ⟨_, rfl, rfl⟩
theorem getcur : Statement .getcur := fun _ => .inl ⟨_, rfl, rfl⟩
theorem getcnt : Statement .getcnt := fun _ => .inl ⟨_, rfl, rfl⟩
theorem led0 (arg : Option Byte) : Statement (.led0 arg) := fun _ => .inl ⟨_, rows_commandFrame _ arg, rfl⟩
theorem led1 (arg : Option Byte) : Statement (.led1 arg) := fun _ => .inl ⟨_, rows_commandFrame _ arg, rfl⟩
theorem led2 (arg : Option Byte) : Statement (.led2 arg) := fun _ => .inl ⟨_, rows_commandFrame _ arg, rfl⟩
theorem led3 (arg : Option Byte) : Statement (.led3 arg) := fun _ => .inl ⟨_, rows_commandFrame _ arg, rfl⟩
theorem setsnd (arg : Option Byte) : Statement (.setsnd arg) := fun _ => .inl ⟨_, rows_commandFrame _ arg, rfl⟩
theorem setrpt (arg : Option Byte) : Statement (.setrpt arg) := fun _ => .inl ⟨_, rows_commandFrame _ arg, rfl⟩

/-- Every code that is no command falls in exactly one of the ten blocks of `CMD_IGNORED`. -/
theorem ignored_rows : ∀ c : Byte, isCommand c = false →
    (commandRows.filter (·.covers c.toNat)).map Row.mnemonic = ["CMD_IGNORED"] := by
  decide +kernel

/-- Every class from 0xB on falls in exactly one of the two blocks of `ST_UNRECOGNIZED`. -/
theorem unrecognized_rows : ∀ cls : BitVec 4, 11 ≤ cls.toNat →
    (statusRows.filter (·.covers cls.toNat)).map Row.mnemonic = ["ST_UNRECOGNIZED"] := by
  decide

/-- A list whose names are one name is one row of that name. -/
theorem row_of_names {rows : List Row} {name : String} (h : rows.map Row.mnemonic = [name]) :
    ∃ r, rows = [r] ∧ r.mnemonic = name := by
  obtain ⟨r, rfl, hr⟩ := List.map_eq_singleton_iff.1 h
  exact ⟨r, rfl, hr⟩

theorem cmdIgnored (code : Byte) : Statement (.cmdIgnored code) := fun h =>
  .inl (row_of_names (ignored_rows code (by simpa [WellFormed, Instr.wf] using h)))

theorem stBusError : Statement .stBusError := fun _ => .inl ⟨_, rfl, rfl⟩
theorem stSlaWAck : Statement .stSlaWAck := fun _ => .inl ⟨_, rfl, rfl⟩
theorem stGcAck : Statement .stGcAck := fun _ => .inl ⟨_, rfl, rfl⟩
theorem stRxDataAck (d : Byte) : Statement (.stRxDataAck d) := fun _ => .inl ⟨_, rfl, rfl⟩
theorem stGcRxDataAck (d : Byte) : Statement (.stGcRxDataAck d) := fun _ => .inl ⟨_, rfl, rfl⟩
theorem stRxDataNack : Statement .stRxDataNack := fun _ => .inl ⟨_, rfl, rfl⟩
theorem stStopRestart : Statement .stStopRestart := fun _ => .inl ⟨_, rfl, rfl⟩
theorem stSlaRAck : Statement .stSlaRAck := fun _ => .inl ⟨_, rfl, rfl⟩
theorem stTxDataAck : Statement .stTxDataAck := fun _ => .inl ⟨_, rfl, rfl⟩
theorem stTxDataNack : Statement .stTxDataNack := fun _ => .inl ⟨_, rfl, rfl⟩
theorem stTxLastAck : Statement .stTxLastAck := fun _ => .inl ⟨_, rfl, rfl⟩

theorem stUnrecognized (cls : BitVec 4) : Statement (.stUnrecognized cls) := fun h =>
  .inl (row_of_names (unrecognized_rows cls (by simpa [WellFormed, Instr.wf] using h)))

theorem tickC (k : Byte) : Statement (.tickC k) := fun _ => .inr (.inl ⟨k, rfl, rfl⟩)
theorem tickM (m : BitVec 16) : Statement (.tickM m) := fun _ => .inr (.inr ⟨m, rfl, rfl⟩)

end Sys2Proof.Laws.EncodeMatchesRow
end

