-- ==== Sys2Proof/Laws/Steps.lean ====
section
/-! SUPPORT. What a step can do, said once: the inversion of `step`, of one line, and of each agent's instructions. -/

namespace Sys2Proof.Machine

/-- If a step answers a next state, it was `BOOT`, or a line under reset, or a line of a running machine. -/
theorem step_next {s t : State} (h : step s = .next t) :
    (s.resetPhase = .bootDue ∧ t = s.bootStep) ∨
    (s.resetPhase = .asserted ∧ t = s.popLine.heldLine s.nextLine) ∨
    (s.resetPhase = .running ∧ s.popLine.runLine s.nextLine = .next t) := by
  unfold step State.stepOnce at h
  split at h
  · rename_i hp
    cases h
    exact Or.inl ⟨hp, rfl⟩
  · rename_i hp
    cases h
    exact Or.inr (Or.inl ⟨hp, rfl⟩)
  · rename_i hp
    exact Or.inr (Or.inr ⟨hp, h⟩)

/-- A line under reset does nothing, resets again, or releases the reset. -/
theorem State.heldLine_cases (s : State) (l : Line) :
    s.heldLine l = s.quiet ∨ s.heldLine l = s.resetStep ∨ s.heldLine l = s.releaseStep := by
  cases l <;> simp [State.heldLine]

/-- If a line answers a next state, it ran a decoded instruction, or `D_ARG`'s otherwise case, or a step that no
encoding selects. -/
theorem State.runLine_next {s t : State} {l : Line} (h : s.runLine l = .next t) :
    (∃ e i, s.presents l = some e ∧ decode e = .ok i ∧ exec i s = .next t) ∨
    (∃ e r, s.presents l = some e ∧ decode e = .error r ∧ s.argOther = .next t) ∨
    (s.presents l = none ∧ t = s.unencodedStep l) := by
  unfold State.runLine at h
  split at h
  · rename_i e he
    split at h
    · rename_i i hi
      exact Or.inl ⟨e, i, he, hi, h⟩
    · rename_i r hr
      exact Or.inr (Or.inl ⟨e, r, he, hr, h⟩)
  · rename_i hn
    cases h
    exact Or.inr (Or.inr ⟨hn, rfl⟩)

/-- A line that presents an encoded input the decoder reads runs that instruction. -/
theorem State.runLine_decoded {s : State} {l : Line} {e : Encoded} {i : Instr} (he : s.presents l = some e)
    (hi : decode e = .ok i) : s.runLine l = exec i s := by
  simp [State.runLine, he, hi]

/-- The courses an instruction can take to a next state: one tick; the engine's five; for a command, nothing (it was
not enabled), the effect inside `D_FETCH` on the state with one byte popped, or the effect inside `D_ARG`. -/
inductive ExecCourse (s : State) : State → Prop where
  | tick (k : Byte) : ExecCourse s (s.tick k)
  | addressed : ExecCourse s s.addressedForWrite
  | ended : ExecCourse s s.transactionEnd
  | recovered (cls : BitVec 4) : ExecCourse s (s.busRecovery cls)
  | sent : ExecCourse s s.quiet.txNext
  | dropped (d : Byte) (full : s.rxFull = true) : ExecCourse s ((s.quiet.raise (.rxOvf d)).drive .armRx)
  | stored (d : Byte) (room : s.rxFull = false) (index : s.rxWr < s.par.cR) :
      ExecCourse s ((s.quiet.rxStore d).drive .armRx)
  | blocked : ExecCourse s s.quiet
  | getkey (enabled : s.fetchEnabled = true) (index : s.rxRd < s.par.cR) :
      ExecCourse s ((s.quiet.rxAdvance.kqPop0.2.kqClear).awaitStage s.quiet.rxAdvance.kqPop0.1)
  | getcur (enabled : s.fetchEnabled = true) (index : s.rxRd < s.par.cR) :
      ExecCourse s (s.quiet.rxAdvance.kqClear.awaitStage s.curCodeB)
  | getcnt (enabled : s.fetchEnabled = true) (index : s.rxRd < s.par.cR) :
      ExecCourse s (s.quiet.rxAdvance.awaitStage (s.kqCount.zeroExtend 8))
  | awaited (c : Byte) (takes : takesArg c = true) (enabled : s.fetchEnabled = true) (index : s.rxRd < s.par.cR) :
      ExecCourse s (s.quiet.rxAdvance.awaitArg c)
  | ignored (c : Byte) (enabled : s.fetchEnabled = true) (index : s.rxRd < s.par.cR) :
      ExecCourse s (s.quiet.rxAdvance.raise (.badCmd c))
  | ledSet (c a : Byte) (enabled : s.argEnabled = true) (index : s.rxRd < s.par.cR) :
      ExecCourse s { s.quiet.rxAdvance.setLed c a with dpPhase := dpIdle }
  | soundSet (a : Byte) (enabled : s.argEnabled = true) (index : s.rxRd < s.par.cR) :
      ExecCourse s { s.quiet.rxAdvance.nvmWrite s.par.slotSound a with soundEn := a, dpPhase := dpIdle }
  | repeatSet (a : Byte) (enabled : s.argEnabled = true) (index : s.rxRd < s.par.cR) :
      ExecCourse s { s.quiet.rxAdvance.nvmWrite s.par.slotRepeat a with repeatEn := a, dpPhase := dpIdle }

/-- A fetched command takes its own course or none. -/
theorem ExecCourse.of_fetch {s t : State} {effect : State → State} (h : s.fetchStep effect = .next t)
    (own : s.fetchEnabled = true → s.rxRd < s.par.cR → ExecCourse s (effect s.quiet.rxAdvance)) : ExecCourse s t := by
  rcases State.fetchStep_next h with ⟨-, rfl⟩ | ⟨he, hr, rfl⟩
  · exact .blocked
  · exact own he hr

/-- A command with an argument awaits it, or takes its own course, or none. -/
theorem ExecCourse.of_cmd2 {s t : State} {c : Byte} {arg : Option Byte} {effect : Byte → State → State}
    (takes : takesArg c = true) (h : s.cmd2 c arg effect = .next t)
    (own : ∀ a, s.argEnabled = true → s.rxRd < s.par.cR →
      ExecCourse s { effect a s.quiet.rxAdvance with dpPhase := dpIdle }) : ExecCourse s t := by
  rcases State.cmd2_next h with rfl | ⟨-, he, hr, rfl⟩ | ⟨a, -, -, he, hr, rfl⟩
  · exact .blocked
  · exact .awaited c takes he hr
  · exact own a he hr

/-- A byte received is dropped or stored. -/
theorem ExecCourse.of_rxPush {s t : State} {d : Byte} (h : s.quiet.rxPush d = .next t) : ExecCourse s t := by
  rcases State.rxPush_next h with ⟨hf, rfl⟩ | ⟨hf, hw, rfl⟩
  · exact .dropped d hf
  · exact .stored d hf hw

/-- Every next state of an instruction is reached by one of the courses. -/
theorem exec_next {i : Instr} {s t : State} (h : exec i s = .next t) : ExecCourse s t := by
  cases i with
  | getkey => dsimp only [exec, execGetkey] at h; exact .of_fetch h .getkey
  | getcur => dsimp only [exec, execGetcur] at h; exact .of_fetch h .getcur
  | getcnt => dsimp only [exec, execGetcnt] at h; exact .of_fetch h .getcnt
  | cmdIgnored c => dsimp only [exec, execCmdIgnored] at h; exact .of_fetch h (.ignored c)
  | led0 | led1 | led2 | led3 => exact .of_cmd2 (by decide) h (.ledSet _)
  | setsnd => exact .of_cmd2 (by decide) h .soundSet
  | setrpt => exact .of_cmd2 (by decide) h .repeatSet
  | stRxDataAck | stGcRxDataAck => exact .of_rxPush h
  | tickC | tickM => cases h; exact .tick _
  | stSlaWAck | stGcAck => cases h; exact .addressed
  | stTxDataNack | stStopRestart | stUnrecognized => cases h; exact .ended
  | stBusError | stRxDataNack | stTxLastAck => cases h; exact .recovered _
  | stSlaRAck | stTxDataAck => cases h; exact .sent

/-- The courses of a running machine's line: an instruction's; the argument popped with no effect; a step that no
encoding selects. -/
inductive LineCourse (s : State) : State → Prop where
  | instr {t : State} (h : ExecCourse s t) : LineCourse s t
  | argOther (enabled : s.argEnabled = true) (index : s.rxRd < s.par.cR) :
      LineCourse s { s.quiet.rxAdvance with dpPhase := dpIdle }
  | staged (enabled : s.stageEnabled = true) :
      LineCourse s { s.quiet.txStage s.dpReply with dpPhase := dpIdle }
  | housed (enabled : s.houseEnabled = true) :
      LineCourse s { s.quiet.acknowledgeOverflows with out := { alert := nonZero s.soundEn } }
  | synced (x : Crossing) : LineCourse s (s.syncStep x)
  | reset : LineCourse s s.resetStep
  | released : LineCourse s s.releaseStep

/-- Every next state of a line is reached by one of the courses. -/
theorem State.runLine_course {s t : State} {l : Line} (h : s.runLine l = .next t) : LineCourse s t := by
  rcases State.runLine_next h with ⟨_, _, -, -, h⟩ | ⟨_, _, -, -, h⟩ | ⟨-, rfl⟩
  · exact .instr (exec_next h)
  · rcases State.argStep_next h with ⟨-, rfl⟩ | ⟨he, hr, rfl⟩
    · exact .instr .blocked
    · exact .argOther he hr
  · cases l with
    | dStage =>
      rcases s.stageStep_cases with ⟨-, h⟩ | ⟨he, h⟩ <;> simp only [State.unencodedStep, h]
      · exact .instr .blocked
      · exact .staged he
    | dHouse =>
      rcases s.houseStep_cases with ⟨-, h⟩ | ⟨he, h⟩ <;> simp only [State.unencodedStep, h]
      · exact .instr .blocked
      · exact .housed he
    | sync x => exact .synced x
    | rstAssert => exact .reset
    | rstRelease => exact .released
    | tickC | tickM | st | dFetch | dArg => exact .instr .blocked

end Sys2Proof.Machine
end

