-- ==== Sys2Proof/Tests/Slice0.lean ====
section
/-! SUPPORT. Own tests. The expected results are those of 95_test_vectors.md (the vector's id stands in the name) or
written out by hand from the rule named. The witnesses at the end show, for every statement with hypotheses, a state
and operands that meet them. -/

namespace Sys2Proof.Tests

open Sys2Proof Sys2Proof.Machine

/-! ### Helpers -/

/-- The next state, if there is one. -/
def nextOf : Host.Outcome State Fault Refusal → Option State
  | .next t => some t
  | .fault _ => none
  | .refused _ => none

/-- The machine running, at its reset values. -/
def run0 : State := { State.reset with resetPhase := .running }

/-- The same with sound and repeat enabled in domain T. -/
def loud : State := { run0 with soundEnT := true, repeatEnT := true }

/-- `RX` holding one unread byte, the dispatcher in the phase given. -/
def rxOne (b : Byte) (phase : BitVec 2) (cmd : Byte) : State :=
  { run0 with mem := { rx := [(0, b)] }, rxWr := 1, dpPhase := phase, dpCmd := cmd }

/-- A field after an instruction. -/
def after {α : Type} (i : Instr) (s : State) (f : State → α) : Option α := (nextOf (exec i s)).map f

/-- A field after a step with the line given as the next one. -/
def afterLine {α : Type} (l : Line) (s : State) (f : State → α) : Option α :=
  (nextOf (step { s with inbox := [l] })).map f

/-! ### Well-formedness: an ill-formed term for each check -/

theorem test_wf_refuses_command_as_ignored : ¬WellFormed (.cmdIgnored 10) := by decide
theorem test_wf_refuses_known_class_as_unrecognized : ¬WellFormed (.stUnrecognized 10) := by decide
theorem test_wf_accepts : WellFormed (.cmdIgnored 22) ∧ WellFormed (.stUnrecognized 11) ∧ WellFormed (.led0 none) := by
  decide

/-! ### Decoding, from words written out by the tables of 30_encoding.md -/

theorem test_decode_getkey : decode (.frame [0b00000000]) = .ok .getkey := rfl
theorem test_decode_getcur : decode (.frame [0b00000001]) = .ok .getcur := rfl
theorem test_decode_getcnt : decode (.frame [0b00000010]) = .ok .getcnt := rfl
theorem test_decode_led0 : decode (.frame [0b00001010, 0b00000001]) = .ok (.led0 (some 1)) := rfl
theorem test_decode_led1 : decode (.frame [0b00001011, 0b00000000]) = .ok (.led1 (some 0)) := rfl
theorem test_decode_led2 : decode (.frame [0b00001100, 0b11111111]) = .ok (.led2 (some 255)) := rfl
theorem test_decode_led3 : decode (.frame [0b00001101]) = .ok (.led3 none) := rfl
theorem test_decode_setsnd : decode (.frame [0b00010100, 0b10000000]) = .ok (.setsnd (some 128)) := rfl
theorem test_decode_setrpt : decode (.frame [0b00010101, 0b00000010]) = .ok (.setrpt (some 2)) := rfl
theorem test_decode_ignored :
    (∀ c ∈ [3, 7, 9, 14, 19, 22, 31, 63, 127, 255], decodeCommandByte (BitVec.ofNat 8 c) = .cmdIgnored c) := by decide
theorem test_decode_status_classes :
    decodeStatus 0b0000 7 = .stBusError ∧ decodeStatus 0b0001 7 = .stSlaWAck ∧ decodeStatus 0b0010 7 = .stGcAck ∧
    decodeStatus 0b0011 7 = .stRxDataAck 7 ∧ decodeStatus 0b0100 7 = .stGcRxDataAck 7 ∧
    decodeStatus 0b0101 7 = .stRxDataNack ∧ decodeStatus 0b0110 7 = .stStopRestart ∧
    decodeStatus 0b0111 7 = .stSlaRAck ∧ decodeStatus 0b1000 7 = .stTxDataAck ∧
    decodeStatus 0b1001 7 = .stTxDataNack ∧ decodeStatus 0b1010 7 = .stTxLastAck ∧
    decodeStatus 0b1011 7 = .stUnrecognized 11 ∧ decodeStatus 0b1100 7 = .stUnrecognized 12 ∧
    decodeStatus 0b1111 7 = .stUnrecognized 15 := by decide
theorem test_decode_ticks : decode (.scanCode 0b00000101) = .ok (.tickC 5) ∧
    decode (.sample 0b0000000001000000) = .ok (.tickM 0x0040) := ⟨rfl, rfl⟩
theorem test_decode_rejects : decode (.frame []) = .error .emptyFrame ∧
    decode (.frame [0, 1]) = .error (.takesNoArgument 0) ∧ decode (.frame [10, 1, 1]) = .error .frameTooLong :=
  ⟨rfl, rfl, rfl⟩
theorem test_table_words : decodeTableWord 8 0x02 = some .getcnt ∧ decodeTableWord 8 0x0A = some (.led0 none) ∧
    decodeTableWord 4 0x7 = some .stSlaRAck ∧ decodeTableWord 12 0x413 = some (.stRxDataAck 0x41) ∧
    decodeTableWord 16 0x0040 = some (.tickM 0x0040) ∧ decodeTableWord 32 0 = none := by decide

/-! ### The step runs a placed instruction first -/

theorem test_first_instruction_command :
    (nextOf (step (State.reset.withFetchWord 8 0x0A))).map (fun t => (t.dpPhase, t.dpCmd, t.rxRd)) =
      some (1, 10, 1) := by decide
theorem test_first_instruction_argument :
    (nextOf (step (State.reset.withFetchWord 8 0x0A))).bind
      (fun t => afterLine .dArg { t with led := 0b1111 } (fun u => (u.led, u.dpPhase))) = some (0b1110, 0) := by decide
theorem test_first_instruction_status :
    (nextOf (step (State.reset.withFetchWord 4 0x1))).map (fun t => (t.busy, t.out.action)) =
      some (true, some .armRx) := by decide
theorem test_first_instruction_tick :
    (nextOf (step (State.reset.withFetchWord 16 0x0040))).map (fun t => (t.lastCode, t.streak)) = some (7, 1) := by
  decide

/-! ### Scanner (95_test_vectors.md, 2.1) -/

/-- R61's example; R62 (a), (b), (c), (d), (e). -/
theorem test_scan :
    scan Config.Params.standard 0x0040 = 7 ∧ scan Config.Params.standard 0x0000 = 0 ∧
    scan Config.Params.standard 0x0003 = 0 ∧ scan Config.Params.standard 0x0041 = 1 ∧
    scan Config.Params.standard 0x0203 = 10 ∧ scan Config.Params.standard 0xFFFF = 0 ∧
    scan Config.Params.standard 0x8000 = 16 := by decide

/-! ### Debounce machine -/

/-- R64's example: the third tick of a hold confirms and pushes. -/
theorem test_tickC_confirms : after (.tickC 5) { run0 with lastCode := 5, streak := 2 }
    (fun t => (t.streak, t.kqWr, t.readCell .kq 0, t.out.emitted, t.out.click)) =
      some (3, 1, 5, some 5, false) := by decide
/-- R67, R69 (b): at 75 with repeat the event is emitted and `streak` is rolled back. -/
theorem test_tickC_repeats : after (.tickC 5) { loud with lastCode := 5, streak := 75 }
    (fun t => (t.streak, t.out.emitted, t.out.click)) = some (60, some 5, true) := by decide
/-- R72, vector of the full FIFO: dropped, and the signal raised once. -/
theorem test_tickC_overflow :
    after (.tickC 5) { loud with lastCode := 5, streak := 2, kqWr := 31 }
      (fun t => (t.kqWr, t.mem.kq.length, t.ovfReq, t.out.raised)) = some (31, 0, true, some (.kqOvf 5)) := by decide
/-- R71: 127 does not wrap, it rejoins at 75. -/
theorem test_tickC_no_wrap : after (.tickC 5) { run0 with lastCode := 5, streak := 127 } (·.streak) = some 75 := by
  decide
theorem test_tickM_scans : after (.tickM 0x0040) { run0 with lastCode := 7, streak := 1 }
    (fun t => (t.lastCode, t.streak)) = some (7, 2) := by decide
theorem test_tickM_no_key : after (.tickM 0xFFFF) { run0 with lastCode := 7, streak := 60 }
    (fun t => (t.lastCode, t.streak)) = some (0, 0) := by decide

/-! ### Engine (95_test_vectors.md, 2.4) -/

theorem test_E1_slaRAck : after .stSlaRAck { run0 with mem := { tx := [(0, 5)] } }
    (fun t => (t.out.action, t.txRd, t.busy)) = some (some (.send 5), 1, true) := by decide
theorem test_E2_txDataAck_wraps : after .stTxDataAck { run0 with mem := { tx := [(0, 5)] }, txRd := 3, busy := true }
    (fun t => (t.out.action, t.txRd, t.busy)) = some (some (.send 0), 0, true) := by decide
theorem test_E3_txDataNack : after .stTxDataNack { run0 with txRd := 1, busy := true }
    (fun t => (t.out.action, t.txRd, t.busy)) = some (some .armAddr, 1, false) := by decide
theorem test_E4_slaWAck : after .stSlaWAck run0 (fun t => (t.out.action, t.busy)) = some (some .armRx, true) := by decide
theorem test_E5_rxDataAck_fills_last :
    after (.stRxDataAck 0x41) { run0 with par := { Config.Params.standard with cR := 4 }, rxWr := 3 }
      (fun t => (t.readCell .rx 3, t.rxWr, t.rxFull, t.out.action)) = some (0x41, 0, true, some .armRx) := by decide
theorem test_E6_rxDataAck_drops :
    after (.stRxDataAck 0x42) { run0 with par := { Config.Params.standard with cR := 4 }, rxFull := true }
      (fun t => (t.mem.rx.length, t.rxWr, t.rxOvf, t.out.raised)) = some (0, 0, true, some (.rxOvf 0x42)) := by decide
theorem test_E8_stopRestart : after .stStopRestart { run0 with busy := true }
    (fun t => (t.out.action, t.busy)) = some (some .armAddr, false) := by decide
theorem test_E9_busError : after .stBusError { run0 with busy := true, rxWr := 1 }
    (fun t => (t.out.action, t.busy, t.rxWr, t.out.raised)) =
      some (some .releaseBus, true, 1, some (.bus 0)) := by decide
theorem test_E10_rxDataNack : after .stRxDataNack { run0 with busy := true }
    (fun t => (t.out.action, t.busy, t.mem.rx.length)) = some (some .releaseBus, true, 0) := by decide
theorem test_E11_txLastAck : after .stTxLastAck { run0 with busy := true, txRd := 2 }
    (fun t => (t.out.action, t.busy, t.txRd)) = some (some .releaseBus, true, 2) := by decide
theorem test_E12_unrecognized : after (.stUnrecognized 0xF) { run0 with busy := true }
    (fun t => (t.out.action, t.busy, t.out.raised)) = some (some .armAddr, false, none) := by decide
theorem test_E13_general_call : after .stGcAck run0 (·.busy) = some true ∧
    after (.stGcRxDataAck 2) run0 (fun t => (t.readCell .rx 0, t.rxWr)) = some (2, 1) := by decide

/-! ### Dispatcher (95_test_vectors.md, 2.5) -/

theorem test_DV1_getkey : after .getkey { rxOne 0 0 0 with
      mem := { rx := [(0, 0)], kq := [(0, 5), (1, 6), (2, 7)] }, kqWrB := 3, kqWr := 3 }
    (fun t => (t.dpReply, t.kqRd, t.dpPhase, t.rxRd)) = some (5, 3, 2, 1) := by decide
theorem test_DV2_getkey_empty : after .getkey { rxOne 0 0 0 with kqRd := 4, kqWrB := 4, dpReply := 9 }
    (fun t => (t.dpReply, t.kqRd)) = some (0, 4) := by decide
theorem test_DV3_getcur : after .getcur { rxOne 1 0 0 with curCodeB := 7, kqRd := 2, kqWrB := 4 }
    (fun t => (t.dpReply, t.kqRd, t.dpPhase)) = some (7, 4, 2) := by decide
theorem test_DV5_getcnt_wraps : after .getcnt { rxOne 2 0 0 with kqWrB := 3, kqRd := 30 }
    (fun t => (t.dpReply, t.kqRd, t.dpPhase)) = some (5, 30, 2) := by decide
theorem test_DV6_led0 : after (.led0 (some 1)) (rxOne 1 1 10) (fun t => (t.led, t.dpPhase, t.mem.tx.length)) =
    some (0b0001, 0, 0) := by decide
theorem test_DV7_led1 : after (.led1 (some 0)) { rxOne 0 1 11 with led := 0b1111 } (·.led) = some 0b1101 := by decide
theorem test_DV8_led2 : after (.led2 (some 0xFF)) (rxOne 0xFF 1 12) (·.led) = some 0b0100 := by decide
theorem test_DV9_led3 : after (.led3 (some 1)) (rxOne 1 1 13) (·.led) = some 0b1000 := by decide
theorem test_DV10_setsnd : after (.setsnd (some 1)) (rxOne 1 1 20)
    (fun t => (t.soundEn, t.soundEnT, t.readCell .nvm 0, t.out.nvmStore)) = some (1, false, 1, some (0, 1)) := by decide
theorem test_DV11_setrpt : after (.setrpt (some 2)) (rxOne 2 1 21)
    (fun t => (t.repeatEn, t.readCell .nvm 1, t.out.nvmStore)) = some (2, 2, some (1, 2)) := by decide
theorem test_DV12_ignored : after (.cmdIgnored 99) (rxOne 99 0 0)
    (fun t => (t.rxRd, t.dpPhase, t.out.raised)) = some (1, 0, some (.badCmd 99)) := by decide
theorem test_DV13_argument_withheld : after (.led0 none) (rxOne 10 0 0)
    (fun t => (t.dpPhase, t.dpCmd, t.dispatcherIdle)) = some (1, 10, true) := by decide
theorem test_DV14_command_byte_as_argument : afterLine .dArg { rxOne 0 1 10 with led := 0b0001 }
    (fun t => (t.led, t.dpPhase)) = some (0, 0) := by decide
theorem test_DV15_stage_blocked : afterLine .dStage { run0 with dpPhase := 2, dpReply := 5, busy := true }
    (fun t => (t.dpPhase, t.mem.tx.length)) = some (2, 0) := by decide
theorem test_E14_stage : afterLine .dStage { run0 with dpPhase := 2, dpReply := 5, txRd := 2 }
    (fun t => (t.dpPhase, t.readCell .tx 0, t.txWr, t.txRd)) = some (0, 5, 1, 0) := by decide
theorem test_DV16_house : afterLine .dHouse { run0 with rxOvf := true, soundEn := 1 }
    (fun t => (t.out.alert, t.rxOvf)) = some (true, false) := by decide
theorem test_DV17_house_silent : afterLine .dHouse { run0 with ovfReqB := true }
    (fun t => (t.out.alert, t.ovfAck)) = some (false, true) := by decide

/-! ### Synchroniser and reset (95_test_vectors.md, 2.6 and 2.7) -/

theorem test_Y1_Y2 : afterLine (.sync .kqWr) { run0 with kqWr := 7, kqWrB := 4 } (·.kqWrB) = some 7 ∧
    afterLine (.sync .kqRd) { run0 with kqRd := 9, kqRdT := 3 } (·.kqRdT) = some 9 := by decide
theorem test_Y3_Y4 : afterLine (.sync .cur) { run0 with lastCode := 5, streak := 2, curCodeB := 1 } (·.curCodeB) = some 0 ∧
    afterLine (.sync .cur) { run0 with lastCode := 5, streak := 60 } (·.curCodeB) = some 5 := by decide
theorem test_Y5 : afterLine (.sync .cfg) { run0 with soundEn := 0x80, repeatEnT := true }
    (fun t => (t.soundEnT, t.repeatEnT)) = some (true, false) := by decide
theorem test_Y6_Y7 : afterLine (.sync .ovfReq) { run0 with ovfReq := true }
      (fun t => (t.ovfReqB, t.kbdOvfPending)) = some (true, true) ∧
    afterLine (.sync .ovfAck) { run0 with ovfAck := true } (·.ovfAckT) = some true := by decide
theorem test_Z1_reset : afterLine .rstAssert { run0 with mem := { tx := [(0, 5)], nvm := [(0, 1)] }, led := 3, busy := true }
    (fun t => (t.readCell .tx 0, t.readCell .nvm 0, t.led, t.busy)) = some (0, 1, 0, false) := by decide
theorem test_Z2_boot : (nextOf (step { State.reset with mem := { nvm := [(0, 1), (1, 0)] } })).map
    (fun t => (t.soundEn, t.repeatEn, t.soundEnT, t.repeatEnT, t.out.action)) =
      some (1, 0, true, false, some .armAddr) := by decide

/-! ### Witnesses: the hypotheses of each statement are met -/

/-- An instruction answers a next state. -/
def Answers (i : Instr) (s : State) : Prop := ∃ t, exec i s = .next t

/-- A step with the line given as the next one answers a next state. -/
def Steps (s : State) (l : Line) : Prop :=
  { s with inbox := [l] }.nextLine = l ∧ ∃ t, step { s with inbox := [l] } = .next t

/-- Enabled to fetch the byte given, with the memory canonical and the index in range. -/
theorem fetch_ready (b : Byte) : (rxOne b 0 0).fetchEnabled = true ∧ (rxOne b 0 0).rxRd < (rxOne b 0 0).par.cR :=
  ⟨rfl, (by decide : 0 < 8)⟩

/-- Enabled to take the byte given as the argument of the command given, with the memory canonical. -/
theorem arg_ready (b cmd : Byte) : (rxOne b 1 cmd).argEnabled = true ∧ (rxOne b 1 cmd).rxRd < (rxOne b 1 cmd).par.cR ∧
    (rxOne b 1 cmd).dpCmd = cmd ∧ (rxOne b 1 cmd).mem.wf :=
  ⟨rfl, (by decide : 0 < 8), rfl, by simp [rxOne, Memory.wf, cellsWf, Space.fill]⟩

theorem witness_DecodeInvertsEncode : WellFormed (.cmdIgnored 3) ∧ WellFormed (.cmdIgnored 255) ∧
    WellFormed (.stUnrecognized 11) ∧ WellFormed (.stUnrecognized 15) ∧ WellFormed (.setrpt (some 255)) := by decide
theorem witness_EncodeInvertsDecode : decode (.status 0xA 0xFF) = .ok .stTxLastAck ∧
    decode (.frame [10, 0]) = .ok (.led0 (some 0)) := ⟨rfl, rfl⟩
theorem witness_FirstByteDecidesLength : (rxOne 10 0 0).fetchEnabled = true ∧
    (rxOne 10 0 0).rxRd < (rxOne 10 0 0).par.cR := by decide
theorem witness_StepRunsDecodedInstruction :
    (let s := { run0 with inbox := [.st 0x3 7] }
     s.resetPhase = .running ∧ s.presents s.nextLine = some (.status 0x3 7) ∧
       decode (.status 0x3 7) = .ok (.stRxDataAck 7) ∧ s.inbox = .st 0x3 7 :: []) ∧
    (rxOne 0 0 0).fetchEnabled = true ∧ (rxOne 1 1 10).argEnabled = true := ⟨⟨rfl, rfl, rfl, rfl⟩, rfl, rfl⟩
theorem witness_BootLoadsSettingsFirst : State.reset.resetPhase = .bootDue := rfl
theorem witness_ResetSetsEveryElement :
    (∀ phase ∈ [ResetPhase.running, .asserted, .bootDue],
      { run0 with inbox := [.rstAssert], resetPhase := phase }.nextLine = .rstAssert) ∧
    (let s := { State.reset with resetPhase := .asserted, inbox := [.tickC 5] }
     s.resetPhase = .asserted ∧ s.nextLine ≠ .rstAssert ∧ s.nextLine ≠ .rstRelease) := by decide
theorem witness_LaunchStateAfterResetAndBoot :
    let s := { run0 with inbox := .rstAssert :: .rstRelease :: [.tickC 5] }
    s.resetPhase ≠ .bootDue ∧ s.inbox = .rstAssert :: .rstRelease :: [.tickC 5] := by decide
theorem witness_StoredSettingSurvivesReset :
    ((rxOne 1 1 20).mem.wf ∧ (rxOne 1 1 20).argEnabled = true ∧ (rxOne 1 1 20).dpCmd = 20 ∧
      Answers (.setsnd (some 1)) (rxOne 1 1 20)) ∧
    ((rxOne 0 1 21).mem.wf ∧ (rxOne 0 1 21).argEnabled = true ∧ (rxOne 0 1 21).dpCmd = 21 ∧
      Answers (.setrpt (some 0)) (rxOne 0 1 21)) :=
  ⟨⟨(arg_ready 1 20).2.2.2, rfl, rfl, _, rfl⟩, (arg_ready 0 21).2.2.2, rfl, rfl, _, rfl⟩
/-- The three branches; in the third, `streak` at 2, 73, 74 and 75 with repeat on and off. -/
theorem witness_TickTransition :
    after (.tickC 0) { loud with lastCode := 5, streak := 75 } (·.streak) = some 0 ∧
    after (.tickC 1) { loud with lastCode := 5, streak := 75 } (·.streak) = some 1 ∧
    [2, 73, 74, 75].map (fun n => after (.tickC 5) { loud with lastCode := 5, streak := BitVec.ofNat 7 n }
      fun t => (t.streak, t.out.emitted)) =
      [some (3, some 5), some (74, none), some (60, some 5), some (60, some 5)] ∧
    [2, 73, 74, 75].map (fun n => after (.tickC 5) { run0 with lastCode := 5, streak := BitVec.ofNat 7 n }
      fun t => (t.streak, t.out.emitted)) =
      [some (3, some 5), some (74, none), some (75, none), some (75, none)] := by decide
/-- No emission; an emission that is stored, in the last free cell; one that is dropped, raised and not raised. -/
theorem witness_TickEmissionEffect :
    run0.mem.wf ∧ after (.tickC 0) run0 (·.out.emitted) = some none ∧
    after (.tickC 5) { loud with lastCode := 5, streak := 2, kqWr := 30 } (fun t => (t.out.emitted, t.kqWr)) =
      some (some 5, 31) ∧
    after (.tickC 5) { loud with lastCode := 5, streak := 2, kqWr := 31 } (fun t => (t.out.emitted, t.ovfReq)) =
      some (some 5, true) ∧
    after (.tickC 5) { run0 with lastCode := 5, streak := 2, kqWr := 31 } (fun t => (t.out.emitted, t.ovfReq)) =
      some (some 5, false) := ⟨Memory.empty_wf, by decide⟩
/-- Position (0, 0); position (3, 3) below an ambiguous row; the default table; no row at all. -/
theorem witness_ScanTakesFirstUnambiguousRow :
    (∀ c' < 4, (0x0001#16).getLsbD (4 * 0 + c') = decide (c' = 0)) ∧
    ((∀ c' < 4, (0x8003#16).getLsbD (4 * 3 + c') = decide (c' = 3)) ∧
      ∀ r' < 3, ¬∃ d < 4, ∀ c' < 4, (0x8003#16).getLsbD (4 * r' + c') = decide (c' = d)) ∧
    (∀ j < 16, run0.par.keymap[j]? = some (BitVec.ofNat 8 (j + 1))) ∧
    ∀ r < 4, ¬∃ d < 4, ∀ c' < 4, (0xFFFF#16).getLsbD (4 * r + c') = decide (c' = d) := by decide
theorem witness_TickOfSampleIsTickOfScan : run0.par.wf := by decide
/-- At rest; a third tick that confirms and a fourth that does not. -/
theorem witness_ConfirmationLaw : run0.lastCode = 0 ∧ run0.streak = 0 ∧
    ((run0.ticks [5, 5]).tick 5).out.emitted = some 5 ∧ ((run0.ticks [5, 5, 5]).tick 5).out.emitted = none := by decide
theorem witness_RepeatLaw : (5 : Byte) ≠ 0 ∧ loud.lastCode ≠ 5 ∧ loud.repeatEnT = true := by decide
theorem witness_RepeatDisabledLaw : (5 : Byte) ≠ 0 ∧ run0.lastCode ≠ 5 ∧ run0.repeatEnT = false := by decide
/-- Both ends of the range of `streak`, repeat on and off. -/
theorem witness_RepeatChangedDuringHold : ∀ n ∈ [1#7, 75#7], ∀ s ∈ [loud, run0],
    let u := { s with lastCode := 5, streak := n }
    (5 : Byte) ≠ 0 ∧ u.lastCode = 5 ∧ 1 ≤ u.streak.toNat ∧ u.streak.toNat ≤ 75 := by decide
theorem witness_CurCodeOverHold : (5 : Byte) ≠ 0 ∧ run0.lastCode ≠ 5 ∧ 1 ≤ 3 := by decide
theorem witness_KqConsumerOperations : run0.kqRd = run0.kqWrB ∧
    { run0 with kqRd := 30, kqWrB := 3 }.kqRd ≠ { run0 with kqRd := 30, kqWrB := 3 }.kqWrB := by decide

/-- Two unread events, one of them visible to the consumer. -/
def kqTwo : State := { run0 with mem := { kq := [(0, 5), (1, 6)] }, kqWr := 2, kqWrB := 1 }

theorem kqTwo_ready : kqTwo.mem.wf ∧ PointerOrder kqTwo :=
  ⟨by simp [kqTwo, Memory.wf, cellsWf, Space.fill], by unfold PointerOrder; decide⟩
theorem full_ready : Memory.wf {} ∧ PointerOrder { run0 with kqWr := 31 } :=
  ⟨Memory.empty_wf, by unfold PointerOrder; decide⟩
/-- Room and none; an event to pop. -/
theorem witness_KeyboardFifoIsAQueue : (kqTwo.mem.wf ∧ PointerOrder kqTwo) ∧
    (Memory.wf {} ∧ PointerOrder { run0 with kqWr := 31 }) ∧ kqTwo.kqWr + 1 ≠ kqTwo.kqRdT ∧
    { run0 with kqWr := 31 }.kqWr + 1 = { run0 with kqWr := 31 }.kqRdT ∧ kqTwo.kqRd ≠ kqTwo.kqWrB :=
  ⟨kqTwo_ready, full_ready, by decide⟩
theorem witness_OverflowKeepsFirstThirtyOne : loud.mem.wf ∧ loud.kqWr = 0 ∧ loud.kqRdT = 0 ∧ loud.soundEnT = true ∧
    loud.ovfReq = loud.ovfAckT := ⟨Memory.empty_wf, by decide⟩
theorem witness_StepKeepsPointerOrder : PointerOrder { kqTwo with inbox := [.sync .kqWr] } ∧
    Steps kqTwo (.sync .kqWr) := ⟨kqTwo_ready.2, rfl, _, rfl⟩
theorem witness_PointerOrderConsequences : PointerOrder kqTwo ∧ 0 < kqTwo.kqCount.toNat := ⟨kqTwo_ready.2, by decide⟩
theorem witness_SyncStepsCopy : ∀ x ∈ [Crossing.kqWr, .kqRd, .cur, .cfg, .cfgSound, .cfgRepeat, .ovfReq, .ovfAck],
    let s := { run0 with inbox := [.sync x] }
    s.resetPhase = .running ∧ s.nextLine = .sync x := by decide
theorem witness_SeenCopiesChangeOnlyBySync : run0.resetPhase = .running ∧ Line.tickC 5 ≠ .rstAssert ∧
    (∀ x, Line.tickC 5 ≠ .sync x) ∧ Steps run0 (.tickC 5) := ⟨rfl, by decide, nofun, rfl, _, rfl⟩

/-- A running machine with an event pushed and not yet seen, and the copy's step among the lines to come. -/
def waiting : State :=
  { run0 with
    mem := { kq := [(0, 5)] }, kqWr := 1, lastCode := 5, streak := 3
    inbox := [.tickC 5, .sync .cur, .st 0x3 7] ++ .sync .kqWr :: [] }

theorem waiting_sound : Sound waiting where
  params := by decide
  memory := by simp [waiting, Memory.wf, cellsWf, Space.fill]
  cells := by simp [CellsExist, waiting, run0, State.reset, Config.cK]
  pointers := by unfold PointerOrder; decide
  rx := by unfold RxSound; decide
  streak := by unfold StreakSound; decide
  tx := ⟨fun _ _ => rfl, by decide⟩
  phase := by unfold PhaseSound; decide
  kqWritten := by
    intro j hj
    have h0 : j = 0 := Nat.lt_one_iff.1 hj
    subst h0
    exact ⟨5, rfl, by decide⟩
  rxWritten := fun _ hj => absurd hj (Nat.not_lt_zero _)
  handshake := by unfold HandshakeSound; decide
  reset := fun h => absurd rfl h
/-- The copy is behind until its own step, which is the fourth, and agrees after it. -/
theorem witness_SeenCopyCatchesUp : Sound waiting ∧
    waiting.inbox = [.tickC 5, .sync .cur, .st 0x3 7] ++ .sync .kqWr :: [] ∧
    (∀ n < 4, ¬seenAgrees (waiting.after n) .kqWr) ∧ seenAgrees (waiting.after 4) .kqWr :=
  ⟨waiting_sound, rfl, by unfold seenAgrees; decide, by unfold seenAgrees; decide⟩
/-- A full buffer; one with room, at its last cell and at its first. -/
theorem witness_ReceivedByteIsStoredOrDropped : { run0 with rxFull := true }.rxFull = true ∧
    (∀ w ∈ [0, 7], let s := { run0 with rxWr := w }; s.rxFull = false ∧ s.rxWr < s.par.cR) ∧ run0.mem.wf :=
  ⟨rfl, by decide, Memory.empty_wf⟩
theorem witness_StatusAlwaysCompletesWithOneAction : { run0 with rxWr := 7 }.rxWr < run0.par.cR := by decide
/-- A class that sets `busy`, one that clears it, one that leaves it, and a line that is no status event. -/
theorem witness_BusyFollowsStatusClasses : run0.resetPhase = .running ∧ Steps run0 (.st 1 0) ∧ Steps run0 (.st 15 0) ∧
    Steps run0 (.st 10 0) ∧ Steps run0 (.tickC 5) ∧ (∀ cls d, Line.tickC 5 ≠ .st cls d) ∧ Line.tickC 5 ≠ .rstAssert :=
  ⟨rfl, ⟨rfl, _, rfl⟩, ⟨rfl, _, rfl⟩, ⟨rfl, _, rfl⟩, ⟨rfl, _, rfl⟩, nofun, by decide⟩
theorem witness_OverReadCyclesTheBuffer : run0.txRd = 0 := rfl
/-- A buffer with room, one that is full, one with a byte to pop. -/
theorem witness_ReceiveBufferIsAQueue : (run0.mem.wf ∧ RxSound run0 ∧ run0.rxFull = false) ∧
    (RxSound { run0 with rxFull := true } ∧ { run0 with rxFull := true }.rxEmpty = false) :=
  ⟨⟨Memory.empty_wf, by unfold RxSound; decide, rfl⟩, by unfold RxSound; decide, rfl⟩
/-- An empty view of the FIFO and one with events. -/
theorem witness_ReplyCommands : ((rxOne 0 0 0).fetchEnabled = true ∧ (rxOne 0 0 0).rxRd < (rxOne 0 0 0).par.cR) ∧
    (rxOne 0 0 0).kqRd = (rxOne 0 0 0).kqWrB ∧
    (let s := { rxOne 0 3 0 with rxRd := 7, rxWr := 7, rxFull := true, kqWrB := 1 }
     s.fetchEnabled = true ∧ s.rxRd < s.par.cR ∧ s.kqRd ≠ s.kqWrB) := ⟨fetch_ready 0, by decide⟩
theorem witness_LedCommandsSetTheirLed : ((rxOne 10 0 0).fetchEnabled = true ∧
      (rxOne 10 0 0).rxRd < (rxOne 10 0 0).par.cR) ∧
    ∀ n ∈ [0#8, 1#8, 2#8, 3#8], let s := rxOne 1 1 (10 + n)
      s.argEnabled = true ∧ s.rxRd < s.par.cR ∧ s.dpCmd.toNat = 10 + n.toNat := ⟨fetch_ready 10, by decide⟩
theorem witness_SettingCommandsStoreTheirByte : ((rxOne 20 0 0).fetchEnabled = true ∧
      (rxOne 20 0 0).rxRd < (rxOne 20 0 0).par.cR) ∧
    ∀ c ∈ [20#8, 21#8], let s := rxOne 1 1 c
      s.argEnabled = true ∧ s.rxRd < s.par.cR ∧ s.dpCmd = c ∧ s.mem.wf :=
  ⟨fetch_ready 20, fun c _ => ⟨(arg_ready 1 c).1, (arg_ready 1 c).2.1, rfl, (arg_ready 1 c).2.2.2⟩⟩
theorem witness_ReplyReachesTheMaster : ∀ c ∈ [0#8, 1#8, 2#8], (rxOne c 0 0).mem.wf ∧
    (rxOne c 0 0).fetchEnabled = true ∧ (rxOne c 0 0).rxRd < (rxOne c 0 0).par.cR ∧ (rxOne c 0 0).busy = false ∧
    (rxOne c 0 0).rxHead = c := fun c _ =>
  ⟨(arg_ready c 0).2.2.2, (fetch_ready c).1, (fetch_ready c).2, rfl, rfl⟩
theorem witness_OtherCommandsAreIgnored : ∀ c ∈ [3#8, 9#8, 14#8, 19#8, 22#8, 255#8],
    isCommand c = false ∧ (rxOne c 0 0).fetchEnabled = true ∧ (rxOne c 0 0).rxRd < (rxOne c 0 0).par.cR := by decide
/-- A `dp_cmd` that takes an argument, and one that does not. -/
theorem witness_ArgumentStepFinishesTheCommand : ∀ c ∈ [10#8, 0#8], let s := { rxOne 1 1 c with inbox := [.dArg] }
    s.resetPhase = .running ∧ s.nextLine = .dArg ∧ s.argEnabled = true ∧ s.rxRd < s.par.cR ∧
      (decodeArgumentByte 10 1 = .ok (.led0 (some 1)) ∧ takesArg 0 = false) := fun c hc => by
  fin_cases hc <;> exact ⟨rfl, rfl, rfl, (by decide : 0 < 8), rfl, rfl⟩
theorem witness_StageStepStagesTheReply :
    (let s := { run0 with dpPhase := dpStage, inbox := [.dStage] }
     s.resetPhase = .running ∧ s.nextLine = .dStage ∧ s.dpPhase = dpStage ∧ s.busy = false ∧ s.mem.wf) ∧
    (let s := { run0 with dpPhase := dpStage, busy := true }
     s.dpPhase = dpStage ∧ s.busy = true) := ⟨⟨rfl, rfl, rfl, rfl, Memory.empty_wf⟩, rfl, rfl⟩
/-- Either signal alone, in `DP_IDLE` and in the value 3; and the two waits. -/
theorem witness_HouseStepClearsOverflows : (∀ p ∈ [0#2, 3#2], ∀ a ∈ [true, false],
    let s := { run0 with dpPhase := p, rxOvf := a, ovfReqB := !a, inbox := [.dHouse] }
    s.resetPhase = .running ∧ s.nextLine = .dHouse ∧ (s.dpPhase = dpIdle ∨ s.dpPhase = 3) ∧
      (s.ovfReqB ≠ s.ovfAck ∨ s.rxOvf = true)) ∧
    { run0 with dpPhase := 1 }.dpPhase = dpArg ∧ { run0 with dpPhase := 2 }.dpPhase = dpStage := by decide
/-- Each of the two waits, with each of the dispatcher's lines. -/
theorem witness_BlockedDispatcherDoesNothing : ∀ l ∈ [Line.dFetch, .dArg, .dStage, .dHouse],
    (let s := { run0 with dpPhase := dpArg, inbox := [l] }
     s.resetPhase = .running ∧ (s.dpPhase = dpArg ∧ s.rxWr = s.rxRd ∧ s.rxFull = false) ∧ s.nextLine = l) ∧
    (let s := { run0 with dpPhase := dpStage, busy := true, inbox := [l] }
     s.resetPhase = .running ∧ (s.dpPhase = dpStage ∧ s.busy = true) ∧ s.nextLine = l) := by decide
theorem witness_WaitsEndOnlyByTheirOwnStep : (rxOne 1 1 10).resetPhase = .running ∧ (rxOne 1 1 10).dpPhase = dpArg ∧
    Steps (rxOne 1 1 10) .dArg ∧ afterLine .dArg (rxOne 1 1 10) (·.dpPhase) = some dpIdle ∧
    Steps { run0 with dpPhase := dpStage } .dStage ∧
    afterLine .dStage { run0 with dpPhase := dpStage } (·.dpPhase) = some dpIdle :=
  ⟨rfl, rfl, ⟨rfl, _, rfl⟩, by decide, ⟨rfl, _, rfl⟩, by decide⟩
theorem witness_CommandNotEnabledDoesNothing : run0.fetchEnabled = false ∧ run0.argEnabled = false := by decide
theorem witness_MissingRxCellFaults :
    (let s := { run0 with rxRd := 8 }; s.fetchEnabled = true ∧ s.par.cR ≤ s.rxRd) ∧
    (∀ c ∈ [10#8, 11#8, 12#8, 13#8, 20#8, 21#8], let s := { run0 with rxRd := 8, dpPhase := 1, dpCmd := c }
     s.argEnabled = true ∧ s.par.cR ≤ s.rxRd ∧ s.dpCmd = c) ∧
    (let s := { run0 with rxWr := 8 }; s.rxFull = false ∧ s.par.cR ≤ s.rxWr) := by decide
theorem witness_CommandFrame : Answers .getkey (rxOne 0 0 0) ∧ Answers (.led0 none) (rxOne 10 0 0) ∧
    Answers (.led0 (some 1)) (rxOne 1 1 10) ∧ Answers (.setsnd (some 1)) (rxOne 1 1 20) ∧
    Answers (.setrpt (some 1)) (rxOne 1 1 21) ∧ Answers (.setsnd none) (rxOne 20 0 0) ∧
    Answers (.setrpt none) (rxOne 21 0 0) :=
  ⟨⟨_, rfl⟩, ⟨_, rfl⟩, ⟨_, rfl⟩, ⟨_, rfl⟩, ⟨_, rfl⟩, ⟨_, rfl⟩, _, rfl⟩
theorem witness_StatusFrame : Answers (decodeStatus 0x3 7) run0 ∧ Answers (decodeStatus 0x8 7) run0 ∧
    Answers (decodeStatus 0xF 7) run0 := ⟨⟨_, rfl⟩, ⟨_, rfl⟩, ⟨_, rfl⟩⟩
/-- Each of the three changes, made by its own command. -/
theorem witness_SettingsChangeOnlyByTheirCommands : Line.dArg ≠ .rstAssert ∧
    (Steps (rxOne 1 1 20) .dArg ∧ afterLine .dArg (rxOne 1 1 20) (·.soundEn) = some 1) ∧
    (Steps (rxOne 1 1 21) .dArg ∧ afterLine .dArg (rxOne 1 1 21) (·.repeatEn) = some 1) ∧
    (Steps (rxOne 1 1 13) .dArg ∧ afterLine .dArg (rxOne 1 1 13) (·.led) = some 8) :=
  ⟨by decide, ⟨⟨rfl, _, rfl⟩, by decide⟩, ⟨⟨rfl, _, rfl⟩, by decide⟩, ⟨rfl, _, rfl⟩, by decide⟩
/-- Both signals pending, and the step that clears them. -/
theorem witness_OverflowsClearedOnlyByHouse :
    let s := { run0 with rxOvf := true, ovfReq := true, ovfReqB := true }
    HandshakeSound s ∧ s.resetPhase = .running ∧ s.rxOvf = true ∧ s.kbdOvfPending = true ∧ Steps s .dHouse ∧
      afterLine .dHouse s (fun t => (t.rxOvf, t.kbdOvfPending)) = some (false, false) :=
  ⟨by unfold HandshakeSound; decide, rfl, rfl, rfl, ⟨rfl, _, rfl⟩, by decide⟩
theorem witness_TickAndDispatcherCommute : PointerOrder kqTwo := kqTwo_ready.2
/-- One state that has all six local invariants, and steps. -/
theorem witness_StepKeepsEachLocalInvariant : waiting.mem.wf ∧ RxSound waiting ∧ StreakSound waiting ∧ TxSound waiting ∧
    PhaseSound waiting ∧ HandshakeSound waiting ∧ ∃ t, step waiting = .next t :=
  ⟨waiting_sound.memory, waiting_sound.rx, waiting_sound.streak, waiting_sound.tx, waiting_sound.phase,
    waiting_sound.handshake, _, rfl⟩
theorem witness_StepKeepsInvariant : Sound waiting ∧ ∃ t, step waiting = .next t := ⟨waiting_sound, _, rfl⟩
theorem witness_SoundMachineNeverStops : Sound waiting := waiting_sound

end Sys2Proof.Tests
end

section
/-! PROOF. The values of R25 after reset. -/

namespace Sys2Proof.Machine

/-- A cell of a space with no cell listed reads as the value an unlisted cell has. -/
theorem State.readCell_of_cells_nil {s : State} {sp : Space} (h : s.mem.cells sp = []) (i : Nat) :
    s.readCell sp i = unlistedCell sp s.epoch i := by
  simp only [State.readCell, h, findCell, Option.getD_none]

/-- `TX` with no cell listed reads as 0x00, the one content that R25 states for a buffer. -/
theorem State.readCell_tx_of_nil {s : State} (h : s.mem.tx = []) (i : Nat) : s.readCell .tx i = 0 :=
  State.readCell_of_cells_nil (sp := .tx) h i

/-- Settles O9: each register by the default that `State.reset` takes for it, in the order of R25's table; the cells
of `TX` since reset lists none of them. -/
theorem resetStateHasTheStatedValues : Obligations.ResetStateHasTheStatedValues := by
  unfold Obligations.ResetStateHasTheStatedValues
  intro s
  have tx_zero : ∀ i, i < 4 → s.readCell .tx i = 0 := fun i _ => State.readCell_tx_of_nil rfl i
  exact ⟨rfl, rfl, rfl, rfl, rfl, rfl, rfl, rfl, rfl, rfl, rfl, rfl, rfl, rfl, rfl, rfl, rfl, rfl,
    tx_zero, rfl, rfl, rfl, rfl, rfl, rfl, rfl, rfl, rfl, rfl⟩

end Sys2Proof.Machine
end

section
/-! PROOF. The synchroniser's steps (R37 to R43): a running machine takes the line of a crossing and makes that
crossing's copy, whose home signals the taking of the line leaves as they were. -/

namespace Sys2Proof.Machine

/-! ### The derived home signals -/

/-- `cur_code` (R10), with the number that `T_CONFIRM` is. -/
theorem State.curCode_eq (s : State) : s.curCode = if 3 ≤ s.streak.toNat then s.lastCode else 0 := rfl

/-- A setting as a level (R20). -/
theorem nonZero_eq_decide (b : Byte) : nonZero b = decide (b ≠ 0) := by
  simp only [nonZero, bne, ne_eq, decide_not, beq_eq_decide]

/-! ### One step of a running machine on a synchroniser's line -/

/-- A running machine takes the next line and runs it. -/
theorem step_of_running {s : State} (hr : s.resetPhase = .running) : step s = s.popLine.runLine s.nextLine := by
  simp only [step, State.stepOnce, hr]

/-- The line of a crossing presents nothing to the decoder and is never blocked. -/
theorem State.runLine_sync (s : State) (x : Crossing) : s.runLine (.sync x) = .next (s.syncStep x) := rfl

/-- A running machine whose next line is a crossing's makes that crossing's copy. -/
theorem step_sync {s : State} {x : Crossing} (hr : s.resetPhase = .running) (hl : s.nextLine = .sync x) :
    step s = .next (s.popLine.syncStep x) := by
  rw [step_of_running hr, hl, State.runLine_sync]

/-- Settles O27: each line runs its crossing's copy by `step_sync`; that copy reads its home signal after the line is
taken, which is the signal before it. -/
theorem syncStepsCopy : Obligations.SyncStepsCopy := by
  unfold Obligations.SyncStepsCopy
  intro s hr
  refine ⟨fun hl => ?kqWr, fun hl => ?kqRd, fun hl => ?cur, fun hl => ?cfg, fun hl => ?cfgSound,
    fun hl => ?cfgRepeat, fun hl => ?ovfReq, fun hl => ?ovfAck⟩ <;>
    rw [step_sync hr hl] <;> dsimp only [State.syncStep, State.syncCfg, State.quiet]
  case kqWr => rw [State.popLine_kqWr]
  case kqRd => rw [State.popLine_kqRd]
  case cur => rw [State.curCode_eq, State.popLine_streak, State.popLine_lastCode]
  case cfg => rw [State.popLine_soundEn, State.popLine_repeatEn, nonZero_eq_decide, nonZero_eq_decide]
  case cfgSound => rw [State.popLine_soundEn, nonZero_eq_decide]
  case cfgRepeat => rw [State.popLine_repeatEn, nonZero_eq_decide]
  case ovfReq => rw [State.popLine_ovfReq]
  case ovfAck => rw [State.popLine_ovfAck]

end Sys2Proof.Machine
end

section
/-! PROOF. The scanner (R61): a row is unambiguous exactly when its count of asserted columns is 1, and `SCAN` finds the
lowest such row. -/

namespace Sys2Proof.Machine

/-! ### One row -/

/-- Column `c` is asserted in row `r` and no other column of the row is: the row is unambiguous (R61). -/
def OnlyColumn (m : BitVec 16) (r c : Nat) : Prop :=
  ∀ c', c' < 4 → matrixFlag m r c' = decide (c' = c)

/-- The flags of a row, taken one by one. -/
theorem onlyColumn_iff (m : BitVec 16) (r c : Nat) :
    OnlyColumn m r c ↔
      matrixFlag m r 0 = decide (0 = c) ∧ matrixFlag m r 1 = decide (1 = c) ∧
      matrixFlag m r 2 = decide (2 = c) ∧ matrixFlag m r 3 = decide (3 = c) := by
  simp only [OnlyColumn, Nat.forall_lt_succ_left, Nat.not_lt_zero, false_implies, implies_true, and_true, Nat.zero_add,
    Nat.reduceAdd]

/-- An unambiguous row counts one column. -/
theorem OnlyColumn.rowCount_eq {m : BitVec 16} {r c : Nat} (h : OnlyColumn m r c) (hc : c < 4) :
    rowCount m r = 1 := by
  obtain ⟨h0, h1, h2, h3⟩ := (onlyColumn_iff m r c).mp h
  rw [rowCount, h0, h1, h2, h3]
  interval_cases c <;> rfl

/-- The lowest asserted column of an unambiguous row is its one asserted column. -/
theorem OnlyColumn.rowColumn_eq {m : BitVec 16} {r c : Nat} (h : OnlyColumn m r c) (hc : c < 4) :
    rowColumn m r = c := by
  obtain ⟨h0, h1, h2, -⟩ := (onlyColumn_iff m r c).mp h
  rw [rowColumn, h0, h1, h2]
  interval_cases c <;> rfl

/-- A row that counts one column has no column asserted but its lowest. -/
theorem onlyColumn_rowColumn {m : BitVec 16} {r : Nat} (h : rowCount m r = 1) : OnlyColumn m r (rowColumn m r) := by
  rw [onlyColumn_iff]
  unfold rowCount at h
  unfold rowColumn
  generalize matrixFlag m r 0 = b0, matrixFlag m r 1 = b1, matrixFlag m r 2 = b2, matrixFlag m r 3 = b3 at h ⊢
  revert b0 b1 b2 b3
  decide

theorem rowColumn_lt (m : BitVec 16) (r : Nat) : rowColumn m r < 4 := by
  unfold rowColumn
  split_ifs <;> decide

/-- The model's count says that a row is unambiguous (R61). -/
theorem rowCount_eq_one_iff (m : BitVec 16) (r : Nat) : rowCount m r = 1 ↔ ∃ c, c < 4 ∧ OnlyColumn m r c :=
  ⟨fun h => ⟨rowColumn m r, rowColumn_lt m r, onlyColumn_rowColumn h⟩, fun ⟨_, hc, h⟩ => h.rowCount_eq hc⟩

/-! ### The scan -/

/-- `SCAN` over rows is a search for the first row that counts one column. -/
theorem scanRows_eq_find? (par : Config.Params) (m : BitVec 16) (rows : List Nat) :
    scanRows par m rows =
      ((rows.find? (rowCount m · = 1)).map fun r => keyAt par r (rowColumn m r)).getD 0 := by
  induction rows with
  | nil => rfl
  | cons r rest ih => by_cases h : rowCount m r = 1 <;> simp [scanRows, h, ih]

theorem scan_eq_find? (par : Config.Params) (m : BitVec 16) :
    scan par m =
      (((List.range 4).find? (rowCount m · = 1)).map fun r => keyAt par r (rowColumn m r)).getD 0 :=
  scanRows_eq_find? par m (List.range 4)

/-- The lowest unambiguous row decides, by its one asserted column (R61). -/
theorem scan_of_onlyColumn {par : Config.Params} {m : BitVec 16} {r c : Nat} (hr : r < 4) (hc : c < 4)
    (h : OnlyColumn m r c) (below : ∀ r', r' < r → ¬∃ d, d < 4 ∧ OnlyColumn m r' d) :
    scan par m = keyAt par r c := by
  have found : (List.range 4).find? (rowCount m · = 1) = some r := by
    simp only [List.find?_range_eq_some, decide_eq_true_eq, List.mem_range, Bool.not_eq_true', decide_eq_false_iff_not]
    exact ⟨h.rowCount_eq hc, hr, fun r' hr' => mt (rowCount_eq_one_iff m r').mp (below r' hr')⟩
  rw [scan_eq_find?, found, Option.map_some, Option.getD_some, h.rowColumn_eq hc]

/-- Without an unambiguous row there is no code (R61). -/
theorem scan_of_no_onlyColumn {par : Config.Params} {m : BitVec 16}
    (none_of : ∀ r, r < 4 → ¬∃ d, d < 4 ∧ OnlyColumn m r d) : scan par m = 0 := by
  have not_found : (List.range 4).find? (rowCount m · = 1) = none := by
    simp only [List.find?_range_eq_none, Bool.not_eq_true', decide_eq_false_iff_not]
    exact fun r hr => mt (rowCount_eq_one_iff m r).mp (none_of r hr)
  rw [scan_eq_find?, not_found, Option.map_none, Option.getD_none]

/-- `KEYMAP[r][c]` is entry `4*r + c` of the table (R63). -/
theorem keyAt_of_getElem? {par : Config.Params} {r c : Nat} {k : Byte} (h : par.keymap[4 * r + c]? = some k) :
    keyAt par r c = k := by
  rw [keyAt, List.getD_eq_getElem?_getD, h, Option.getD_some]

/-- Settles O14: the row and column given decide the scan by `scan_of_onlyColumn`; their code is the entry of the key
map, which the default table fills with a number that fits a byte. -/
theorem scanTakesFirstUnambiguousRow : Obligations.ScanTakesFirstUnambiguousRow := by
  unfold Obligations.ScanTakesFirstUnambiguousRow
  intro par m
  refine ⟨fun r c hr hc only below => ?_, scan_of_no_onlyColumn⟩
  have code : scan par m = keyAt par r c := scan_of_onlyColumn hr hc only below
  refine ⟨fun k hk => code.trans (keyAt_of_getElem? hk), fun table => ?_⟩
  have entry : keyAt par r c = BitVec.ofNat 8 (4 * r + c + 1) :=
    keyAt_of_getElem? (table (4 * r + c) (by omega))
  rw [code, entry, BitVec.toNat_ofNat]
  omega

end Sys2Proof.Machine
end

section
/-! PROOF. One tick of the debounce machine (R64, R65, R72): it either emits nothing and writes `last_code` and `streak`
alone, or emits its own code once, by a push that the producer's view of the FIFO stores or drops. -/

namespace Sys2Proof.Machine

/-! ### An emission -/

/-- An emission that finds room stores the event in the cell at `kq_wr` (R65, R72). -/
theorem State.emit_of_room {s : State} (k : Byte) (room : s.kqWr + 1 ≠ s.kqRdT) :
    s.emit k =
      { s.writeCell .kq s.kqWr.toNat k with
        kqWr := s.kqWr + 1
        out := { s.out with emitted := some k, click := s.soundEnT || s.out.click } } := by
  rw [State.emit_eq]
  exact if_neg room

/-- An emission that finds the FIFO full drops the event, and toggles `ovf_req` when sound is enabled and no raise is
outstanding (R65, R72, R123). -/
theorem State.emit_of_full {s : State} (k : Byte) (full : s.kqWr + 1 = s.kqRdT) :
    s.emit k =
      { s with
        ovfReq := if s.soundEnT = true ∧ s.ovfReq = s.ovfAckT then !s.ovfReq else s.ovfReq
        out := { s.out with
          emitted := some k, click := s.soundEnT || s.out.click, raised := some (.kqOvf k) } } := by
  rw [State.emit_eq, State.kqPush, if_pos full, State.raise_eq]
  simp only [Bool.and_eq_true, beq_iff_eq]

/-- The ports that an emission drives or leaves, whether or not the FIFO accepts the event (R65). -/
theorem State.emit_ports (s : State) (k : Byte) :
    (s.emit k).out.emitted = some k ∧ (s.emit k).out.click = (s.soundEnT || s.out.click) ∧
      (s.emit k).out.alert = s.out.alert ∧ (s.emit k).out.action = s.out.action ∧
      (s.emit k).out.nvmStore = s.out.nvmStore := by
  by_cases full : s.kqWr + 1 = s.kqRdT
  · rw [State.emit_of_full k full]
    exact ⟨rfl, rfl, rfl, rfl, rfl⟩
  · rw [State.emit_of_room k full]
    exact ⟨rfl, rfl, rfl, rfl, rfl⟩

/-- An emission writes no cell but the one at `kq_wr`. -/
theorem State.emit_sameCellsBut (s : State) (k : Byte) : SameCellsBut .kq s.kqWr.toNat s (s.emit k) := by
  intro sp i other
  by_cases full : s.kqWr + 1 = s.kqRdT
  · rw [State.emit_of_full k full]
    rfl
  · rw [State.emit_of_room k full]
    exact State.readCell_writeCell_other (s := s) k other

/-! ### A tick, with or without an emission -/

/-- `TICK.C` is one tick, never blocked (R71). -/
theorem exec_tickC (k : Byte) (s : State) : exec (.tickC k) s = .next (s.tick k) := rfl

/-- A tick writes `last_code` and `streak` alone, or emits its own code once and writes `streak`. -/
theorem State.tick_silent_or_emits (s : State) (k : Byte) :
    (∃ c n, s.tick k = { s.quiet with lastCode := c, streak := n }) ∨
      ∃ n, s.tick k = { s.quiet.emit k with streak := n } := by
  obtain ⟨-, h⟩ | ⟨-, -, h⟩ | ⟨-, -, -, -, h⟩ | ⟨-, -, -, h⟩ | ⟨-, -, -, -, h⟩ := s.tick_cases k
  · exact .inl ⟨_, _, h⟩
  · exact .inl ⟨_, _, h⟩
  · exact .inl ⟨_, _, h⟩
  · exact .inr ⟨_, h⟩
  · exact .inr ⟨_, h⟩

/-- A tick changes nothing of another agent's (R24, R64). -/
theorem State.tick_sameOthers (s : State) (k : Byte) :
    SameSeen s (s.tick k) ∧ SameEngine s (s.tick k) ∧ SameShared s (s.tick k) ∧ SameDispatcher s (s.tick k) ∧
      SameModel s (s.tick k) := by
  obtain ⟨c, n, h⟩ | ⟨n, h⟩ := s.tick_silent_or_emits k <;>
    simp [h, SameSeen, SameEngine, SameShared, SameDispatcher, SamePhase, SameSettings, SameModel]

/-- A tick writes no cell but the one of `KQ` at `kq_wr`. -/
theorem State.tick_sameCellsBut (s : State) (k : Byte) : SameCellsBut .kq s.kqWr.toNat s (s.tick k) := by
  intro sp i other
  obtain ⟨c, n, h⟩ | ⟨n, h⟩ := s.tick_silent_or_emits k
  · rw [h]
    rfl
  · rw [h]
    exact s.quiet.emit_sameCellsBut k sp i other

/-- A tick clicks exactly when it emits with sound enabled, and drives no port of domain B (R22, R65). -/
theorem State.tick_ports (s : State) (k : Byte) :
    (s.tick k).out.click = (s.soundEnT && (s.tick k).out.emitted.isSome) ∧ (s.tick k).out.alert = false ∧
      (s.tick k).out.action = none ∧ (s.tick k).out.nvmStore = none := by
  obtain ⟨c, n, h⟩ | ⟨n, h⟩ := s.tick_silent_or_emits k
  · simp [h]
  · obtain ⟨emitted, click, alert, action, nvmStore⟩ := s.quiet.emit_ports k
    simp [h, emitted, click, alert, action, nvmStore]

/-! ### The three branches -/

/-- The clamp does not touch `T_CONFIRM`: the next count is 3 exactly from 2. -/
theorem streakNext_eq_confirm (n : BitVec 7) : (streakNext n).toNat = 3 ↔ n.toNat + 1 = 3 := by
  rw [streakNext_toNat]
  omega

/-- The next count is `T_REPEAT` once the sum, formed without wrapping, reaches it (R119). -/
theorem streakNext_eq_repeat (n : BitVec 7) : (streakNext n).toNat = 75 ↔ 75 ≤ n.toNat + 1 := by
  rw [streakNext_toNat]
  omega

/-- No key (R64 (1)). -/
theorem State.tick_of_zero (s : State) :
    (s.tick 0).lastCode = 0 ∧ (s.tick 0).streak = 0 ∧ (s.tick 0).out.emitted = none := by
  rw [State.tick, if_pos rfl]
  exact ⟨rfl, rfl, rfl⟩

/-- Another key than before (R64 (2)). -/
theorem State.tick_of_other {s : State} {k : Byte} (h0 : k ≠ 0) (hk : k ≠ s.lastCode) :
    (s.tick k).lastCode = k ∧ (s.tick k).streak = 1 ∧ (s.tick k).out.emitted = none := by
  rw [State.tick, if_neg h0, if_pos hk]
  exact ⟨rfl, rfl, rfl⟩

/-- The same key again (R64 (3)): the tick counts, and emits at the confirmation and, with repeat enabled, at every
count that saturates, from which it rolls back. -/
theorem State.tick_of_same {s : State} {k : Byte} (h0 : k ≠ 0) (hk : k = s.lastCode) :
    (s.tick k).lastCode = k ∧
      (s.tick k).streak.toNat =
        (if s.repeatEnT = true ∧ 75 ≤ s.streak.toNat + 1 then 60 else min (s.streak.toNat + 1) 75) ∧
      (s.tick k).out.emitted =
        (if s.streak.toNat + 1 = 3 ∨ (s.repeatEnT = true ∧ 75 ≤ s.streak.toNat + 1) then some k else none) := by
  have emitted : (s.quiet.emit k).out.emitted = some k := (s.quiet.emit_ports k).1
  have code : (s.quiet.emit k).lastCode = k := (s.quiet.emit_lastCode k).trans hk.symm
  obtain ⟨zero, -⟩ | ⟨-, other, -⟩ | ⟨-, -, n3, nrep, h⟩ | ⟨-, -, n3, h⟩ | ⟨-, -, rep, n75, h⟩ := s.tick_cases k
  · exact absurd zero h0
  · exact absurd hk other
  · rw [ne_eq, streakNext_eq_confirm] at n3
    rw [streakNext_eq_repeat] at nrep
    rw [h, if_neg nrep, if_neg (not_or.mpr ⟨n3, nrep⟩)]
    exact ⟨hk.symm, streakNext_toNat s.streak, rfl⟩
  · rw [streakNext_eq_confirm] at n3
    have nrep : ¬(s.repeatEnT = true ∧ 75 ≤ s.streak.toNat + 1) := by omega
    rw [h, if_neg nrep, if_pos (.inl n3)]
    exact ⟨code, streakNext_toNat s.streak, emitted⟩
  · rw [streakNext_eq_repeat] at n75
    rw [h, if_pos ⟨rep, n75⟩, if_pos (.inr ⟨rep, n75⟩)]
    exact ⟨code, rfl, emitted⟩

/-- Settles O12: the tick itself is the next state; its frame and its ports by whether it emits, its registers and its
emission by the three branches of R64. -/
theorem tickTransition : Obligations.TickTransition := by
  unfold Obligations.TickTransition
  intro k s
  obtain ⟨seen, engine, shared, dispatcher, model⟩ := s.tick_sameOthers k
  obtain ⟨click, alert, action, nvmStore⟩ := s.tick_ports k
  have cells : ∀ sp i, sp ≠ .kq → (s.tick k).readCell sp i = s.readCell sp i := fun sp i hsp =>
    s.tick_sameCellsBut k sp i fun here => hsp here.1
  exact ⟨s.tick k, exec_tickC k s, seen, engine, shared, dispatcher, model, cells, click, alert, action, nvmStore,
    fun h0 => h0 ▸ s.tick_of_zero, State.tick_of_other, State.tick_of_same⟩

/-! ### What an emission does to the FIFO and the overflow signal -/

/-- A tick that emits nothing leaves the FIFO and the overflow signal as they were. -/
theorem State.tick_silent {s : State} {k : Byte} (silent : (s.tick k).out.emitted = none) :
    (s.tick k).out.click = false ∧ (s.tick k).kqWr = s.kqWr ∧ (s.tick k).ovfReq = s.ovfReq ∧
      SameCells s (s.tick k) := by
  obtain ⟨c, n, h⟩ | ⟨n, h⟩ := s.tick_silent_or_emits k
  · rw [h]
    exact ⟨rfl, rfl, rfl, fun _ _ => rfl⟩
  · have emitted : (s.tick k).out.emitted = some k := by rw [h]; exact (s.quiet.emit_ports k).1
    exact absurd (emitted.symm.trans silent) (by simp)

/-- A tick that emits is the emission of its own code, but for `streak`. -/
theorem State.tick_emits {s : State} {k : Byte} (emits : (s.tick k).out.emitted ≠ none) :
    ∃ n, s.tick k = { s.quiet.emit k with streak := n } := by
  obtain ⟨c, n, h⟩ | h := s.tick_silent_or_emits k
  · exact absurd (by rw [h]; rfl) emits
  · exact h

/-- A tick that emits with room in the FIFO stores its code at `kq_wr` and raises nothing (R72). -/
theorem State.tick_emits_of_room {s : State} {k : Byte} (wf : s.mem.wf) (emits : (s.tick k).out.emitted ≠ none)
    (room : s.kqWr + 1 ≠ s.kqRdT) :
    (s.tick k).kqWr = s.kqWr + 1 ∧ (s.tick k).readCell .kq s.kqWr.toNat = k ∧ (s.tick k).ovfReq = s.ovfReq ∧
      (s.tick k).out.raised = none := by
  obtain ⟨n, h⟩ := State.tick_emits emits
  rw [h, State.emit_of_room (s := s.quiet) k room]
  exact ⟨rfl, State.readCell_writeCell_same (s := s.quiet) .kq s.kqWr.toNat k wf, rfl, rfl⟩

/-- A tick that emits into a full FIFO drops its code, which it reports, and raises the overflow signal under the
guard of R72. -/
theorem State.tick_emits_of_full {s : State} {k : Byte} (emits : (s.tick k).out.emitted ≠ none)
    (full : s.kqWr + 1 = s.kqRdT) :
    (s.tick k).kqWr = s.kqWr ∧ SameCells s (s.tick k) ∧ (s.tick k).out.raised = some (.kqOvf k) ∧
      (s.tick k).ovfReq = (if s.soundEnT = true ∧ s.ovfReq = s.ovfAckT then !s.ovfReq else s.ovfReq) := by
  obtain ⟨n, h⟩ := State.tick_emits emits
  rw [h, State.emit_of_full (s := s.quiet) k full]
  exact ⟨rfl, fun _ _ => rfl, rfl, rfl⟩

/-- Settles O13: a silent tick by `State.tick_silent`; one that emits has the ports of its emission, and the FIFO and
the signal by whether the producer sees room. -/
theorem tickEmissionEffect : Obligations.TickEmissionEffect := by
  unfold Obligations.TickEmissionEffect
  intro k s t wf run
  obtain rfl : s.tick k = t := by rwa [exec_tickC, Host.Outcome.next.injEq] at run
  refine ⟨State.tick_silent, fun emits => ?ports, fun emits room => ?stored, State.tick_emits_of_full⟩
  case ports =>
    obtain ⟨n, h⟩ := State.tick_emits emits
    obtain ⟨emitted, click, -⟩ := s.quiet.emit_ports k
    rw [h]
    exact ⟨emitted, by simp [click]⟩
  case stored =>
    obtain ⟨kqWr, cell, ovfReq, raised⟩ := State.tick_emits_of_room wf emits room
    exact ⟨kqWr, cell, s.tick_sameCellsBut k, ovfReq, raised⟩

end Sys2Proof.Machine
end

section
/-! PROOF. The keyboard FIFO as its consumer sees it (R73 to R75). -/

namespace Sys2Proof.Machine

/-! ### `KQ_POP0` and `KQ_COUNT` on the consumer's view -/

/-- On an empty view `KQ_POP0` answers 0 and moves nothing (R73). -/
theorem State.kqPop0_of_empty {s : State} (empty : s.kqRd = s.kqWrB) : s.kqPop0 = (0, s) := by
  obtain ⟨-, h⟩ | ⟨event, -⟩ := s.kqPop0_cases
  · exact h
  · exact absurd empty event

/-- On a non-empty view `KQ_POP0` answers the event at `kq_rd`, and moves nothing but `kq_rd` (R73). -/
theorem State.kqPop0_of_event {s : State} (event : s.kqRd ≠ s.kqWrB) :
    s.kqPop0 = (s.readCell .kq s.kqRd.toNat, { s with kqRd := s.kqRd + 1 }) := by
  obtain ⟨empty, -⟩ | ⟨-, h⟩ := s.kqPop0_cases
  · exact absurd empty event
  · exact h

/-- `KQ_COUNT` is the distance from `kq_rd` to `kq_wr_B` around the 32 cells (R75). -/
theorem State.kqCount_toNat (s : State) :
    s.kqCount.toNat = (s.kqWrB.toNat + 32 - s.kqRd.toNat) % 32 := by
  have rd_lt : s.kqRd.toNat < 32 := s.kqRd.isLt
  rw [State.kqCount, BitVec.toNat_sub]
  omega

/-- Settles O21: `KQ_POP0` by whether the view is empty; `KQ_CLEAR` is its own definition, a move of `kq_rd` alone;
`KQ_COUNT` by the subtraction of five-bit words. -/
theorem kqConsumerOperations : Obligations.KqConsumerOperations := by
  unfold Obligations.KqConsumerOperations
  exact ⟨fun _ => State.kqPop0_of_empty, fun _ => State.kqPop0_of_event, fun _ => rfl, State.kqCount_toNat⟩

end Sys2Proof.Machine
end

section
/-! PROOF. The bus slave engine (R79 to R93): each status class has one meaning, and the classes share five between
them. An address event of a write, the end of a transaction, the next byte of a read and the recovery from an error
are one exact next state each; a byte received is dropped or stored. -/

namespace Sys2Proof.Machine

/-! ### The meaning of each class -/

theorem exec_stBusError (s : State) : exec .stBusError s = .next (s.busRecovery 0x0) := rfl
theorem exec_stSlaWAck (s : State) : exec .stSlaWAck s = .next s.addressedForWrite := rfl
theorem exec_stGcAck (s : State) : exec .stGcAck s = .next s.addressedForWrite := rfl
theorem exec_stRxDataAck (d : Byte) (s : State) : exec (.stRxDataAck d) s = s.quiet.rxPush d := rfl
theorem exec_stGcRxDataAck (d : Byte) (s : State) : exec (.stGcRxDataAck d) s = s.quiet.rxPush d := rfl
theorem exec_stRxDataNack (s : State) : exec .stRxDataNack s = .next (s.busRecovery 0x5) := rfl
theorem exec_stStopRestart (s : State) : exec .stStopRestart s = .next s.transactionEnd := rfl
theorem exec_stSlaRAck (s : State) : exec .stSlaRAck s = .next s.quiet.txNext := rfl
theorem exec_stTxDataAck (s : State) : exec .stTxDataAck s = .next s.quiet.txNext := rfl
theorem exec_stTxDataNack (s : State) : exec .stTxDataNack s = .next s.transactionEnd := rfl
theorem exec_stTxLastAck (s : State) : exec .stTxLastAck s = .next (s.busRecovery 0xA) := rfl
theorem exec_stUnrecognized (cls : BitVec 4) (s : State) :
    exec (.stUnrecognized cls) s = .next s.transactionEnd := rfl

/-- The classes from 0xB on are the unrecognised ones (R56, R93). -/
theorem decodeStatus_of_unrecognized {cls : BitVec 4} (d : Byte) (unrecognized : 11 ≤ cls.toNat) :
    decodeStatus cls d = .stUnrecognized cls := by
  have ne_of_lt (c : BitVec 4) (known : c.toNat < 11) : cls ≠ c := by
    rintro rfl
    omega
  unfold decodeStatus
  iterate 11 rw [if_neg (ne_of_lt _ (by decide))]

/-! ### The exact next states -/

/-- The address event of a write sets `busy` and arms one more byte (R85, R86). -/
theorem State.addressedForWrite_eq (s : State) :
    s.addressedForWrite = { s with busy := true, out := { action := some .armRx } } := rfl

/-- The end of a transaction clears `busy` and arms the next address match (R84, R89, R93). -/
theorem State.transactionEnd_eq (s : State) :
    s.transactionEnd = { s with busy := false, out := { action := some .armAddr } } := rfl

/-- The recovery from an error drives its action and leaves the rest to the trace: `E_BUS` has no lasting effect
(R90 to R92, R131). -/
theorem State.busRecovery_eq (s : State) (cls : BitVec 4) :
    s.busRecovery cls = { s with out := { action := some .releaseBus, raised := some (.bus cls) } } := by
  rw [State.busRecovery, State.raise_eq]
  rfl

/-- An index of `TX` wraps around after cell 3 (R29, R80). -/
theorem txIndex_succ (i : BitVec 2) : i + 1 = BitVec.ofNat 2 ((i.toNat + 1) % 4) := by
  apply BitVec.eq_of_toNat_eq
  rw [BitVec.toNat_add, BitVec.toNat_ofNat, Nat.mod_mod]
  rfl

/-- `TX_NEXT` on idle ports: the byte at `tx_rd` is sent, `tx_rd` advances around the four cells, `busy` is set
(R80). -/
theorem State.quiet_txNext_eq (s : State) :
    s.quiet.txNext =
      { s with
        txRd := BitVec.ofNat 2 ((s.txRd.toNat + 1) % 4)
        busy := true
        out := { action := some (.send (s.readCell .tx s.txRd.toNat)) } } := by
  rw [← txIndex_succ]
  rfl

/-- Settles O30: each class by its meaning, with that meaning's exact next state; the classes from 0xB on decode
alike. -/
theorem addressAndEndEvents : Obligations.AddressAndEndEvents := by
  unfold Obligations.AddressAndEndEvents
  intro s d
  refine ⟨⟨rfl, ?slaWAck⟩, ⟨rfl, ?gcAck⟩, ⟨rfl, ?txDataNack⟩, ⟨rfl, ?stopRestart⟩,
    fun cls member => ⟨?decoded, ?unrecognized⟩⟩
  case slaWAck => rw [exec_stSlaWAck, State.addressedForWrite_eq]
  case gcAck => rw [exec_stGcAck, State.addressedForWrite_eq]
  case txDataNack => rw [exec_stTxDataNack, State.transactionEnd_eq]
  case stopRestart => rw [exec_stStopRestart, State.transactionEnd_eq]
  case decoded =>
    have from_eleven : ∀ c ∈ [0xB#4, 0xC#4, 0xD#4, 0xE#4, 0xF#4], 11 ≤ c.toNat := by decide
    exact decodeStatus_of_unrecognized d (from_eleven cls member)
  case unrecognized => rw [exec_stUnrecognized, State.transactionEnd_eq]

/-- Settles O31: both events of a read are `TX_NEXT`. -/
theorem readEventsSendNextByte : Obligations.ReadEventsSendNextByte := by
  unfold Obligations.ReadEventsSendNextByte
  intro s d
  refine ⟨rfl, rfl, fun i member => ?_⟩
  have sends : exec i s = .next s.quiet.txNext := by
    obtain rfl | rfl := List.mem_pair.1 member
    · exact exec_stSlaRAck s
    · exact exec_stTxDataAck s
  rw [sends, State.quiet_txNext_eq]

/-- Settles O32: the three classes recover the bus, each with its own number in the trace. -/
theorem errorClassesReleaseTheBus : Obligations.ErrorClassesReleaseTheBus := by
  unfold Obligations.ErrorClassesReleaseTheBus
  intro s d
  refine ⟨⟨rfl, ?busError⟩, ⟨rfl, ?rxDataNack⟩, ⟨rfl, ?txLastAck⟩⟩
  case busError => rw [exec_stBusError, State.busRecovery_eq]
  case rxDataNack => rw [exec_stRxDataNack, State.busRecovery_eq]
  case txLastAck => rw [exec_stTxLastAck, State.busRecovery_eq]

/-! ### A byte received -/

/-- `RX_PUSH` on a full buffer drops the byte, sets `rx_ovf` and arms one more byte (R81, R122). -/
theorem State.rxPush_of_full {s : State} (d : Byte) (full : s.rxFull = true) :
    s.rxPush d =
      .next { s with
        rxOvf := true
        out := { s.out with action := some .armRx, raised := some (.rxOvf d) } } := by
  rw [State.rxPush, if_pos full, State.raise_eq]
  rfl

/-- `RX_PUSH` on a buffer with room stores the byte at an index that exists and arms one more byte (R81). -/
theorem State.rxPush_of_room {s : State} (d : Byte) (room : s.rxFull = false) (index : s.rxWr < s.par.cR) :
    s.rxPush d = .next ((s.rxStore d).drive .armRx) := by
  rw [State.rxPush, room, if_neg Bool.false_ne_true, if_pos index]

/-- The byte stored is the one the cell at `rx_wr` then holds. -/
theorem State.readCell_rxStore_same {s : State} (d : Byte) (wf : s.mem.wf) :
    (s.rxStore d).readCell .rx s.rxWr = d :=
  State.readCell_writeCell_same (s := s) .rx s.rxWr d wf

/-- Storing a byte writes no cell but the one at `rx_wr`. -/
theorem State.rxStore_sameCellsBut (s : State) (d : Byte) : SameCellsBut .rx s.rxWr s (s.rxStore d) :=
  fun _ _ other => State.readCell_writeCell_other (s := s) d other

/-- Storing a byte in a buffer that has room fills it exactly when the write index comes round to the read index
(R81). -/
theorem State.rxStore_rxFull_of_room {s : State} (d : Byte) (room : s.rxFull = false) :
    (s.rxStore d).rxFull = decide ((s.rxStore d).rxWr = s.rxRd) := by
  rw [State.rxStore_rxFull, room, Bool.or_false, State.rxStore_rxWr]

/-- Settles O33: both receive classes are `RX_PUSH`, which drops or stores by `rx_full`. -/
theorem receivedByteIsStoredOrDropped : Obligations.ReceivedByteIsStoredOrDropped := by
  unfold Obligations.ReceivedByteIsStoredOrDropped
  intro s d
  refine ⟨rfl, rfl, fun i member => ?_⟩
  have pushes : exec i s = s.quiet.rxPush d := by
    obtain rfl | rfl := List.mem_pair.1 member
    · exact exec_stRxDataAck d s
    · exact exec_stGcRxDataAck d s
  rw [pushes]
  refine ⟨fun full => ?dropped, fun room index wf => ?stored⟩
  case dropped =>
    rw [State.rxPush_of_full (s := s.quiet) d full]
    rfl
  case stored =>
    refine ⟨_, State.rxPush_of_room (s := s.quiet) d room index, ?_⟩
    exact ⟨State.readCell_rxStore_same (s := s.quiet) d wf, s.quiet.rxStore_sameCellsBut d, rfl,
      State.rxStore_rxFull_of_room (s := s.quiet) d room, rfl, rfl, rfl, ⟨rfl, rfl, rfl, rfl⟩,
      ⟨rfl, rfl, rfl, rfl, rfl, rfl, rfl⟩, ⟨rfl, rfl, rfl, rfl, ⟨rfl, rfl, rfl⟩, rfl, rfl, rfl⟩,
      ⟨rfl, rfl, rfl, rfl, rfl⟩, rfl⟩

end Sys2Proof.Machine
end

section
/-! PROOF. The dispatcher in `DP_STAGE` (R99, R101, R114): `D_STAGE` is the one step that can be enabled, and it waits
for the engine to be idle. -/

namespace Sys2Proof.Machine

/-! ### What is enabled in `DP_STAGE` -/

theorem State.phaseIdle_of_dpStage {s : State} (stage : s.dpPhase = dpStage) : s.phaseIdle = false := by
  rw [State.phaseIdle, stage]
  decide

theorem State.fetchEnabled_of_dpStage {s : State} (stage : s.dpPhase = dpStage) : s.fetchEnabled = false := by
  rw [State.fetchEnabled, State.phaseIdle_of_dpStage stage, Bool.false_and]

theorem State.houseEnabled_of_dpStage {s : State} (stage : s.dpPhase = dpStage) : s.houseEnabled = false := by
  rw [State.houseEnabled, State.phaseIdle_of_dpStage stage, Bool.false_and]

theorem State.argEnabled_of_dpStage {s : State} (stage : s.dpPhase = dpStage) : s.argEnabled = false := by
  have not_arg : (dpStage == dpArg) = false := by decide
  rw [State.argEnabled, stage, not_arg, Bool.false_and]

/-- In `DP_STAGE` it is the engine alone that decides about `D_STAGE` (R101). -/
theorem State.stageEnabled_of_dpStage {s : State} (stage : s.dpPhase = dpStage) : s.stageEnabled = !s.busy := by
  rw [State.stageEnabled, stage, beq_self_eq_true, Bool.true_and]

/-! ### The staging -/

/-- The line of `D_STAGE` presents nothing to the decoder. -/
theorem State.runLine_dStage (s : State) : s.runLine .dStage = .next s.stageStep := rfl

/-- `D_STAGE`, enabled, stages the reply and is idle again (R114). -/
theorem State.stageStep_of_enabled {s : State} (enabled : s.stageEnabled = true) :
    s.stageStep = { s.quiet.txStage s.dpReply with dpPhase := dpIdle } := if_pos enabled

/-- Taking a line leaves every cell as it was. -/
theorem State.popLine_sameCells (s : State) : SameCells s s.popLine :=
  State.readCell_congr s.popLine_mem s.popLine_epoch

/-- The reply staged is what cell 0 of `TX` then holds. -/
theorem State.readCell_txStage_same {s : State} (v : Byte) (wf : s.mem.wf) : (s.txStage v).readCell .tx 0 = v :=
  State.readCell_writeCell_same (s := s) .tx 0 v wf

/-- Staging writes no cell but cell 0 of `TX`. -/
theorem State.txStage_sameCellsBut (s : State) (v : Byte) : SameCellsBut .tx 0 s (s.txStage v) :=
  fun _ _ other => State.readCell_writeCell_other (s := s) v other

/-- Settles O43: an idle engine enables `D_STAGE`, which stages the reply once its line is taken; a busy engine
disables it, and `DP_STAGE` disables the other three steps. -/
theorem stageStepStagesTheReply : Obligations.StageStepStagesTheReply := by
  unfold Obligations.StageStepStagesTheReply
  refine ⟨fun s running line stage idle wf => ?staged, fun s stage busy => ?blocked⟩
  case staged =>
    have enabled : s.popLine.stageEnabled = true := by
      rw [State.stageEnabled_of_dpStage (s.popLine_dpPhase.trans stage), State.popLine_busy, idle, Bool.not_false]
    have stepped : step s = .next { s.popLine.quiet.txStage s.dpReply with dpPhase := dpIdle } := by
      rw [step_of_running running, line, State.runLine_dStage, State.stageStep_of_enabled enabled,
        State.popLine_dpReply]
    have wf_popped : s.popLine.quiet.mem.wf := s.popLine_mem ▸ wf
    refine ⟨_, stepped, State.readCell_txStage_same s.dpReply wf_popped, fun sp i other => ?_, rfl⟩
    calc (s.popLine.quiet.txStage s.dpReply).readCell sp i
      _ = s.popLine.readCell sp i := s.popLine.quiet.txStage_sameCellsBut s.dpReply sp i other
      _ = s.readCell sp i := s.popLine_sameCells sp i
  case blocked =>
    rw [State.dispatcherIdle, State.fetchEnabled_of_dpStage stage, State.argEnabled_of_dpStage stage,
      State.stageEnabled_of_dpStage stage, State.houseEnabled_of_dpStage stage, busy]
    rfl

end Sys2Proof.Machine
end

section
/-! PROOF. The dispatcher's commands (R102 to R113). A command runs inside the step that pops its byte: the replies
and the ignored codes inside `D_FETCH`, a command with an argument first inside `D_FETCH`, which keeps its code, and
then inside `D_ARG`, which finishes it. -/

namespace Sys2Proof.Machine

/-! ### The meaning of each command -/

theorem exec_getkey (s : State) :
    exec .getkey s = s.fetchStep fun t => (t.kqPop0.2.kqClear).awaitStage t.kqPop0.1 := rfl
theorem exec_getcur (s : State) : exec .getcur s = s.fetchStep fun t => t.kqClear.awaitStage t.curCodeB := rfl
theorem exec_getcnt (s : State) :
    exec .getcnt s = s.fetchStep fun t => t.awaitStage (t.kqCount.zeroExtend 8) := rfl
theorem exec_setsnd (arg : Option Byte) (s : State) :
    exec (.setsnd arg) s = s.cmd2 20 arg fun a t => { t.nvmWrite t.par.slotSound a with soundEn := a } := rfl
theorem exec_setrpt (arg : Option Byte) (s : State) :
    exec (.setrpt arg) s = s.cmd2 21 arg fun a t => { t.nvmWrite t.par.slotRepeat a with repeatEn := a } := rfl
theorem exec_cmdIgnored (c : Byte) (s : State) :
    exec (.cmdIgnored c) s = s.fetchStep fun t => t.raise (.badCmd c) := rfl

/-- The LED commands, each with the number of its LED (R53, R106 to R109). -/
def ledCommands : List ((Option Byte → Instr) × Nat) :=
  [(Instr.led0, 0), (Instr.led1, 1), (Instr.led2, 2), (Instr.led3, 3)]

/-- The code of an LED command is 10 and the number of its LED, and its argument sets that LED (R106 to R109). -/
theorem ledCommands_meaning {p : (Option Byte → Instr) × Nat} (member : p ∈ ledCommands) :
    p.2 < 4 ∧ decodeCommandByte (BitVec.ofNat 8 (10 + p.2)) = p.1 none ∧
      ∀ arg s, exec (p.1 arg) s =
        s.cmd2 (BitVec.ofNat 8 (10 + p.2)) arg fun a t => t.setLed (BitVec.ofNat 8 (10 + p.2)) a := by
  simp only [ledCommands, List.mem_cons, List.not_mem_nil, or_false] at member
  obtain rfl | rfl | rfl | rfl := member <;> exact ⟨by decide, rfl, fun _ _ => rfl⟩

/-- A code that is no command decodes as the ignored one (R53, R112). -/
theorem decodeCommandByte_of_not_command {c : Byte} (other : isCommand c = false) :
    decodeCommandByte c = .cmdIgnored c := by
  simp only [isCommand, Bool.or_eq_false_iff, beq_eq_false_iff_ne] at other
  obtain ⟨⟨⟨⟨⟨⟨⟨⟨getkey, getcur⟩, getcnt⟩, led0⟩, led1⟩, led2⟩, led3⟩, setsnd⟩, setrpt⟩ := other
  rw [decodeCommandByte, if_neg getkey, if_neg getcur, if_neg getcnt, if_neg led0, if_neg led1, if_neg led2,
    if_neg led3, if_neg setsnd, if_neg setrpt]

/-! ### The byte popped -/

/-- What a command finds: the read index past its byte, the buffer not full, the ports idle (R98). -/
theorem State.quiet_rxAdvance_eq (s : State) :
    s.quiet.rxAdvance = { s with rxRd := (s.rxRd + 1) % s.par.cR, rxFull := false, out := {} } := rfl

/-! ### Commands that reply -/

/-- The result of `KQ_POP0` (R73). -/
theorem State.kqPop0_fst (s : State) :
    s.kqPop0.1 = if s.kqRd = s.kqWrB then 0 else s.readCell .kq s.kqRd.toNat := by
  split
  case isTrue empty => rw [State.kqPop0_of_empty empty]
  case isFalse event => rw [State.kqPop0_of_event event]

/-- `KQ_CLEAR` overrides where `KQ_POP0` left the read index (R73, R74). -/
theorem State.kqClear_kqPop0 (s : State) : s.kqPop0.2.kqClear = s.kqClear := by
  by_cases empty : s.kqRd = s.kqWrB
  · rw [State.kqPop0_of_empty empty]
  · rw [State.kqPop0_of_event empty]
    rfl

/-- The count replied is `KQ_COUNT` in a byte (R75, R105). -/
theorem State.kqCount_zeroExtend (s : State) :
    s.kqCount.zeroExtend 8 = BitVec.ofNat 8 ((s.kqWrB.toNat + 32 - s.kqRd.toNat) % 32) := by
  apply BitVec.eq_of_toNat_eq
  rw [BitVec.toNat_setWidth, State.kqCount_toNat, BitVec.toNat_ofNat]

/-- Settles O38: each reply command is its effect on the state with one byte popped; `GETKEY` pops the oldest event
before it clears the rest. -/
theorem replyCommands : Obligations.ReplyCommands := by
  unfold Obligations.ReplyCommands
  refine ⟨rfl, rfl, rfl, fun s enabled index => ⟨?getkey, ?getcur, ?getcnt⟩⟩
  case getkey =>
    rw [exec_getkey, State.fetchStep_enabled enabled index, State.kqClear_kqPop0, State.kqPop0_fst]
    rfl
  case getcur =>
    rw [exec_getcur, State.fetchStep_enabled enabled index]
    rfl
  case getcnt =>
    rw [exec_getcnt, State.fetchStep_enabled enabled index, State.kqCount_zeroExtend]
    rfl

/-! ### Commands with an argument -/

/-- The command byte alone is kept and the argument awaited, whatever the command (R102). -/
theorem State.cmd2_of_fetch {s : State} (c : Byte) (effect : Byte → State → State) (enabled : s.fetchEnabled = true)
    (index : s.rxRd < s.par.cR) :
    s.cmd2 c none effect =
      .next { s with
        rxRd := (s.rxRd + 1) % s.par.cR, rxFull := false, dpCmd := c, dpPhase := dpArg, out := {} } := by
  rw [State.cmd2, State.fetchStep_enabled enabled index]
  rfl

/-- The argument finishes the command that the dispatcher waits in (R113). -/
theorem State.cmd2_of_argument {s : State} {c : Byte} (a : Byte) (effect : Byte → State → State)
    (enabled : s.argEnabled = true) (index : s.rxRd < s.par.cR) (waits : s.dpCmd = c) :
    s.cmd2 c (some a) effect = .next { effect a s.quiet.rxAdvance with dpPhase := dpIdle } := by
  rw [State.cmd2, if_pos waits, State.argStep_enabled enabled index]

/-- The LED number of the command code of LED `n` is `n` (R54). -/
theorem ledIndex_ofNat {n : Nat} (lt : n < 4) : ledIndex (BitVec.ofNat 8 (10 + n)) = n := by
  rw [ledIndex]
  bv_omega

/-- Setting LED `n` sets bit `n` to the level and leaves every other bit (R21). -/
theorem getLsbD_setLedBit (led : BitVec 4) {n : Nat} (level : Bool) (lt : n < 4) (j : Nat) :
    (setLedBit led n level).getLsbD j = if j = n then level else led.getLsbD j := by
  have mask_bit : (1#4 <<< n).getLsbD j = decide (j = n) := by
    rw [show 1#4 <<< n = BitVec.twoPow 4 n from rfl, BitVec.getLsbD_twoPow, decide_eq_true lt, Bool.true_and,
      decide_eq_decide]
    exact eq_comm
  cases level
  case true =>
    rw [setLedBit, if_pos rfl, BitVec.getLsbD_or, mask_bit]
    by_cases here : j = n <;> simp [here]
  case false =>
    have bit_exists : led.getLsbD j = true → j < 4 := BitVec.lt_of_getLsbD
    rw [setLedBit, if_neg Bool.false_ne_true, BitVec.getLsbD_and, BitVec.getLsbD_not, mask_bit]
    by_cases here : j = n
    · simp [here]
    · simpa [here] using bit_exists

/-- Settles O39: the four LED commands are one command but for the number of the LED, which is bit `n` of `led`. -/
theorem ledCommandsSetTheirLed : Obligations.LedCommandsSetTheirLed := by
  unfold Obligations.LedCommandsSetTheirLed
  intro p member
  obtain ⟨lt, decoded, meaning⟩ := ledCommands_meaning member
  refine ⟨decoded, fun s enabled index => ?fetched, fun s a enabled index code => ?finished⟩
  case fetched => rw [meaning, State.cmd2_of_fetch _ _ enabled index]
  case finished =>
    have waits : s.dpCmd = BitVec.ofNat 8 (10 + p.2) := by rw [← code, BitVec.ofNat_toNat, BitVec.setWidth_eq]
    refine ⟨setLedBit s.led p.2 (nonZero a), ?_, ?level, fun j other => ?others⟩
    · rw [meaning, State.cmd2_of_argument a _ enabled index waits, State.setLed, ledIndex_ofNat lt]
      rfl
    case level => rw [getLsbD_setLedBit _ _ lt, if_pos rfl, nonZero_eq_decide]
    case others => rw [getLsbD_setLedBit _ _ lt, if_neg other]

/-- The byte stored is what its non-volatile slot then holds (R47). -/
theorem State.readCell_nvmWrite_same {s : State} (slot : Nat) (v : Byte) (wf : s.mem.wf) :
    (s.nvmWrite slot v).readCell .nvm slot = v :=
  State.readCell_writeCell_same (s := s) .nvm slot v wf

/-- A non-volatile store writes no cell but its slot. -/
theorem State.nvmWrite_sameCellsBut (s : State) (slot : Nat) (v : Byte) :
    SameCellsBut .nvm slot s (s.nvmWrite slot v) :=
  fun _ _ other => State.readCell_writeCell_other (s := s) v other

/-- Settles O40: both settings wait like any command with an argument, and finish with one non-volatile store on the
state with that argument popped. -/
theorem settingCommandsStoreTheirByte : Obligations.SettingCommandsStoreTheirByte := by
  unfold Obligations.SettingCommandsStoreTheirByte
  refine ⟨⟨rfl, rfl⟩, fun s enabled index => ⟨?sndFetched, ?rptFetched⟩,
    fun s a enabled index wf => ⟨fun waits => ?sndFinished, fun waits => ?rptFinished⟩⟩
  case sndFetched => rw [exec_setsnd, State.cmd2_of_fetch _ _ enabled index]
  case rptFetched => rw [exec_setrpt, State.cmd2_of_fetch _ _ enabled index]
  case sndFinished =>
    rw [exec_setsnd, State.cmd2_of_argument a _ enabled index waits]
    exact ⟨_, rfl, State.readCell_nvmWrite_same (s := s.quiet.rxAdvance) _ a wf,
      s.quiet.rxAdvance.nvmWrite_sameCellsBut _ a, rfl⟩
  case rptFinished =>
    rw [exec_setrpt, State.cmd2_of_argument a _ enabled index waits]
    exact ⟨_, rfl, State.readCell_nvmWrite_same (s := s.quiet.rxAdvance) _ a wf,
      s.quiet.rxAdvance.nvmWrite_sameCellsBut _ a, rfl⟩

/-! ### Every other code -/

/-- Settles O41: a code that is no command pops its byte, and `E_BAD_CMD` has no effect but its trace. -/
theorem otherCommandsAreIgnored : Obligations.OtherCommandsAreIgnored := by
  unfold Obligations.OtherCommandsAreIgnored
  intro s c other enabled index
  refine ⟨decodeCommandByte_of_not_command other, ?_⟩
  rw [exec_cmdIgnored, State.fetchStep_enabled enabled index, State.raise_eq]
  rfl

end Sys2Proof.Machine
end

section
/-! PROOF. `D_HOUSE` (R101, R115): either overflow signal enables it in an idle phase, and it answers both. -/

namespace Sys2Proof.Machine

/-! ### When it is enabled -/

/-- The phases that read as idle (R19, R101). -/
theorem State.phaseIdle_iff (s : State) : s.phaseIdle = true ↔ s.dpPhase = dpIdle ∨ s.dpPhase = 3 := by
  rw [State.phaseIdle, Bool.or_eq_true, beq_iff_eq, beq_iff_eq]

/-- The keyboard overflow is pending while the request seen is not the one acknowledged (R14). -/
theorem State.kbdOvfPending_iff (s : State) : s.kbdOvfPending = true ↔ s.ovfReqB ≠ s.ovfAck := by
  rw [State.kbdOvfPending, bne_iff_ne]

/-- `D_HOUSE` is enabled in an idle phase with either signal pending (R101). -/
theorem State.houseEnabled_iff (s : State) :
    s.houseEnabled = true ↔
      (s.dpPhase = dpIdle ∨ s.dpPhase = 3) ∧ (s.ovfReqB ≠ s.ovfAck ∨ s.rxOvf = true) := by
  rw [State.houseEnabled, Bool.and_eq_true, Bool.or_eq_true, State.phaseIdle_iff, State.kbdOvfPending_iff]

theorem State.houseEnabled_of_dpArg {s : State} (arg : s.dpPhase = dpArg) : s.houseEnabled = false := by
  have not_idle : (dpArg == dpIdle || dpArg == 3) = false := by decide
  rw [State.houseEnabled, State.phaseIdle, arg, not_idle, Bool.false_and]

/-! ### The acknowledgement -/

/-- The line of `D_HOUSE` presents nothing to the decoder. -/
theorem State.runLine_dHouse (s : State) : s.runLine .dHouse = .next s.houseStep := rfl

/-- `D_HOUSE`, enabled, clears both signals and sounds one alert if sound is enabled (R115, R132). -/
theorem State.houseStep_of_enabled {s : State} (enabled : s.houseEnabled = true) :
    s.houseStep =
      { s with ovfAck := s.ovfReqB, rxOvf := false, out := { alert := decide (s.soundEn ≠ 0) } } := by
  rw [State.houseStep, if_pos enabled, nonZero_eq_decide]
  rfl

/-- Settles O44: taking the line leaves the phase, both signals and the setting, so the step is enabled and answers
the signals as they were. -/
theorem houseStepClearsOverflows : Obligations.HouseStepClearsOverflows := by
  unfold Obligations.HouseStepClearsOverflows
  refine ⟨fun s running line idle pending => ?cleared, fun s waits => ?blocked⟩
  case cleared =>
    have enabled : s.popLine.houseEnabled = true := by
      rw [State.houseEnabled_iff, State.popLine_dpPhase, State.popLine_ovfReqB, State.popLine_ovfAck,
        State.popLine_rxOvf]
      exact ⟨idle, pending⟩
    rw [step_of_running running, line, State.runLine_dHouse, State.houseStep_of_enabled enabled,
      ← s.popLine_ovfReqB, ← s.popLine_soundEn]
  case blocked =>
    obtain arg | stage := waits
    · exact State.houseEnabled_of_dpArg arg
    · exact State.houseEnabled_of_dpStage stage

end Sys2Proof.Machine
end

section
/-! PROOF. `RESET` and `BOOT` (R146 to R149): what one step does in each reset phase, and what the two leave of the
state before them. -/

namespace Sys2Proof.Machine

/-! ### One step in each reset phase -/

/-- A machine with `BOOT` due takes no line (R149). -/
theorem step_of_bootDue {s : State} (due : s.resetPhase = .bootDue) : step s = .next s.bootStep := by
  simp only [step, State.stepOnce, due]

/-- A machine under `rst` takes the next line as `State.heldLine` does (R146). -/
theorem step_of_asserted {s : State} (held : s.resetPhase = .asserted) :
    step s = .next (s.popLine.heldLine s.nextLine) := by
  simp only [step, State.stepOnce, held]

/-- An asserted `rst` resets, whether the agents run or `rst` was up already (R146). -/
theorem step_of_rstAssert {s : State} (notDue : s.resetPhase ≠ .bootDue) (line : s.nextLine = .rstAssert) :
    step s = .next s.popLine.resetStep := by
  cases phase : s.resetPhase with
  | asserted => rw [step_of_asserted phase, line, State.heldLine]
  | bootDue => exact absurd phase notDue
  | running =>
    rw [step_of_running phase, line]
    rfl

/-- Under `rst`, every line but its own two only leaves the ports idle (R146). -/
theorem State.heldLine_of_ignored (s : State) {l : Line} (notAssert : l ≠ .rstAssert) (notRelease : l ≠ .rstRelease) :
    s.heldLine l = s.quiet := by
  cases l with
  | rstAssert => exact absurd rfl notAssert
  | rstRelease => exact absurd rfl notRelease
  | tickC | tickM | st | dFetch | dArg | dStage | dHouse | sync => rfl

/-! ### `BOOT` -/

/-- `BOOT` loads both settings, crosses them as levels, and arms the bus controller (R149). -/
theorem State.bootStep_eq (s : State) :
    s.bootStep = { s with
      soundEn := s.readCell .nvm s.par.slotSound
      repeatEn := s.readCell .nvm s.par.slotRepeat
      soundEnT := decide (s.readCell .nvm s.par.slotSound ≠ 0)
      repeatEnT := decide (s.readCell .nvm s.par.slotRepeat ≠ 0)
      resetPhase := .running
      out := { action := some .armAddr } } := by
  rw [← nonZero_eq_decide, ← nonZero_eq_decide]
  rfl

/-- Settles O7: a step with `BOOT` due is `BOOT`. -/
theorem bootLoadsSettingsFirst : Obligations.BootLoadsSettingsFirst := by
  unfold Obligations.BootLoadsSettingsFirst
  intro s due
  rw [step_of_bootDue due, State.bootStep_eq]

/-- `BOOT` leaves the line that comes next (R149). -/
theorem State.bootStep_nextLine (s : State) : s.bootStep.nextLine = s.nextLine := rfl

/-- `BOOT` reads the non-volatile store and writes no cell (R149). -/
theorem State.bootStep_sameCells (s : State) : SameCells s s.bootStep := State.readCell_congr rfl rfl

/-! ### `RESET` -/

/-- The state in which an asserted `rst` takes effect: after `BOOT`, if that was due (log 13). -/
def State.bootIfDue (s : State) : State := if s.resetPhase = .bootDue then s.bootStep else s

theorem State.bootIfDue_notDue (s : State) : s.bootIfDue.resetPhase ≠ .bootDue := by
  unfold State.bootIfDue
  split
  case isTrue => exact nofun
  case isFalse notDue => exact notDue

theorem State.bootIfDue_nextLine (s : State) : s.bootIfDue.nextLine = s.nextLine := by
  unfold State.bootIfDue
  split
  case isTrue => exact s.bootStep_nextLine
  case isFalse => rfl

theorem State.bootIfDue_sameCells (s : State) : SameCells s s.bootIfDue := by
  unfold State.bootIfDue
  split
  case isTrue => exact s.bootStep_sameCells
  case isFalse => exact fun _ _ => rfl

/-- The non-volatile store outlasts a reset (R47, R147). -/
theorem State.resetStep_readCell_nvm (s : State) (i : Nat) : s.resetStep.readCell .nvm i = s.readCell .nvm i := rfl

/-- Settles O8: with `BOOT` done if it was due, the line of `rst` is still next and every cell is as before; the step
then is `State.resetStep`, which takes `State.reset`'s value for each element, in the order of R25's table. -/
theorem resetSetsEveryElement : Obligations.ResetSetsEveryElement := by
  unfold Obligations.ResetSetsEveryElement
  refine ⟨fun s line => ⟨step_of_bootDue, ?reset⟩, fun s held notAssert notRelease => ?ignored⟩
  case reset =>
    have stepped : step s.bootIfDue = .next s.bootIfDue.popLine.resetStep :=
      step_of_rstAssert s.bootIfDue_notDue (s.bootIfDue_nextLine.trans line)
    have tx_zero : ∀ i, s.bootIfDue.popLine.resetStep.readCell .tx i = 0 := State.readCell_tx_of_nil rfl
    have nvm_kept : ∀ i, s.bootIfDue.popLine.resetStep.readCell .nvm i = s.readCell .nvm i := fun i =>
      calc s.bootIfDue.popLine.resetStep.readCell .nvm i
        _ = s.bootIfDue.popLine.readCell .nvm i := s.bootIfDue.popLine.resetStep_readCell_nvm i
        _ = s.bootIfDue.readCell .nvm i := s.bootIfDue.popLine_sameCells .nvm i
        _ = s.readCell .nvm i := s.bootIfDue_sameCells .nvm i
    exact ⟨_, stepped, rfl, rfl, rfl, rfl, rfl, rfl, rfl, rfl, rfl, rfl, rfl, rfl, rfl, rfl, rfl, rfl, rfl, rfl, rfl,
      tx_zero, rfl, rfl, rfl, rfl, rfl, rfl, rfl, rfl, rfl, nvm_kept⟩
  case ignored =>
    rw [step_of_asserted held, State.heldLine_of_ignored _ notAssert notRelease]
    rfl

end Sys2Proof.Machine
end

section
/-! PROOF. The encoding (R51 to R58): the decoder on each of its spaces, the encoder against it, and the rows of the
opcode table. -/

namespace Sys2Proof

open Machine

/-! ### The nine commands and the classes -/

/-- The codes that are commands (R53). -/
theorem isCommand_cases {c : Byte} (command : isCommand c = true) :
    c = 0 ∨ c = 1 ∨ c = 2 ∨ c = 10 ∨ c = 11 ∨ c = 12 ∨ c = 13 ∨ c = 20 ∨ c = 21 := by
  simpa only [isCommand, Bool.or_eq_true, beq_iff_eq, or_assoc] using command

/-- The codes whose command takes an argument (R52). -/
theorem takesArg_iff (c : Byte) : takesArg c = true ↔ c ∈ ([10, 11, 12, 13, 20, 21] : List Byte) := by
  simp only [takesArg, Bool.or_eq_true, beq_iff_eq, or_assoc, List.mem_cons, List.not_mem_nil, or_false]

/-- A class is one of the eleven known ones or an unrecognised one (R56). -/
theorem statusClass_cases : ∀ cls : BitVec 4,
    cls ∈ [0x0#4, 0x1#4, 0x2#4, 0x3#4, 0x4#4, 0x5#4, 0x6#4, 0x7#4, 0x8#4, 0x9#4, 0xA#4] ∨ 11 ≤ cls.toNat := by
  decide

/-- The classes that ignore `st_data` are written with data byte 0 (R56). -/
theorem Encoded.withoutIgnoredBits_of_ignored {cls : BitVec 4} (d : Byte) (ne3 : cls ≠ 3) (ne4 : cls ≠ 4) :
    (Encoded.status cls d).withoutIgnoredBits = .status cls 0 := by
  rw [Encoded.withoutIgnoredBits, if_neg (not_or.mpr ⟨ne3, ne4⟩)]

/-! ### Decode after encode -/

/-- Settles O3: by the instruction; the two block rows by the decoder's last branch, which their operand checks
single out; every other row by its own code. -/
theorem decodeInvertsEncode : Obligations.DecodeInvertsEncode := by
  unfold Obligations.DecodeInvertsEncode
  intro i wf
  cases i with
  | cmdIgnored c =>
    have other : isCommand c = false := by simpa [WellFormed, Instr.wf] using wf
    exact congrArg Except.ok (decodeCommandByte_of_not_command other)
  | stUnrecognized cls =>
    have unrecognized : 11 ≤ cls.toNat := by simpa [WellFormed, Instr.wf] using wf
    exact congrArg Except.ok (decodeStatus_of_unrecognized 0 unrecognized)
  | led0 arg | led1 arg | led2 arg | led3 arg | setsnd arg | setrpt arg => cases arg <;> rfl
  | getkey | getcur | getcnt => rfl
  | stBusError | stSlaWAck | stGcAck | stRxDataAck | stGcRxDataAck | stRxDataNack | stStopRestart => rfl
  | stSlaRAck | stTxDataAck | stTxDataNack | stTxLastAck => rfl
  | tickC | tickM => rfl

/-! ### Encode after decode -/

/-- A command byte alone (R53): its instruction is well formed and encodes as that byte. -/
theorem encode_decodeCommandByte (c : Byte) :
    WellFormed (decodeCommandByte c) ∧ encode (decodeCommandByte c) = .frame [c] := by
  cases command : isCommand c with
  | true => obtain rfl | rfl | rfl | rfl | rfl | rfl | rfl | rfl | rfl := isCommand_cases command <;> exact ⟨rfl, rfl⟩
  | false =>
    rw [decodeCommandByte_of_not_command command]
    exact ⟨by simp [WellFormed, Instr.wf, command], rfl⟩

/-- A first byte that takes no argument makes no frame of two bytes (R52). -/
theorem decodeArgumentByte_of_not_takesArg {c : Byte} (a : Byte) (noArg : takesArg c = false) :
    decodeArgumentByte c a = .error (.takesNoArgument c) := by
  simp only [takesArg, Bool.or_eq_false_iff, beq_eq_false_iff_ne] at noArg
  obtain ⟨⟨⟨⟨⟨led0, led1⟩, led2⟩, led3⟩, setsnd⟩, setrpt⟩ := noArg
  rw [decodeArgumentByte, if_neg led0, if_neg led1, if_neg led2, if_neg led3, if_neg setsnd, if_neg setrpt]

/-- The six codes with an argument make a frame with any byte (R52). -/
theorem decodeArgumentByte_of_takesArg {c : Byte} (a : Byte) (takes : takesArg c = true) :
    ∃ i, decodeArgumentByte c a = .ok i ∧ WellFormed i ∧ encode i = .frame [c, a] := by
  rw [takesArg_iff] at takes
  simp only [List.mem_cons, List.not_mem_nil, or_false] at takes
  obtain rfl | rfl | rfl | rfl | rfl | rfl := takes <;> exact ⟨_, rfl, rfl, rfl⟩

/-- A status event (R56): its instruction is well formed and encodes as the class with the data that counts. -/
theorem encode_decodeStatus (cls : BitVec 4) (d : Byte) :
    WellFormed (decodeStatus cls d) ∧
      encode (decodeStatus cls d) = (Encoded.status cls d).withoutIgnoredBits := by
  rcases statusClass_cases cls with known | unrecognized
  · simp only [List.mem_cons, List.not_mem_nil, or_false] at known
    obtain rfl | rfl | rfl | rfl | rfl | rfl | rfl | rfl | rfl | rfl | rfl := known <;> exact ⟨rfl, rfl⟩
  · rw [decodeStatus_of_unrecognized d unrecognized, Encoded.withoutIgnoredBits_of_ignored d]
    · exact ⟨by simpa [WellFormed, Instr.wf] using unrecognized, rfl⟩
    all_goals
      rintro rfl
      exact absurd unrecognized (by decide)

/-- Settles O4: by the space of the input, and for a frame by its number of bytes. -/
theorem encodeInvertsDecode : Obligations.EncodeInvertsDecode := by
  unfold Obligations.EncodeInvertsDecode
  intro e i decoded
  cases e with
  | scanCode k | sample m =>
    obtain rfl := Except.ok.inj decoded
    exact ⟨rfl, rfl⟩
  | status cls d =>
    obtain rfl := Except.ok.inj decoded
    exact encode_decodeStatus cls d
  | frame bytes =>
    match bytes, decoded with
    | [c], decoded =>
      obtain rfl := Except.ok.inj decoded
      exact encode_decodeCommandByte c
    | [c, a], decoded =>
      replace decoded : decodeArgumentByte c a = .ok i := decoded
      cases takes : takesArg c with
      | false =>
        rw [decodeArgumentByte_of_not_takesArg a takes] at decoded
        cases decoded
      | true =>
        obtain ⟨j, read, wf, encoded⟩ := decodeArgumentByte_of_takesArg a takes
        obtain rfl : j = i := Except.ok.inj (read.symm.trans decoded)
        exact ⟨wf, encoded⟩

/-! ### The rows of the table -/

open Laws.EncodeMatchesRow in
/-- Settles O2: a command or a known class by its own row; any other code or class by the blocks of `CMD_IGNORED` and
`ST_UNRECOGNIZED`, of which it falls in exactly one. -/
theorem everyCodeMatchesOneRow : Obligations.EveryCodeMatchesOneRow := by
  unfold Obligations.EveryCodeMatchesOneRow
  refine ⟨fun c => ?command, fun cls d => ?status⟩
  case command =>
    cases command : isCommand c with
    | true =>
      obtain rfl | rfl | rfl | rfl | rfl | rfl | rfl | rfl | rfl := isCommand_cases command <;> exact ⟨_, rfl, rfl⟩
    | false =>
      obtain ⟨r, rows, name⟩ := row_of_names (ignored_rows c command)
      rw [decodeCommandByte_of_not_command command]
      exact ⟨r, rows, name.symm⟩
  case status =>
    rcases statusClass_cases cls with known | unrecognized
    · simp only [List.mem_cons, List.not_mem_nil, or_false] at known
      obtain rfl | rfl | rfl | rfl | rfl | rfl | rfl | rfl | rfl | rfl | rfl := known <;> exact ⟨_, rfl, rfl⟩
    · obtain ⟨r, rows, name⟩ := row_of_names (unrecognized_rows cls unrecognized)
      rw [decodeStatus_of_unrecognized d unrecognized]
      exact ⟨r, rows, name.symm⟩

/-- Settles O1: each word by running the decoder on it. -/
theorem tableCodesDecode : Obligations.TableCodesDecode := by
  unfold Obligations.TableCodesDecode
  exact ⟨rfl, rfl, rfl, rfl, rfl, rfl, rfl, rfl, rfl, rfl, rfl, rfl⟩

end Sys2Proof
end

section
/-! PROOF. One line of a running machine, agent by agent: what the dispatcher's two encoded steps do with the byte they
pop, what each status class does, and the courses of a line, each with the line that takes it. -/

namespace Sys2Proof.Machine

/-! ### What `D_FETCH` and `D_ARG` do with their byte -/

/-- The effect of the command byte `c`, once it is popped (R102 to R112). -/
def commandEffect (c : Byte) (t : State) : State :=
  if c = 0 then t.kqClear.awaitStage t.kqPop0.1
  else if c = 1 then t.kqClear.awaitStage t.curCodeB
  else if c = 2 then t.awaitStage (t.kqCount.zeroExtend 8)
  else if takesArg c = true then t.awaitArg c
  else t.raise (.badCmd c)

/-- The effect of the argument `a` of the command `c`, once it is popped; none if `c` takes no argument (R106 to R111,
R113). -/
def argumentEffect (c a : Byte) (t : State) : State :=
  if c = 20 then { t.nvmWrite t.par.slotSound a with soundEn := a }
  else if c = 21 then { t.nvmWrite t.par.slotRepeat a with repeatEn := a }
  else if takesArg c = true then t.setLed c a
  else t

theorem commandEffect_of_not_command {c : Byte} (other : isCommand c = false) :
    commandEffect c = fun t => t.raise (.badCmd c) := by
  simp only [isCommand, Bool.or_eq_false_iff, beq_eq_false_iff_ne] at other
  obtain ⟨⟨⟨⟨⟨⟨⟨⟨getkey, getcur⟩, getcnt⟩, led0⟩, led1⟩, led2⟩, led3⟩, setsnd⟩, setrpt⟩ := other
  have noArg : ¬takesArg c = true := by
    simp only [takesArg, Bool.or_eq_true, beq_iff_eq, led0, led1, led2, led3, setsnd, setrpt, or_self,
      not_false_eq_true]
  funext t
  rw [commandEffect, if_neg getkey, if_neg getcur, if_neg getcnt, if_neg noArg]

/-- The instruction of a command byte alone is its effect inside `D_FETCH` (R102). -/
theorem exec_decodeCommandByte (c : Byte) (s : State) :
    exec (decodeCommandByte c) s = s.fetchStep (commandEffect c) := by
  cases command : isCommand c with
  | true =>
    obtain rfl | rfl | rfl | rfl | rfl | rfl | rfl | rfl | rfl := isCommand_cases command
    case inl =>
      have clears : (fun t : State => t.kqPop0.2.kqClear.awaitStage t.kqPop0.1) = commandEffect 0 := by
        funext t
        rw [State.kqClear_kqPop0]
        rfl
      rw [← clears]
      rfl
    all_goals rfl
  | false => rw [decodeCommandByte_of_not_command command, exec_cmdIgnored, commandEffect_of_not_command command]

/-- The instruction of a whole frame is its argument's effect inside `D_ARG` (R113). -/
theorem exec_of_decodeArgumentByte {c a : Byte} {i : Instr} (read : decodeArgumentByte c a = .ok i) (s : State) :
    exec i s = s.cmd2 c (some a) (argumentEffect c) := by
  cases takes : takesArg c with
  | false =>
    rw [decodeArgumentByte_of_not_takesArg a takes] at read
    cases read
  | true =>
    rw [takesArg_iff] at takes
    simp only [List.mem_cons, List.not_mem_nil, or_false] at takes
    obtain rfl | rfl | rfl | rfl | rfl | rfl := takes <;> cases read <;> rfl

theorem argumentEffect_of_not_takesArg {c : Byte} (a : Byte) (noArg : takesArg c = false) :
    argumentEffect c a = id := by
  have ne20 : c ≠ 20 := by rintro rfl; cases noArg
  have ne21 : c ≠ 21 := by rintro rfl; cases noArg
  funext t
  rw [argumentEffect, if_neg ne20, if_neg ne21, noArg, if_neg Bool.false_ne_true]
  rfl

/-! ### The dispatcher's lines -/

/-- A fetch line is `D_FETCH` with the effect of the byte at the head of `RX` (R102). -/
theorem State.runLine_dFetch (s : State) : s.runLine .dFetch = s.fetchStep (commandEffect s.rxHead) := by
  cases enabled : s.fetchEnabled with
  | true =>
    have presented : s.presents .dFetch = some (.frame [s.rxHead]) := if_pos enabled
    rw [State.runLine_decoded presented rfl, exec_decodeCommandByte]
  | false =>
    have nothing : s.presents .dFetch = none := if_neg (by simp [enabled])
    rw [State.fetchStep, enabled, if_neg Bool.false_ne_true, State.runLine, nothing]
    rfl

/-- An argument line is `D_ARG` with the effect of the byte at the head of `RX` on the command that waits (R113). -/
theorem State.runLine_dArg (s : State) : s.runLine .dArg = s.argStep (argumentEffect s.dpCmd s.rxHead) := by
  cases enabled : s.argEnabled with
  | true =>
    have presented : s.presents .dArg = some (.frame [s.dpCmd, s.rxHead]) := if_pos enabled
    cases takes : takesArg s.dpCmd with
    | true =>
      obtain ⟨i, read, -, -⟩ := decodeArgumentByte_of_takesArg s.rxHead takes
      rw [State.runLine_decoded presented read, exec_of_decodeArgumentByte read, State.cmd2, if_pos rfl]
    | false =>
      have unread : decode (.frame [s.dpCmd, s.rxHead]) = .error (.takesNoArgument s.dpCmd) :=
        decodeArgumentByte_of_not_takesArg s.rxHead takes
      rw [argumentEffect_of_not_takesArg _ takes]
      simp only [State.runLine, presented, unread, State.argOther]
  | false =>
    have nothing : s.presents .dArg = none := if_neg (by simp [enabled])
    rw [State.argStep, enabled, if_neg Bool.false_ne_true, State.runLine, nothing]
    rfl

/-! ### The status classes -/

/-- The classes in five groups (R82 to R93): the address events of a write, the ends of a transaction, the errors, the
events of a read, and a byte received. -/
theorem statusClass_groups : ∀ cls : BitVec 4, (cls = 1 ∨ cls = 2) ∨ (cls = 6 ∨ cls = 9 ∨ 11 ≤ cls.toNat) ∨
    (cls = 0 ∨ cls = 5 ∨ cls = 10) ∨ (cls = 7 ∨ cls = 8) ∨ (cls = 3 ∨ cls = 4) := by
  decide

/-- Each group of classes has one meaning. -/
theorem exec_decodeStatus_cases (cls : BitVec 4) (d : Byte) :
    ((cls = 1 ∨ cls = 2) ∧ ∀ s, exec (decodeStatus cls d) s = .next s.addressedForWrite) ∨
    ((cls = 6 ∨ cls = 9 ∨ 11 ≤ cls.toNat) ∧ ∀ s, exec (decodeStatus cls d) s = .next s.transactionEnd) ∨
    ((cls = 0 ∨ cls = 5 ∨ cls = 10) ∧ ∀ s, exec (decodeStatus cls d) s = .next (s.busRecovery cls)) ∨
    ((cls = 7 ∨ cls = 8) ∧ ∀ s, exec (decodeStatus cls d) s = .next s.quiet.txNext) ∨
    ((cls = 3 ∨ cls = 4) ∧ ∀ s, exec (decodeStatus cls d) s = s.quiet.rxPush d) := by
  rcases statusClass_groups cls with group | group | group | group | group
  · refine .inl ⟨group, ?_⟩
    obtain rfl | rfl := group <;> exact fun _ => rfl
  · refine .inr (.inl ⟨group, ?_⟩)
    obtain rfl | rfl | unrecognized := group
    · exact fun _ => rfl
    · exact fun _ => rfl
    · rw [decodeStatus_of_unrecognized d unrecognized]
      exact exec_stUnrecognized cls
  · refine .inr (.inr (.inl ⟨group, ?_⟩))
    obtain rfl | rfl | rfl := group <;> exact fun _ => rfl
  · refine .inr (.inr (.inr (.inl ⟨group, ?_⟩)))
    obtain rfl | rfl := group <;> exact fun _ => rfl
  · refine .inr (.inr (.inr (.inr ⟨group, ?_⟩)))
    obtain rfl | rfl := group <;> exact fun _ => rfl

/-- A status line runs the instruction of its class. -/
theorem State.runLine_st (s : State) (cls : BitVec 4) (d : Byte) :
    s.runLine (.st cls d) = exec (decodeStatus cls d) s := rfl

/-! ### The courses of a line, with the line that takes each -/

/-- What each line can do to a running machine. The dispatcher's four lines, and a release of `rst`, may find nothing to
do. -/
inductive RunCourse (s : State) : Line → State → Prop where
  | tickC (k : Byte) : RunCourse s (.tickC k) (s.tick k)
  | tickM (m : BitVec 16) : RunCourse s (.tickM m) (s.tick (scan s.par m))
  | status (cls : BitVec 4) (d : Byte) {t : State} (run : exec (decodeStatus cls d) s = .next t) :
      RunCourse s (.st cls d) t
  | fetchWaits (blocked : s.fetchEnabled = false) : RunCourse s .dFetch s.quiet
  | fetched (enabled : s.fetchEnabled = true) (index : s.rxRd < s.par.cR) :
      RunCourse s .dFetch (commandEffect s.rxHead s.quiet.rxAdvance)
  | argWaits (blocked : s.argEnabled = false) : RunCourse s .dArg s.quiet
  | argued (enabled : s.argEnabled = true) (index : s.rxRd < s.par.cR) :
      RunCourse s .dArg { argumentEffect s.dpCmd s.rxHead s.quiet.rxAdvance with dpPhase := dpIdle }
  | stageWaits (blocked : s.stageEnabled = false) : RunCourse s .dStage s.quiet
  | staged (enabled : s.stageEnabled = true) :
      RunCourse s .dStage { s.quiet.txStage s.dpReply with dpPhase := dpIdle }
  | houseWaits (blocked : s.houseEnabled = false) : RunCourse s .dHouse s.quiet
  | housed (enabled : s.houseEnabled = true) :
      RunCourse s .dHouse { s.quiet.acknowledgeOverflows with out := { alert := nonZero s.soundEn } }
  | synced (x : Crossing) : RunCourse s (.sync x) (s.syncStep x)
  | reset : RunCourse s .rstAssert s.resetStep
  | released (running : s.resetPhase = .running) : RunCourse s .rstRelease s.quiet

/-- Every next state of a running machine's line is reached by one of that line's courses. -/
theorem State.runLine_runCourse {s t : State} {l : Line} (running : s.resetPhase = .running)
    (run : s.runLine l = .next t) : RunCourse s l t := by
  cases l with
  | tickC k => cases run; exact .tickC k
  | tickM m => cases run; exact .tickM m
  | st cls d => exact .status cls d run
  | dFetch =>
    rw [State.runLine_dFetch] at run
    obtain ⟨blocked, rfl⟩ | ⟨enabled, index, rfl⟩ := State.fetchStep_next run
    · exact .fetchWaits blocked
    · exact .fetched enabled index
  | dArg =>
    rw [State.runLine_dArg] at run
    obtain ⟨blocked, rfl⟩ | ⟨enabled, index, rfl⟩ := State.argStep_next run
    · exact .argWaits blocked
    · exact .argued enabled index
  | dStage =>
    cases run
    obtain ⟨blocked, h⟩ | ⟨enabled, h⟩ := s.stageStep_cases <;> rw [State.unencodedStep, h]
    · exact .stageWaits blocked
    · exact .staged enabled
  | dHouse =>
    cases run
    obtain ⟨blocked, h⟩ | ⟨enabled, h⟩ := s.houseStep_cases <;> rw [State.unencodedStep, h]
    · exact .houseWaits blocked
    · exact .housed enabled
  | sync x => cases run; exact .synced x
  | rstAssert => cases run; exact .reset
  | rstRelease =>
    have nothing : s.releaseStep = s.quiet := by simp only [State.releaseStep, running]
    cases run
    rw [State.unencodedStep, nothing]
    exact .released running

/-- A running machine takes the next line, which leaves all but the lines to come, and follows one of its courses. -/
theorem step_runCourse {s t : State} (running : s.resetPhase = .running) (stepped : step s = .next t) :
    ∃ inbox freeIdx, RunCourse { s with inbox := inbox, freeIdx := freeIdx } s.nextLine t := by
  rw [step_of_running running] at stepped
  have course := State.runLine_runCourse (s.popLine_resetPhase.trans running) stepped
  rw [State.popLine_eq] at course
  exact ⟨_, _, course⟩

end Sys2Proof.Machine
end

section
/-! PROOF. The frames (R24): what the commands and the status events leave as it was, and what follows for the whole
machine about the signals that one agent alone writes. -/

namespace Sys2Proof.Machine

/-- With every cell as before, every cell but one is. -/
theorem SameCells.but {s t : State} {space : Space} {j : Nat} (cells : SameCells s t) : SameCellsBut space j s t :=
  fun sp i _ => cells sp i

/-! ### Commands -/

/-- The next state differs in the registers alone that a fetched command writes. -/
def FetchScope (s t : State) : Prop :=
  ∃ rxRd rxFull kqRd dpPhase dpCmd dpReply out, t = { s with
    rxRd := rxRd, rxFull := rxFull, kqRd := kqRd, dpPhase := dpPhase, dpCmd := dpCmd, dpReply := dpReply, out := out }

/-- The next state differs in the registers alone that an argument writes, and in cells. -/
def ArgScope (s t : State) : Prop :=
  ∃ rxRd rxFull dpPhase soundEn repeatEn led mem out, t = { s with
    rxRd := rxRd, rxFull := rxFull, dpPhase := dpPhase, soundEn := soundEn, repeatEn := repeatEn, led := led
    mem := mem, out := out }

/-- What every command leaves as it was: the state of `T` and of `E`, the seen copies, and of what `D` writes the
signals that belong to its other steps. -/
def CommandKeeps (s t : State) : Prop :=
  SameDebounce s t ∧ SameSeen s t ∧ SameEngine s t ∧ SameModel s t ∧ t.rxOvf = s.rxOvf ∧ t.txRd = s.txRd ∧
    t.txWr = s.txWr ∧ t.ovfAck = s.ovfAck

theorem FetchScope.keeps {s t : State} (scope : FetchScope s t) : CommandKeeps s t := by
  obtain ⟨_, _, _, _, _, _, _, rfl⟩ := scope
  exact ⟨⟨rfl, rfl, rfl, rfl⟩, ⟨rfl, rfl, rfl, rfl, rfl, rfl, rfl⟩, ⟨rfl, rfl⟩, ⟨rfl, rfl, rfl, rfl, rfl⟩,
    rfl, rfl, rfl, rfl⟩

theorem FetchScope.sameSettings {s t : State} (scope : FetchScope s t) : SameSettings s t := by
  obtain ⟨_, _, _, _, _, _, _, rfl⟩ := scope
  exact ⟨rfl, rfl, rfl⟩

theorem FetchScope.sameCells {s t : State} (scope : FetchScope s t) : SameCells s t := by
  obtain ⟨_, _, _, _, _, _, _, rfl⟩ := scope
  exact State.readCell_congr rfl rfl

theorem ArgScope.keeps {s t : State} (scope : ArgScope s t) : CommandKeeps s t := by
  obtain ⟨_, _, _, _, _, _, _, _, rfl⟩ := scope
  exact ⟨⟨rfl, rfl, rfl, rfl⟩, ⟨rfl, rfl, rfl, rfl, rfl, rfl, rfl⟩, ⟨rfl, rfl⟩, ⟨rfl, rfl, rfl, rfl, rfl⟩,
    rfl, rfl, rfl, rfl⟩

theorem State.quiet_fetchScope (s : State) : FetchScope s s.quiet := ⟨_, _, _, _, _, _, _, rfl⟩

theorem State.awaitArg_fetchScope (u : State) (c : Byte) : FetchScope u (u.awaitArg c) := ⟨_, _, _, _, _, _, _, rfl⟩

/-- A byte popped first is in the scope too. -/
theorem FetchScope.of_popped {s t : State} (scope : FetchScope s.quiet.rxAdvance t) : FetchScope s t := by
  obtain ⟨_, _, _, _, _, _, _, rfl⟩ := scope
  exact ⟨_, _, _, _, _, _, _, rfl⟩

theorem ArgScope.of_popped {s t : State} (scope : ArgScope s.quiet.rxAdvance t) : ArgScope s t := by
  obtain ⟨_, _, _, _, _, _, _, _, rfl⟩ := scope
  exact ⟨_, _, _, _, _, _, _, _, rfl⟩

theorem State.fetchStep_fetchScope {s t : State} {effect : State → State} (run : s.fetchStep effect = .next t)
    (scope : ∀ u, FetchScope u (effect u)) : FetchScope s t := by
  obtain ⟨-, rfl⟩ | ⟨-, -, rfl⟩ := State.fetchStep_next run
  · exact s.quiet_fetchScope
  · exact (scope _).of_popped

theorem commandEffect_fetchScope (c : Byte) (u : State) : FetchScope u (commandEffect c u) := by
  unfold commandEffect
  split_ifs <;> exact ⟨_, _, _, _, _, _, _, rfl⟩

/-- The courses of an argument's effect: a setting stored, an LED set, or nothing. -/
theorem argumentEffect_cases (c a : Byte) (u : State) :
    (c = 20 ∧ argumentEffect c a u = { u.nvmWrite u.par.slotSound a with soundEn := a }) ∨
    (c = 21 ∧ argumentEffect c a u = { u.nvmWrite u.par.slotRepeat a with repeatEn := a }) ∨
    (c.toNat ∈ [10, 11, 12, 13] ∧ argumentEffect c a u = u.setLed c a) ∨
    (takesArg c = false ∧ argumentEffect c a u = u) := by
  cases takes : takesArg c with
  | false => exact .inr (.inr (.inr ⟨rfl, by rw [argumentEffect_of_not_takesArg a takes]; rfl⟩))
  | true =>
    rw [takesArg_iff] at takes
    simp only [List.mem_cons, List.not_mem_nil, or_false] at takes
    obtain rfl | rfl | rfl | rfl | rfl | rfl := takes
    case inr.inr.inr.inr.inl => exact .inl ⟨rfl, rfl⟩
    case inr.inr.inr.inr.inr => exact .inr (.inl ⟨rfl, rfl⟩)
    all_goals exact .inr (.inr (.inl ⟨by decide, rfl⟩))

theorem argumentEffect_argScope (c a : Byte) (u : State) :
    ArgScope u { argumentEffect c a u with dpPhase := dpIdle } := by
  obtain ⟨-, h⟩ | ⟨-, h⟩ | ⟨-, h⟩ | ⟨-, h⟩ := argumentEffect_cases c a u <;> rw [h] <;>
    exact ⟨_, _, _, _, _, _, _, _, rfl⟩

/-- An LED command writes no cell. -/
theorem State.cmd2_setLed_frame {s t : State} {c : Byte} {arg : Option Byte}
    (run : (s.cmd2 c arg fun a u => u.setLed c a) = .next t) : CommandKeeps s t ∧ SameCells s t := by
  obtain rfl | ⟨-, -, -, rfl⟩ | ⟨a, -, -, -, -, rfl⟩ := State.cmd2_next run
  · exact ⟨s.quiet_fetchScope.keeps, s.quiet_fetchScope.sameCells⟩
  · have scope : FetchScope s (s.quiet.rxAdvance.awaitArg c) := (State.awaitArg_fetchScope _ c).of_popped
    exact ⟨scope.keeps, scope.sameCells⟩
  · have scope (u : State) : ArgScope u { u.setLed c a with dpPhase := dpIdle } := ⟨_, _, _, _, _, _, _, _, rfl⟩
    exact ⟨(scope _).of_popped.keeps, State.readCell_congr rfl rfl⟩

/-- A setting command writes no cell but its slot, and that one with its argument alone. -/
theorem State.cmd2_store_frame {s t : State} {c : Byte} {arg : Option Byte} {slot : Config.Params → Nat}
    {effect : Byte → State → State} (run : s.cmd2 c arg effect = .next t)
    (stores : ∀ a u, ∃ soundEn repeatEn, effect a u =
      { u.nvmWrite (slot u.par) a with soundEn := soundEn, repeatEn := repeatEn }) :
    CommandKeeps s t ∧ SameCellsBut .nvm (slot s.par) s t ∧ (arg = none → SameCells s t) := by
  obtain rfl | ⟨-, -, -, rfl⟩ | ⟨a, given, -, -, -, rfl⟩ := State.cmd2_next run
  · have scope := s.quiet_fetchScope
    exact ⟨scope.keeps, scope.sameCells.but, fun _ => scope.sameCells⟩
  · have scope : FetchScope s (s.quiet.rxAdvance.awaitArg c) := (State.awaitArg_fetchScope _ c).of_popped
    exact ⟨scope.keeps, scope.sameCells.but, fun _ => scope.sameCells⟩
  · have scope (u : State) : ArgScope u { effect a u with dpPhase := dpIdle } := by
      obtain ⟨soundEn, repeatEn, stored⟩ := stores a u
      exact stored ▸ ⟨_, _, _, _, _, _, _, _, rfl⟩
    obtain ⟨soundEn, repeatEn, stored⟩ := stores a s.quiet.rxAdvance
    refine ⟨(scope _).of_popped.keeps, stored ▸ s.quiet.rxAdvance.nvmWrite_sameCellsBut _ a, fun absent => ?_⟩
    exact absurd (given.symm.trans absent) (Option.some_ne_none a)

/-- Settles O50: the commands without an argument by the scope of a fetch, the LED commands and the setting commands by
the two forms that each of them has. -/
theorem commandFrame : Obligations.CommandFrame := by
  unfold Obligations.CommandFrame
  intro s t c arg
  have fetched : ∀ i ∈ [Instr.getkey, .getcur, .getcnt, .cmdIgnored c], exec i s = .next t → FetchScope s t := by
    intro i member run
    simp only [List.mem_cons, List.not_mem_nil, or_false] at member
    obtain rfl | rfl | rfl | rfl := member
    · rw [exec_getkey] at run
      exact State.fetchStep_fetchScope run fun u => by rw [u.kqClear_kqPop0]; exact ⟨_, _, _, _, _, _, _, rfl⟩
    · rw [exec_getcur] at run
      exact State.fetchStep_fetchScope run fun _ => ⟨_, _, _, _, _, _, _, rfl⟩
    · rw [exec_getcnt] at run
      exact State.fetchStep_fetchScope run fun _ => ⟨_, _, _, _, _, _, _, rfl⟩
    · rw [exec_cmdIgnored] at run
      exact State.fetchStep_fetchScope run fun _ => ⟨_, _, _, _, _, _, _, rfl⟩
  have sound : ∀ arg, exec (.setsnd arg) s = .next t →
      CommandKeeps s t ∧ SameCellsBut .nvm s.par.slotSound s t ∧ (arg = none → SameCells s t) := fun _ run =>
    State.cmd2_store_frame (slot := (·.slotSound)) run fun _ _ => ⟨_, _, rfl⟩
  have repeats : ∀ arg, exec (.setrpt arg) s = .next t →
      CommandKeeps s t ∧ SameCellsBut .nvm s.par.slotRepeat s t ∧ (arg = none → SameCells s t) := fun _ run =>
    State.cmd2_store_frame (slot := (·.slotRepeat)) run fun _ _ => ⟨_, _, rfl⟩
  refine ⟨fun i member run => ?cells, fun run => (sound arg run).2.1, fun run => (repeats arg run).2.1,
    fun i member run => ?registers⟩
  case cells =>
    simp only [List.mem_cons, List.not_mem_nil, or_false] at member
    obtain rfl | rfl | rfl | rfl | rfl | rfl | rfl | rfl | rfl | rfl := member
    iterate 4 exact (fetched _ (by simp) run).sameCells
    iterate 4 exact (State.cmd2_setLed_frame run).2
    · exact (sound none run).2.2 rfl
    · exact (repeats none run).2.2 rfl
  case registers =>
    simp only [List.mem_cons, List.not_mem_nil, or_false] at member
    obtain rfl | rfl | rfl | rfl | rfl | rfl | rfl | rfl | rfl | rfl := member
    iterate 4 exact (fetched _ (by simp) run).keeps
    iterate 4 exact (State.cmd2_setLed_frame run).1
    · exact (sound arg run).1
    · exact (repeats arg run).1

/-! ### Status events -/

/-- The next state differs in the registers alone that the engine writes, and in cells. -/
def StatusScope (s t : State) : Prop :=
  ∃ busy rxWr rxFull rxOvf txRd mem out, t = { s with
    busy := busy, rxWr := rxWr, rxFull := rxFull, rxOvf := rxOvf, txRd := txRd, mem := mem, out := out }

/-- What every status event leaves as it was. -/
theorem StatusScope.keeps {s t : State} (scope : StatusScope s t) :
    SameDebounce s t ∧ SameSeen s t ∧ SameDispatcher s t ∧ SameModel s t := by
  obtain ⟨_, _, _, _, _, _, _, rfl⟩ := scope
  exact ⟨⟨rfl, rfl, rfl, rfl⟩, ⟨rfl, rfl, rfl, rfl, rfl, rfl, rfl⟩,
    ⟨rfl, rfl, rfl, rfl, ⟨rfl, rfl, rfl⟩, ⟨rfl, rfl, rfl⟩⟩, ⟨rfl, rfl, rfl, rfl, rfl⟩⟩

/-- The two courses of a byte received keep all of the engine's frame; the cell at `rx_wr` is the one written. -/
theorem State.rxPush_frame {s t : State} {d : Byte} (run : s.quiet.rxPush d = .next t) :
    StatusScope s t ∧ SameCellsBut .rx s.rxWr s t ∧ t.txRd = s.txRd ∧ t.busy = s.busy := by
  obtain ⟨-, rfl⟩ | ⟨-, -, rfl⟩ := State.rxPush_next run
  · exact ⟨⟨_, _, _, _, _, _, _, rfl⟩, SameCells.but (State.readCell_congr rfl rfl), rfl, rfl⟩
  · exact ⟨⟨_, _, _, _, _, _, _, rfl⟩, s.quiet.rxStore_sameCellsBut d, rfl, rfl⟩

theorem exec_decodeStatus_scope {cls : BitVec 4} {d : Byte} {s t : State}
    (run : exec (decodeStatus cls d) s = .next t) : StatusScope s t := by
  obtain ⟨-, h⟩ | ⟨-, h⟩ | ⟨-, h⟩ | ⟨-, h⟩ | ⟨-, h⟩ := exec_decodeStatus_cases cls d <;> rw [h] at run
  case inr.inr.inl =>
    rw [State.busRecovery_eq] at run
    cases run
    exact ⟨_, _, _, _, _, _, _, rfl⟩
  case inr.inr.inr.inr => exact (State.rxPush_frame run).1
  all_goals
    cases run
    exact ⟨_, _, _, _, _, _, _, rfl⟩

/-- Settles O51: the registers by the scope that all classes share, the cells and the indices by the five groups of
classes. -/
theorem statusFrame : Obligations.StatusFrame := by
  unfold Obligations.StatusFrame
  intro s t cls d run
  obtain ⟨debounce, seen, dispatcher, model⟩ := (exec_decodeStatus_scope run).keeps
  refine ⟨debounce, seen, dispatcher, model, ?_⟩
  obtain ⟨-, h⟩ | ⟨-, h⟩ | ⟨-, h⟩ | ⟨read, h⟩ | ⟨received, h⟩ := exec_decodeStatus_cases cls d <;> rw [h] at run
  case inr.inr.inr.inl =>
    cases run
    have cells : SameCells s s.quiet.txNext := State.readCell_congr rfl rfl
    exact ⟨cells.but, fun _ _ => ⟨cells, rfl, rfl, rfl⟩, fun ne7 ne8 => absurd read (not_or.mpr ⟨ne7, ne8⟩)⟩
  case inr.inr.inr.inr =>
    obtain ⟨-, cells, txRd, -⟩ := State.rxPush_frame run
    exact ⟨cells, fun ne3 ne4 => absurd received (not_or.mpr ⟨ne3, ne4⟩), fun _ _ => txRd⟩
  case inr.inr.inl =>
    rw [State.busRecovery_eq] at run
    cases run
    exact ⟨fun _ _ _ => rfl, fun _ _ => ⟨fun _ _ => rfl, rfl, rfl, rfl⟩, fun _ _ => rfl⟩
  all_goals
    cases run
    exact ⟨fun _ _ _ => rfl, fun _ _ => ⟨fun _ _ => rfl, rfl, rfl, rfl⟩, fun _ _ => rfl⟩

end Sys2Proof.Machine
end

section
/-! PROOF. Which line of a running machine writes a signal, by the courses of each line and the frames of the agents. -/

namespace Sys2Proof.Machine

/-! ### The parts of a frame -/

theorem SameDispatcher.samePhase {s t : State} (same : SameDispatcher s t) : SamePhase s t := by
  obtain ⟨-, -, -, -, phase, -⟩ := same
  exact phase

theorem SameDispatcher.sameSettings {s t : State} (same : SameDispatcher s t) : SameSettings s t := by
  obtain ⟨-, -, -, -, -, settings⟩ := same
  exact settings

theorem CommandKeeps.sameSeen {s t : State} (keeps : CommandKeeps s t) : SameSeen s t := by
  obtain ⟨-, seen, -⟩ := keeps
  exact seen

theorem CommandKeeps.sameBusy {s t : State} (keeps : CommandKeeps s t) : t.busy = s.busy := by
  obtain ⟨-, -, ⟨busy, -⟩, -⟩ := keeps
  exact busy

theorem CommandKeeps.sameModel {s t : State} (keeps : CommandKeeps s t) : SameModel s t := by
  obtain ⟨-, -, -, model, -⟩ := keeps
  exact model

theorem CommandKeeps.sameRxOvf {s t : State} (keeps : CommandKeeps s t) : t.rxOvf = s.rxOvf := by
  obtain ⟨-, -, -, -, rxOvf, -⟩ := keeps
  exact rxOvf

theorem CommandKeeps.sameOvfAck {s t : State} (keeps : CommandKeeps s t) : t.ovfAck = s.ovfAck := by
  obtain ⟨-, -, -, -, -, -, -, ovfAck⟩ := keeps
  exact ovfAck

theorem SameDispatcher.sameOvfAck {s t : State} (same : SameDispatcher s t) : t.ovfAck = s.ovfAck := by
  obtain ⟨-, -, ovfAck, -⟩ := same
  exact ovfAck

theorem State.tick_sameSeen (s : State) (k : Byte) : SameSeen s (s.tick k) := (s.tick_sameOthers k).1

theorem State.tick_sameBusy (s : State) (k : Byte) : (s.tick k).busy = s.busy := by
  obtain ⟨-, ⟨busy, -⟩, -⟩ := s.tick_sameOthers k
  exact busy

theorem State.tick_sameRxOvf (s : State) (k : Byte) : (s.tick k).rxOvf = s.rxOvf := by
  obtain ⟨-, -, ⟨-, rxOvf, -⟩, -⟩ := s.tick_sameOthers k
  exact rxOvf

theorem State.tick_sameModel (s : State) (k : Byte) : SameModel s (s.tick k) := by
  obtain ⟨-, -, -, -, model⟩ := s.tick_sameOthers k
  exact model

theorem State.tick_sameDispatcher (s : State) (k : Byte) : SameDispatcher s (s.tick k) := by
  obtain ⟨-, -, -, dispatcher, -⟩ := s.tick_sameOthers k
  exact dispatcher

theorem StatusScope.sameSeen {s t : State} (scope : StatusScope s t) : SameSeen s t := by
  obtain ⟨-, seen, -⟩ := scope.keeps
  exact seen

theorem StatusScope.sameDispatcher {s t : State} (scope : StatusScope s t) : SameDispatcher s t := by
  obtain ⟨-, -, dispatcher, -⟩ := scope.keeps
  exact dispatcher

theorem StatusScope.sameModel {s t : State} (scope : StatusScope s t) : SameModel s t := by
  obtain ⟨-, -, -, model⟩ := scope.keeps
  exact model

/-- A synchroniser's step leaves the state of the three agents (R37). -/
theorem State.syncStep_sameOthers (s : State) (x : Crossing) :
    SameDebounce s (s.syncStep x) ∧ SameEngine s (s.syncStep x) ∧ SameShared s (s.syncStep x) ∧
      SameDispatcher s (s.syncStep x) ∧ SameCells s (s.syncStep x) := by
  cases x <;>
    exact ⟨⟨rfl, rfl, rfl, rfl⟩, ⟨rfl, rfl⟩, ⟨rfl, rfl, rfl⟩,
      ⟨rfl, rfl, rfl, rfl, ⟨rfl, rfl, rfl⟩, ⟨rfl, rfl, rfl⟩⟩, State.readCell_congr rfl rfl⟩

theorem State.syncStep_sameBusy (s : State) (x : Crossing) : (s.syncStep x).busy = s.busy := by
  obtain ⟨-, ⟨busy, -⟩, -⟩ := s.syncStep_sameOthers x
  exact busy

theorem State.syncStep_sameDispatcher (s : State) (x : Crossing) : SameDispatcher s (s.syncStep x) := by
  obtain ⟨-, -, -, dispatcher, -⟩ := s.syncStep_sameOthers x
  exact dispatcher

/-! ### The seen copies -/

theorem RunCourse.sameSeen {s t : State} {l : Line} (course : RunCourse s l t) (notSync : ∀ x, l ≠ .sync x)
    (notReset : l ≠ .rstAssert) : SameSeen s t := by
  cases course with
  | tickC k => exact s.tick_sameSeen k
  | tickM m => exact s.tick_sameSeen _
  | status cls d run => exact (exec_decodeStatus_scope run).sameSeen
  | fetched => exact (commandEffect_fetchScope _ _).of_popped.keeps.sameSeen
  | argued => exact (argumentEffect_argScope _ _ _).of_popped.keeps.sameSeen
  | synced x => exact absurd rfl (notSync x)
  | reset => exact absurd rfl notReset
  | fetchWaits | argWaits | stageWaits | houseWaits | released | staged | housed =>
    exact ⟨rfl, rfl, rfl, rfl, rfl, rfl, rfl⟩

/-- Settles O28: by the courses of the line, of which only a synchroniser's and the reset write a seen copy. -/
theorem seenCopiesChangeOnlyBySync : Obligations.SeenCopiesChangeOnlyBySync := by
  unfold Obligations.SeenCopiesChangeOnlyBySync
  intro s t running notSync notReset stepped
  obtain ⟨_, _, course⟩ := step_runCourse running stepped
  exact course.sameSeen notSync notReset

/-! ### `busy` -/

/-- `busy` after a status event, by its class (R82 to R93). -/
theorem exec_decodeStatus_busy {cls : BitVec 4} {d : Byte} {s t : State}
    (run : exec (decodeStatus cls d) s = .next t) :
    (cls.toNat ∈ [1, 2, 7, 8] → t.busy = true) ∧ (cls.toNat ∈ [6, 9, 11, 12, 13, 14, 15] → t.busy = false) ∧
      (cls.toNat ∈ [0, 3, 4, 5, 10] → t.busy = s.busy) := by
  have disjoint : ∀ c : BitVec 4, ((c = 1 ∨ c = 2) ∨ (c = 7 ∨ c = 8) → c.toNat ∉ [6, 9, 11, 12, 13, 14, 15] ∧
      c.toNat ∉ [0, 3, 4, 5, 10]) ∧ ((c = 6 ∨ c = 9 ∨ 11 ≤ c.toNat) → c.toNat ∉ [1, 2, 7, 8] ∧
      c.toNat ∉ [0, 3, 4, 5, 10]) ∧ ((c = 0 ∨ c = 5 ∨ c = 10) ∨ (c = 3 ∨ c = 4) → c.toNat ∉ [1, 2, 7, 8] ∧
      c.toNat ∉ [6, 9, 11, 12, 13, 14, 15]) := by decide
  obtain ⟨sets, clears, leaves⟩ := disjoint cls
  obtain ⟨group, h⟩ | ⟨group, h⟩ | ⟨group, h⟩ | ⟨group, h⟩ | ⟨group, h⟩ := exec_decodeStatus_cases cls d <;>
    rw [h] at run
  · cases run
    exact ⟨fun _ => rfl, fun c => absurd c (sets (.inl group)).1, fun c => absurd c (sets (.inl group)).2⟩
  · cases run
    exact ⟨fun c => absurd c (clears group).1, fun _ => rfl, fun c => absurd c (clears group).2⟩
  · cases run
    exact ⟨fun c => absurd c (leaves (.inl group)).1, fun c => absurd c (leaves (.inl group)).2, fun _ => rfl⟩
  · cases run
    exact ⟨fun _ => rfl, fun c => absurd c (sets (.inr group)).1, fun c => absurd c (sets (.inr group)).2⟩
  · obtain ⟨-, -, -, busy⟩ := State.rxPush_frame run
    exact ⟨fun c => absurd c (leaves (.inr group)).1, fun c => absurd c (leaves (.inr group)).2, fun _ => busy⟩

theorem RunCourse.sameBusy {s t : State} {l : Line} (course : RunCourse s l t) (notStatus : ∀ cls d, l ≠ .st cls d)
    (notReset : l ≠ .rstAssert) : t.busy = s.busy := by
  cases course with
  | tickC k => exact s.tick_sameBusy k
  | tickM m => exact s.tick_sameBusy _
  | status cls d => exact absurd rfl (notStatus cls d)
  | fetched => exact (commandEffect_fetchScope _ _).of_popped.keeps.sameBusy
  | argued => exact (argumentEffect_argScope _ _ _).of_popped.keeps.sameBusy
  | synced x => exact s.syncStep_sameBusy x
  | reset => exact absurd rfl notReset
  | fetchWaits | argWaits | stageWaits | houseWaits | released | staged | housed => rfl

/-- Settles O35: a status line by its class, every other line by its agent's frame. -/
theorem busyFollowsStatusClasses : Obligations.BusyFollowsStatusClasses := by
  unfold Obligations.BusyFollowsStatusClasses
  intro s t running stepped
  obtain ⟨_, _, course⟩ := step_runCourse running stepped
  refine ⟨fun cls d line => ?_, fun notStatus notReset => course.sameBusy notStatus notReset⟩
  rw [line] at course
  cases course with
  | status _ _ run =>
    have busy := exec_decodeStatus_busy run
    exact busy

/-! ### `dp_phase` -/

theorem State.fetchEnabled_of_dpArg {s : State} (arg : s.dpPhase = dpArg) : s.fetchEnabled = false := by
  have not_idle : (dpArg == dpIdle || dpArg == 3) = false := by decide
  rw [State.fetchEnabled, State.phaseIdle, arg, not_idle, Bool.false_and]

theorem State.stageEnabled_of_dpArg {s : State} (arg : s.dpPhase = dpArg) : s.stageEnabled = false := by
  have not_stage : (dpArg == dpStage) = false := by decide
  rw [State.stageEnabled, arg, not_stage, Bool.false_and]

/-- A waiting dispatcher's phase is left by the step it waits for alone (R117). -/
theorem RunCourse.samePhase {s t : State} {l : Line} (course : RunCourse s l t) (notReset : l ≠ .rstAssert)
    (noFetch : s.fetchEnabled = false) (noArg : l = .dArg → s.argEnabled = false)
    (noStage : l = .dStage → s.stageEnabled = false) : t.dpPhase = s.dpPhase := by
  cases course with
  | tickC k => exact (s.tick_sameDispatcher k).samePhase.1
  | tickM m => exact (s.tick_sameDispatcher _).samePhase.1
  | status cls d run => exact (exec_decodeStatus_scope run).sameDispatcher.samePhase.1
  | fetched enabled => exact absurd (noFetch.symm.trans enabled) Bool.false_ne_true
  | argued enabled => exact absurd ((noArg rfl).symm.trans enabled) Bool.false_ne_true
  | staged enabled => exact absurd ((noStage rfl).symm.trans enabled) Bool.false_ne_true
  | synced x => exact (s.syncStep_sameDispatcher x).samePhase.1
  | reset => exact absurd rfl notReset
  | fetchWaits | argWaits | stageWaits | houseWaits | released | housed => rfl

/-- Settles O47: the phase decides which of the dispatcher's steps are enabled, and no other line writes it. -/
theorem waitsEndOnlyByTheirOwnStep : Obligations.WaitsEndOnlyByTheirOwnStep := by
  unfold Obligations.WaitsEndOnlyByTheirOwnStep
  intro s t running notReset stepped
  obtain ⟨_, _, course⟩ := step_runCourse running stepped
  refine ⟨fun arg left => ?arg, fun stage left => ?stage⟩ <;> by_contra other
  case arg =>
    exact left ((course.samePhase notReset (State.fetchEnabled_of_dpArg arg) (fun line => absurd line other)
      fun _ => State.stageEnabled_of_dpArg arg).trans arg)
  case stage =>
    exact left ((course.samePhase notReset (State.fetchEnabled_of_dpStage stage)
      (fun _ => State.argEnabled_of_dpStage stage) fun line => absurd line other).trans stage)

/-! ### Settings, LEDs and slots -/

/-- The settings, the LEDs and the non-volatile slots as before. -/
def SameStored (s t : State) : Prop := SameSettings s t ∧ ∀ i, t.readCell .nvm i = s.readCell .nvm i

theorem RunCourse.sameStored {s t : State} {l : Line} (course : RunCourse s l t) (notArg : l ≠ .dArg)
    (notReset : l ≠ .rstAssert) : SameStored s t := by
  have of_tick (k : Byte) : SameStored s (s.tick k) :=
    ⟨(s.tick_sameDispatcher k).sameSettings, fun i => s.tick_sameCellsBut k .nvm i (by simp)⟩
  cases course with
  | tickC k => exact of_tick k
  | tickM m => exact of_tick _
  | status cls d run =>
    obtain ⟨-, -, dispatcher, -, cells, -⟩ := statusFrame s t cls d run
    exact ⟨dispatcher.sameSettings, fun i => cells .nvm i (by simp)⟩
  | fetched =>
    have scope := (commandEffect_fetchScope s.rxHead s.quiet.rxAdvance).of_popped
    exact ⟨scope.sameSettings, scope.sameCells .nvm⟩
  | synced x =>
    obtain ⟨-, -, -, dispatcher, cells⟩ := s.syncStep_sameOthers x
    exact ⟨dispatcher.sameSettings, cells .nvm⟩
  | staged => exact ⟨⟨rfl, rfl, rfl⟩, fun i => s.quiet.txStage_sameCellsBut s.dpReply .nvm i (by simp)⟩
  | argWaits | argued => exact absurd rfl notArg
  | reset => exact absurd rfl notReset
  | fetchWaits | stageWaits | houseWaits | released | housed =>
    exact ⟨⟨rfl, rfl, rfl⟩, fun _ => State.readCell_congr rfl rfl _ _⟩

/-- The argument of a setting command writes its own setting and slot, of an LED command the LEDs, of any other
nothing. -/
theorem argumentEffect_stored (c a : Byte) (u : State) :
    ((argumentEffect c a u).soundEn ≠ u.soundEn → c = 20) ∧ ((argumentEffect c a u).repeatEn ≠ u.repeatEn → c = 21) ∧
      ((argumentEffect c a u).led ≠ u.led → c.toNat ∈ [10, 11, 12, 13]) ∧
      ∀ i, (argumentEffect c a u).readCell .nvm i ≠ u.readCell .nvm i →
        c = 20 ∧ i = u.par.slotSound ∨ c = 21 ∧ i = u.par.slotRepeat := by
  have slot_of_ne {slot i : Nat} (ne : (u.nvmWrite slot a).readCell .nvm i ≠ u.readCell .nvm i) : i = slot := by
    by_contra other
    exact ne (u.nvmWrite_sameCellsBut slot a .nvm i fun here => other here.2)
  obtain ⟨code, h⟩ | ⟨code, h⟩ | ⟨code, h⟩ | ⟨-, h⟩ := argumentEffect_cases c a u <;> rw [h]
  · exact ⟨fun _ => code, fun ne => absurd rfl ne, fun ne => absurd rfl ne, fun i ne => .inl ⟨code, slot_of_ne ne⟩⟩
  · exact ⟨fun ne => absurd rfl ne, fun _ => code, fun ne => absurd rfl ne, fun i ne => .inr ⟨code, slot_of_ne ne⟩⟩
  · exact ⟨fun ne => absurd rfl ne, fun ne => absurd rfl ne, fun _ => code, fun i ne => absurd rfl ne⟩
  · exact ⟨fun ne => absurd rfl ne, fun ne => absurd rfl ne, fun ne => absurd rfl ne, fun i ne => absurd rfl ne⟩

/-- Settles O52: no line but an argument's writes any of them, and that one by the command that waits. -/
theorem settingsChangeOnlyByTheirCommands : Obligations.SettingsChangeOnlyByTheirCommands := by
  unfold Obligations.SettingsChangeOnlyByTheirCommands
  intro s t running stepped notReset
  obtain ⟨inbox, freeIdx, course⟩ := step_runCourse running stepped
  by_cases line : s.nextLine = .dArg
  case neg =>
    obtain ⟨⟨soundEn, repeatEn, led⟩, nvm⟩ := course.sameStored line notReset
    exact ⟨fun ne => absurd soundEn ne, fun ne => absurd repeatEn ne, fun ne => absurd led ne,
      fun i ne => absurd (nvm i) ne⟩
  case pos =>
    rw [line] at course ⊢
    cases course with
    | argWaits =>
      exact ⟨fun ne => absurd rfl ne, fun ne => absurd rfl ne, fun ne => absurd rfl ne, fun i ne => absurd rfl ne⟩
    | argued =>
      let popped := State.rxAdvance (State.quiet { s with inbox := inbox, freeIdx := freeIdx })
      obtain ⟨sound, repeats, led, slots⟩ := argumentEffect_stored s.dpCmd s.rxHead popped
      exact ⟨fun ne => ⟨rfl, sound ne⟩, fun ne => ⟨rfl, repeats ne⟩, fun ne => ⟨rfl, led ne⟩,
        fun i ne => ⟨rfl, slots i ne⟩⟩

/-! ### The overflow signals -/

/-- No status event clears `rx_ovf`. -/
theorem exec_decodeStatus_rxOvf {cls : BitVec 4} {d : Byte} {s t : State}
    (run : exec (decodeStatus cls d) s = .next t) (set : s.rxOvf = true) : t.rxOvf = true := by
  obtain ⟨-, h⟩ | ⟨-, h⟩ | ⟨-, h⟩ | ⟨-, h⟩ | ⟨-, h⟩ := exec_decodeStatus_cases cls d <;> rw [h] at run
  case inr.inr.inr.inr =>
    obtain ⟨-, rfl⟩ | ⟨-, -, rfl⟩ := State.rxPush_next run
    · rfl
    · exact set
  all_goals
    cases run
    exact set

theorem RunCourse.rxOvf_kept {s t : State} {l : Line} (course : RunCourse s l t) (notHouse : l ≠ .dHouse)
    (notReset : l ≠ .rstAssert) (set : s.rxOvf = true) : t.rxOvf = true := by
  cases course with
  | tickC k => exact (s.tick_sameRxOvf k).trans set
  | tickM m => exact (s.tick_sameRxOvf _).trans set
  | status cls d run => exact exec_decodeStatus_rxOvf run set
  | fetched => exact (commandEffect_fetchScope _ _).of_popped.keeps.sameRxOvf.trans set
  | argued => exact (argumentEffect_argScope _ _ _).of_popped.keeps.sameRxOvf.trans set
  | synced x =>
    obtain ⟨-, -, ⟨-, rxOvf, -⟩, -⟩ := s.syncStep_sameOthers x
    exact rxOvf.trans set
  | houseWaits | housed => exact absurd rfl notHouse
  | reset => exact absurd rfl notReset
  | fetchWaits | argWaits | stageWaits | released | staged => exact set

theorem RunCourse.sameOvfAck {s t : State} {l : Line} (course : RunCourse s l t) (notHouse : l ≠ .dHouse)
    (notReset : l ≠ .rstAssert) : t.ovfAck = s.ovfAck := by
  cases course with
  | tickC k => exact (s.tick_sameDispatcher k).sameOvfAck
  | tickM m => exact (s.tick_sameDispatcher _).sameOvfAck
  | status cls d run => exact (exec_decodeStatus_scope run).sameDispatcher.sameOvfAck
  | fetched => exact (commandEffect_fetchScope _ _).of_popped.keeps.sameOvfAck
  | argued => exact (argumentEffect_argScope _ _ _).of_popped.keeps.sameOvfAck
  | synced x => exact (s.syncStep_sameDispatcher x).sameOvfAck
  | houseWaits | housed => exact absurd rfl notHouse
  | reset => exact absurd rfl notReset
  | fetchWaits | argWaits | stageWaits | released | staged => rfl

/-- A request seen and not acknowledged is the request as it stands, so that its copy stays as it is (R14). -/
theorem RunCourse.ovfReqB_of_pending {s t : State} {l : Line} (course : RunCourse s l t) (sound : HandshakeSound s)
    (pending : s.ovfReqB ≠ s.ovfAck) (notReset : l ≠ .rstAssert) : t.ovfReqB = s.ovfReqB := by
  by_cases sync : ∃ x, l = .sync x
  · obtain ⟨x, rfl⟩ := sync
    obtain ⟨copied, -⟩ := sound.2 pending
    cases course with
    | synced => cases x with
      | ovfReq => exact copied
      | kqWr | kqRd | cur | cfg | cfgSound | cfgRepeat | ovfAck => rfl
  · obtain ⟨-, -, -, -, -, ovfReqB, -⟩ := course.sameSeen (fun x line => sync ⟨x, line⟩) notReset
    exact ovfReqB

/-- Settles O53: no line but `D_HOUSE`'s and a reset clears `rx_ovf` or moves either end of the keyboard's link, the
request seen and its acknowledgement. -/
theorem overflowsClearedOnlyByHouse : Obligations.OverflowsClearedOnlyByHouse := by
  unfold Obligations.OverflowsClearedOnlyByHouse
  intro s t sound running stepped
  obtain ⟨_, _, course⟩ := step_runCourse running stepped
  refine ⟨fun set cleared => ?rx, fun pending cleared => ?kbd⟩ <;> by_contra other <;>
    obtain ⟨notHouse, notReset⟩ := not_or.mp other
  case rx => exact absurd (cleared.symm.trans (course.rxOvf_kept notHouse notReset set)) Bool.false_ne_true
  case kbd =>
    rw [State.kbdOvfPending_iff] at pending
    have link : t.kbdOvfPending = true := by
      rw [State.kbdOvfPending_iff, course.ovfReqB_of_pending sound pending notReset,
        course.sameOvfAck notHouse notReset]
      exact pending
    exact absurd (cleared.symm.trans link) Bool.false_ne_true

end Sys2Proof.Machine
end

section
/-! PROOF. Single steps: what the next line makes a running machine do, when a dispatcher line does nothing, and when an
instruction completes or faults. -/

namespace Sys2Proof.Machine

/-! ### The line presented -/

/-- Taking a line leaves what a line presents. -/
theorem State.popLine_presents (s : State) (l : Line) : s.popLine.presents l = s.presents l := by
  rw [State.popLine_eq]
  cases l <;> rfl

/-- A running machine whose next line presents an input that decodes runs the instruction. -/
theorem step_decoded {s : State} {e : Encoded} {i : Instr} (running : s.resetPhase = .running)
    (presented : s.presents s.nextLine = some e) (read : decode e = .ok i) : step s = exec i s.popLine := by
  rw [step_of_running running]
  exact State.runLine_decoded ((s.popLine_presents _).trans presented) read

/-- Settles O6: the line is taken and presents what it presented; a tick and a status event present their own input, a
fetch and an argument by their guard. -/
theorem stepRunsDecodedInstruction : Obligations.StepRunsDecodedInstruction := by
  unfold Obligations.StepRunsDecodedInstruction
  exact ⟨fun _ _ _ => step_decoded, fun _ _ _ => State.popLine_of_inbox, fun _ _ => rfl, fun _ _ => rfl,
    fun _ _ _ => rfl, fun _ enabled => if_pos enabled, fun _ enabled => if_pos enabled⟩

theorem State.popLine_argEnabled (s : State) : s.popLine.argEnabled = s.argEnabled := by
  rw [State.popLine_eq]
  rfl

/-- Settles O42: a frame that decodes runs its instruction; otherwise the argument has no effect but its pop. -/
theorem argumentStepFinishesTheCommand : Obligations.ArgumentStepFinishesTheCommand := by
  unfold Obligations.ArgumentStepFinishesTheCommand
  intro s running line enabled index
  refine ⟨fun i read => ?finished, fun noArg => ?popped⟩
  case finished =>
    have presented : s.presents s.nextLine = some (.frame [s.dpCmd, s.rxHead]) := by
      rw [line]
      exact if_pos enabled
    exact step_decoded running presented read
  case popped =>
    rw [step_of_running running, line, State.runLine_dArg, State.popLine_dpCmd, argumentEffect_of_not_takesArg _ noArg,
      State.argStep_enabled (s.popLine_argEnabled.trans enabled) (by simpa using index), id_eq,
      State.quiet_rxAdvance_eq]
    simp only [State.popLine_rxRd, State.popLine_par]

/-! ### The first byte -/

/-- The command byte makes an idle dispatcher wait for an argument exactly if it is one that takes one (R102). -/
theorem commandEffect_dpPhase {u : State} (c : Byte) (idle : u.phaseIdle = true) :
    (commandEffect c u).dpPhase = dpArg ↔ takesArg c = true := by
  have ne_arg : u.dpPhase ≠ dpArg := by
    intro arg
    rw [State.phaseIdle_iff, arg] at idle
    exact absurd idle (by decide)
  cases command : isCommand c with
  | true =>
    obtain rfl | rfl | rfl | rfl | rfl | rfl | rfl | rfl | rfl := isCommand_cases command
    iterate 3 exact iff_of_false (show dpStage ≠ dpArg by decide) (by decide)
    iterate 6 exact iff_of_true rfl rfl
  | false =>
    have noArg : takesArg c = false := by
      simp only [isCommand, Bool.or_eq_false_iff] at command
      simp only [takesArg, Bool.or_eq_false_iff, command, and_self]
    rw [commandEffect_of_not_command command, State.raise_dpPhase, noArg]
    exact iff_of_false ne_arg Bool.false_ne_true

theorem State.phaseIdle_of_fetchEnabled {s : State} (enabled : s.fetchEnabled = true) : s.phaseIdle = true := by
  rw [State.fetchEnabled, Bool.and_eq_true] at enabled
  exact enabled.1

/-- Settles O5: the dispatcher by the phase that each command byte leaves, whole frames by the decoder's own cases. -/
theorem firstByteDecidesLength : Obligations.FirstByteDecidesLength := by
  unfold Obligations.FirstByteDecidesLength
  refine ⟨fun s c enabled index => ?fetched, fun c => ⟨_, rfl⟩, fun c a => ?two, fun c a b rest => rfl, rfl⟩
  case fetched =>
    refine ⟨_, (exec_decodeCommandByte c s).trans (State.fetchStep_enabled enabled index), ?_⟩
    have idle : s.quiet.rxAdvance.phaseIdle = true := State.phaseIdle_of_fetchEnabled (s := s) enabled
    rw [commandEffect_dpPhase c idle, takesArg_iff]
  case two =>
    rw [← takesArg_iff]
    refine ⟨fun ⟨i, read⟩ => ?_, fun takes => ?_⟩
    · by_contra noArg
      have unread : decode (.frame [c, a]) = .error (.takesNoArgument c) :=
        decodeArgumentByte_of_not_takesArg a (by simpa using noArg)
      rw [unread] at read
      cases read
    · obtain ⟨i, read, -, -⟩ := decodeArgumentByte_of_takesArg a takes
      exact ⟨i, read⟩

/-! ### Steps that are not enabled -/

theorem State.fetchStep_of_blocked {s : State} (effect : State → State) (blocked : s.fetchEnabled = false) :
    s.fetchStep effect = .next s.quiet := by
  rw [State.fetchStep, blocked, if_neg Bool.false_ne_true]

theorem State.argStep_of_blocked {s : State} (effect : State → State) (blocked : s.argEnabled = false) :
    s.argStep effect = .next s.quiet := by
  rw [State.argStep, blocked, if_neg Bool.false_ne_true]

/-- Where no step of the dispatcher is enabled, each of its lines only leaves the ports idle (log 2). -/
theorem State.runLine_of_dispatcherIdle {s : State} {l : Line} (idle : s.dispatcherIdle = true)
    (own : l ∈ [Line.dFetch, .dArg, .dStage, .dHouse]) : s.runLine l = .next s.quiet := by
  simp only [State.dispatcherIdle, Bool.and_eq_true, Bool.not_eq_true'] at idle
  obtain ⟨⟨⟨fetch, arg⟩, stage⟩, house⟩ := idle
  simp only [List.mem_cons, List.not_mem_nil, or_false] at own
  obtain rfl | rfl | rfl | rfl := own
  · rw [State.runLine_dFetch, State.fetchStep_of_blocked _ fetch]
  · rw [State.runLine_dArg, State.argStep_of_blocked _ arg]
  · rw [State.runLine_dStage, State.stageStep, stage, if_neg Bool.false_ne_true]
  · rw [State.runLine_dHouse, State.houseStep, house, if_neg Bool.false_ne_true]

theorem State.rxEmpty_of_indices {s : State} (indices : s.rxWr = s.rxRd) (notFull : s.rxFull = false) :
    s.rxEmpty = true := by
  rw [State.rxEmpty, indices, notFull, beq_self_eq_true]
  rfl

/-- In `DP_ARG` with `RX` empty nothing is enabled (R117). -/
theorem State.dispatcherIdle_of_dpArg {s : State} (arg : s.dpPhase = dpArg) (empty : s.rxEmpty = true) :
    s.dispatcherIdle = true := by
  have noArg : s.argEnabled = false := by rw [State.argEnabled, empty, Bool.not_true, Bool.and_false]
  rw [State.dispatcherIdle, State.fetchEnabled_of_dpArg arg, noArg, State.stageEnabled_of_dpArg arg,
    State.houseEnabled_of_dpArg arg]
  rfl

/-- Settles O46: either wait enables no step. -/
theorem blockedDispatcherDoesNothing : Obligations.BlockedDispatcherDoesNothing := by
  unfold Obligations.BlockedDispatcherDoesNothing
  intro s running waits own
  have idle : s.popLine.dispatcherIdle = true := by
    obtain ⟨arg, indices, notFull⟩ | ⟨stage, busy⟩ := waits
    · have empty : s.popLine.rxEmpty = true :=
        State.rxEmpty_of_indices (by simpa using indices) (by simpa using notFull)
      exact State.dispatcherIdle_of_dpArg (by simpa using arg) empty
    · exact stageStepStagesTheReply.2 s.popLine (by simpa using stage) (by simpa using busy)
  rw [step_of_running running, State.runLine_of_dispatcherIdle idle own]
  rfl

/-- A command byte alone runs inside `D_FETCH` (R102). -/
theorem exec_commandByte {c : Byte} {i : Instr} (member : i ∈ [Instr.getkey, .getcur, .getcnt, .led0 none, .led1 none,
    .led2 none, .led3 none, .setsnd none, .setrpt none, .cmdIgnored c]) (s : State) :
    ∃ effect, exec i s = s.fetchStep effect := by
  simp only [List.mem_cons, List.not_mem_nil, or_false] at member
  obtain rfl | rfl | rfl | rfl | rfl | rfl | rfl | rfl | rfl | rfl := member
  · exact ⟨_, exec_getkey s⟩
  · exact ⟨_, exec_getcur s⟩
  · exact ⟨_, exec_getcnt s⟩
  · exact ⟨_, exec_decodeCommandByte 10 s⟩
  · exact ⟨_, exec_decodeCommandByte 11 s⟩
  · exact ⟨_, exec_decodeCommandByte 12 s⟩
  · exact ⟨_, exec_decodeCommandByte 13 s⟩
  · exact ⟨_, exec_decodeCommandByte 20 s⟩
  · exact ⟨_, exec_decodeCommandByte 21 s⟩
  · exact ⟨_, exec_cmdIgnored c s⟩

/-- The commands with the argument `a`, each with its code (R52). -/
def commandsWithArgument (a : Byte) : List (Instr × Byte) :=
  [(.led0 (some a), 10), (.led1 (some a), 11), (.led2 (some a), 12), (.led3 (some a), 13), (.setsnd (some a), 20),
    (.setrpt (some a), 21)]

/-- A whole frame runs inside `D_ARG`, for the command that its first byte is (R113). -/
theorem exec_wholeFrame {a : Byte} {p : Instr × Byte} (member : p ∈ commandsWithArgument a) (s : State) :
    exec p.1 s = s.cmd2 p.2 (some a) (argumentEffect p.2) := by
  simp only [commandsWithArgument, List.mem_cons, List.not_mem_nil, or_false] at member
  obtain rfl | rfl | rfl | rfl | rfl | rfl := member <;> exact exec_of_decodeArgumentByte rfl s

/-- Settles O48: a command byte alone is `D_FETCH`; a whole frame is `D_ARG` or not the command that waits. -/
theorem commandNotEnabledDoesNothing : Obligations.CommandNotEnabledDoesNothing := by
  unfold Obligations.CommandNotEnabledDoesNothing
  intro s c a
  refine ⟨fun blocked i member => ?fetch, fun blocked i member => ?arg⟩
  case fetch =>
    obtain ⟨effect, h⟩ := exec_commandByte member s
    rw [h, State.fetchStep_of_blocked effect blocked]
    rfl
  case arg =>
    obtain ⟨p, coded, rfl⟩ := List.mem_map.mp (show i ∈ (commandsWithArgument a).map Prod.fst from member)
    rw [exec_wholeFrame coded, State.cmd2, State.argStep_of_blocked _ blocked, ite_self]
    rfl

/-! ### Faults and completion -/

/-- `RX_PUSH` at an index that does not exist faults (log 8). -/
theorem State.rxPush_of_missing {s : State} (d : Byte) (room : s.rxFull = false) (missing : s.par.cR ≤ s.rxWr) :
    s.rxPush d = .fault (.noSuchRxCell s.rxWr) := by
  rw [State.rxPush, room, if_neg Bool.false_ne_true, if_neg (Nat.not_lt.mpr missing)]

/-- Settles O49: the pops and the push meet the index that does not exist (log 8). -/
theorem missingRxCellFaults : Obligations.MissingRxCellFaults := by
  unfold Obligations.MissingRxCellFaults
  intro s c a d
  refine ⟨fun enabled index i member => ?fetch, fun enabled index p member waits => ?arg,
    fun room index i member => ?push⟩
  case fetch =>
    obtain ⟨effect, h⟩ := exec_commandByte member s
    rw [h, State.fetchStep, if_pos enabled, if_neg (Nat.not_lt.mpr index)]
  case arg =>
    rw [exec_wholeFrame member, State.cmd2, if_pos waits, State.argStep, if_pos enabled, if_neg (Nat.not_lt.mpr index)]
  case push =>
    have faults : s.quiet.rxPush d = .fault (.noSuchRxCell s.rxWr) :=
      State.rxPush_of_missing (s := s.quiet) d room index
    obtain rfl | rfl := List.mem_pair.1 member <;> exact faults

/-- Settles O34: by the five groups of classes; a byte received arms one more byte, dropped or stored. -/
theorem statusAlwaysCompletesWithOneAction : Obligations.StatusAlwaysCompletesWithOneAction := by
  unfold Obligations.StatusAlwaysCompletesWithOneAction
  intro cls d s index
  obtain ⟨-, h⟩ | ⟨-, h⟩ | ⟨-, h⟩ | ⟨-, h⟩ | ⟨-, h⟩ := exec_decodeStatus_cases cls d
  case inr.inr.inr.inr =>
    obtain ⟨t, pushed⟩ := State.rxPush_completes (s := s.quiet) d index
    refine ⟨t, .armRx, (h s).trans pushed, ?_⟩
    obtain ⟨-, rfl⟩ | ⟨-, -, rfl⟩ := State.rxPush_next pushed <;> rfl
  all_goals exact ⟨_, _, h s, rfl⟩

/-- Every code of a lawful key map, and the 0 for no key, is at most 16 (R7, R63). -/
theorem scan_le_sixteen {par : Config.Params} (lawful : par.wf) (m : BitVec 16) : (scan par m).toNat ≤ 16 := by
  obtain ⟨-, length, -, codes, -⟩ := lawful
  rw [scan_eq_find?]
  cases found : (List.range 4).find? (rowCount m · = 1) with
  | none => exact Nat.zero_le 16
  | some r =>
    have row : r < 4 := List.mem_range.mp (List.mem_of_find?_eq_some found)
    have exists_entry : 4 * r + rowColumn m r < par.keymap.length := by
      have column := rowColumn_lt m r
      omega
    rw [Option.map_some, Option.getD_some, keyAt_of_getElem? (List.getElem?_eq_getElem exists_entry)]
    exact (codes _ (List.getElem_mem exists_entry)).2

/-- Settles O15: `TICK.M` is the tick of the code scanned, which `scan_le_sixteen` bounds. -/
theorem tickOfSampleIsTickOfScan : Obligations.TickOfSampleIsTickOfScan := by
  unfold Obligations.TickOfSampleIsTickOfScan
  exact fun m s => ⟨s.tick (scan s.par m), rfl, rfl, fun lawful => scan_le_sixteen lawful m⟩

end Sys2Proof.Machine
end

section
/-! PROOF. Short runs: a reply from its command to the bus, over-reading, a setting across a reset, and the launch. -/

namespace Sys2Proof.Machine

/-! ### Runs of lines -/

/-- A line that completes hands its next state to the lines after it. -/
theorem State.runLines_cons_of_next {s t : State} {l : Line} (run : s.runLine l = .next t) (rest : List Line) :
    s.runLines (l :: rest) = t.runLines rest := by
  rw [State.runLines, run]

/-- Both events of a read are one `TX_NEXT` (R82, R83). -/
theorem State.runLine_read (s : State) {cls : BitVec 4} (read : cls = 0x7 ∨ cls = 0x8) :
    s.runLine (.st cls 0) = .next s.quiet.txNext := by
  obtain rfl | rfl := read <;> rfl

/-- A read of the `n` bytes that follow the one sent from `tx_rd`: the last of them is `n` cells further on (R97). -/
theorem State.runLines_overRead (s : State) (n : Nat) :
    ∃ t, s.quiet.txNext.runLines (List.replicate n (.st 0x8 0)) = .next t ∧
      t.out.action = some (.send (s.readCell .tx ((s.txRd.toNat + n) % 4))) ∧ t.busy = true ∧ SameCells s t := by
  induction n generalizing s with
  | zero =>
    have index : (s.txRd.toNat + 0) % 4 = s.txRd.toNat := Nat.mod_eq_of_lt s.txRd.isLt
    refine ⟨s.quiet.txNext, rfl, ?_, rfl, State.readCell_congr rfl rfl⟩
    rw [index]
    rfl
  | succ n ih =>
    obtain ⟨t, run, action, busy, cells⟩ := ih s.quiet.txNext
    have same : SameCells s s.quiet.txNext := State.readCell_congr rfl rfl
    have index : (s.quiet.txNext.txRd.toNat + n) % 4 = (s.txRd.toNat + (n + 1)) % 4 := by
      rw [State.quiet_txNext_eq]
      simp only [BitVec.toNat_ofNat]
      omega
    refine ⟨t, ?_, ?_, busy, fun sp i => (cells sp i).trans (same sp i)⟩
    · rw [List.replicate_succ, State.runLines_cons_of_next (State.runLine_read _ (.inr rfl)), run]
    · rw [action, index, same]

/-- Settles O36: the address event sends cell 0, and each data event after it the next one. -/
theorem overReadCyclesTheBuffer : Obligations.OverReadCyclesTheBuffer := by
  unfold Obligations.OverReadCyclesTheBuffer
  intro s n fromZero
  obtain ⟨t, run, action, busy, cells⟩ := s.runLines_overRead n
  have index : (s.txRd.toNat + n) % 4 = n % 4 := by rw [fromZero]; simp
  rw [index] at action
  exact ⟨t, (State.runLines_cons_of_next (s.runLine_read (.inl rfl)) _).trans run, action, busy, cells⟩

/-! ### A reply -/

/-- A reply that waits for an idle engine is staged and then sent to the master that reads (R99, R114, R82). -/
theorem State.runLines_reply {s : State} (wf : s.mem.wf) (stage : s.dpPhase = dpStage) (idle : s.busy = false) :
    ∃ t, s.runLines [.dStage, .st 0x7 0] = .next t ∧ t.out.action = some (.send s.dpReply) := by
  have enabled : s.stageEnabled = true := by rw [State.stageEnabled_of_dpStage stage, idle, Bool.not_false]
  have staged : s.runLine .dStage = .next { s.quiet.txStage s.dpReply with dpPhase := dpIdle } := by
    rw [State.runLine_dStage, State.stageStep_of_enabled enabled]
  have cell : (s.quiet.txStage s.dpReply).readCell .tx 0 = s.dpReply :=
    State.readCell_txStage_same (s := s.quiet) s.dpReply wf
  refine ⟨_, (State.runLines_cons_of_next staged _).trans
    (State.runLines_cons_of_next (State.runLine_read _ (.inl rfl)) []), ?_⟩
  exact congrArg (fun b => some (EngAction.send b)) cell

/-- A fetch whose command replies answers the master with that reply. -/
theorem State.runLines_fetched_reply {s u : State} {c : Byte} {i : Instr} (wf : s.mem.wf)
    (enabled : s.fetchEnabled = true) (idle : s.busy = false) (head : s.rxHead = c) (read : decodeCommandByte c = i)
    (replies : exec i s = .next u) (stage : u.dpPhase = dpStage) (memory : u.mem = s.mem) (busy : u.busy = s.busy) :
    ∃ t, s.runLines [.dFetch, .dStage, .st 0x7 0] = .next t ∧ t.out.action = some (.send u.dpReply) := by
  have presented : s.presents .dFetch = some (.frame [c]) := by
    rw [← head]
    exact if_pos enabled
  have fetched : s.runLine .dFetch = .next u := by
    rw [State.runLine_decoded presented (congrArg Except.ok read), replies]
  rw [State.runLines_cons_of_next fetched]
  exact State.runLines_reply (by rwa [memory]) stage (busy.trans idle)

/-- Settles O45: the three commands by their exact next states, which leave the reply to be staged. -/
theorem replyReachesTheMaster : Obligations.ReplyReachesTheMaster := by
  unfold Obligations.ReplyReachesTheMaster
  intro s wf enabled index idle sent
  obtain ⟨readKey, readCur, readCnt, exact_next⟩ := replyCommands
  obtain ⟨key, cur, cnt⟩ := exact_next s enabled index
  exact ⟨fun head => State.runLines_fetched_reply wf enabled idle head readKey key rfl rfl rfl,
    fun head => State.runLines_fetched_reply wf enabled idle head readCur cur rfl rfl rfl,
    fun head => State.runLines_fetched_reply wf enabled idle head readCnt cnt rfl rfl rfl⟩

/-! ### A setting across a reset -/

/-- What the next `RESET` and `BOOT` bring up is what the slots hold (R47, R149). -/
theorem State.boot_after_reset (s : State) :
    s.resetStep.releaseStep.bootStep.soundEn = s.readCell .nvm s.par.slotSound ∧
      s.resetStep.releaseStep.bootStep.soundEnT = decide (s.readCell .nvm s.par.slotSound ≠ 0) ∧
      s.resetStep.releaseStep.bootStep.repeatEn = s.readCell .nvm s.par.slotRepeat ∧
      s.resetStep.releaseStep.bootStep.repeatEnT = decide (s.readCell .nvm s.par.slotRepeat ≠ 0) := by
  rw [State.bootStep_eq]
  exact ⟨rfl, rfl, rfl, rfl⟩

/-- Settles O11: the command leaves its byte in its slot, and `RESET` and `BOOT` load the slot. -/
theorem storedSettingSurvivesReset : Obligations.StoredSettingSurvivesReset := by
  unfold Obligations.StoredSettingSurvivesReset
  intro s t a wf enabled
  obtain ⟨sound, soundT, repeats, repeatsT⟩ := t.boot_after_reset
  rw [sound, soundT, repeats, repeatsT]
  have cell_of_store {slot : Nat} (held : t.readCell .nvm slot = a) :
      t.readCell .nvm slot = a ∧ decide (t.readCell .nvm slot ≠ 0) = decide (a ≠ 0) := by
    rw [held]
    exact ⟨rfl, rfl⟩
  refine ⟨fun waits run => cell_of_store ?snd, fun waits run => cell_of_store ?rpt⟩
  case snd =>
    rw [exec_setsnd, State.cmd2, if_pos waits] at run
    obtain ⟨blocked, -⟩ | ⟨-, -, rfl⟩ := State.argStep_next run
    · exact absurd (blocked.symm.trans enabled) Bool.false_ne_true
    · exact State.readCell_nvmWrite_same (s := s.quiet.rxAdvance) s.par.slotSound a wf
  case rpt =>
    rw [exec_setrpt, State.cmd2, if_pos waits] at run
    obtain ⟨blocked, -⟩ | ⟨-, -, rfl⟩ := State.argStep_next run
    · exact absurd (blocked.symm.trans enabled) Bool.false_ne_true
    · exact State.readCell_nvmWrite_same (s := s.quiet.rxAdvance) s.par.slotRepeat a wf

/-! ### The launch -/

/-- One step of a run of steps. -/
theorem State.after_succ_of_next {s t : State} (stepped : step s = .next t) (n : Nat) :
    s.after (n + 1) = t.after n := by
  rw [State.after, stepped]

/-- The state that `RESET` and `BOOT` leave (R147, R149): the reset values, the stored settings in both domains. -/
def State.launched (s : State) (rest : List Line) : State :=
  { State.reset with
    par := s.par
    mem := { nvm := s.mem.nvm }
    soundEn := s.readCell .nvm s.par.slotSound
    repeatEn := s.readCell .nvm s.par.slotRepeat
    soundEnT := nonZero (s.readCell .nvm s.par.slotSound)
    repeatEnT := nonZero (s.readCell .nvm s.par.slotRepeat)
    resetPhase := .running
    epoch := s.epoch + 1
    inbox := rest
    freeIdx := s.freeIdx
    out := { action := some .armAddr } }

/-- A pulse of `rst` and the `BOOT` after it take three steps. -/
theorem State.after_reset_boot {s : State} {rest : List Line} (notDue : s.resetPhase ≠ .bootDue)
    (lines : s.inbox = .rstAssert :: .rstRelease :: rest) : s.after 3 = s.launched rest := by
  obtain ⟨next, popped⟩ := State.popLine_of_inbox lines
  have reset := step_of_rstAssert notDue next
  rw [State.after_succ_of_next reset, popped]
  rfl

/-- Settles O10: the launched state's own values, in the order of the statement. -/
theorem launchStateAfterResetAndBoot : Obligations.LaunchStateAfterResetAndBoot := by
  unfold Obligations.LaunchStateAfterResetAndBoot
  intro s rest notDue lines
  rw [State.after_reset_boot notDue lines]
  intro t
  have agrees : ∀ x, seenAgrees (s.launched rest) x := by
    intro x
    cases x <;> simp [seenAgrees, State.launched, State.reset, State.curCode]
  have tx_zero : ∀ i, (s.launched rest).readCell .tx i = 0 := State.readCell_tx_of_nil rfl
  have kq_none : (s.launched rest).kqUnread = [] := by
    have count : (s.launched rest).kqOccupancy.toNat = 0 := by simp [State.kqOccupancy, State.launched, State.reset]
    rw [State.kqUnread, count]
    rfl
  have rx_none : (s.launched rest).rxUnread = [] := by
    have count : (s.launched rest).rxCount = 0 := by simp [State.rxCount, State.launched, State.reset]
    rw [State.rxUnread, count]
    rfl
  refine ⟨rfl, rfl, kq_none, rx_none, rfl, agrees, rfl, rfl, rfl, rfl, rfl, rfl, rfl, tx_zero, rfl, rfl, ?_⟩
  rw [exec_stSlaRAck, State.quiet_txNext_eq]
  rfl

end Sys2Proof.Machine
end

section
/-! PROOF. The debounce machine over sequences of ticks (R66 to R70): the count of a hold after each of its ticks, and
the events that this makes. -/

namespace Sys2Proof.Machine

/-! ### Sequences of ticks -/

theorem State.ticks_append (s : State) (xs ys : List Byte) : s.ticks (xs ++ ys) = (s.ticks xs).ticks ys := by
  induction xs generalizing s with
  | nil => rfl
  | cons k rest ih => exact ih (s.tick k)

/-- One more tick of a hold. -/
theorem State.ticks_hold_succ (s : State) (k : Byte) (n : Nat) :
    s.ticks (List.replicate (n + 1) k) = (s.ticks (List.replicate n k)).tick k := by
  rw [List.replicate_succ', State.ticks_append]
  rfl

theorem State.emissions_hold_succ (s : State) (k : Byte) (n : Nat) :
    s.emissions (List.replicate (n + 1) k) =
      (s.tick k).out.emitted.toList.length + (s.tick k).emissions (List.replicate n k) := rfl

theorem State.tick_repeatEnT (s : State) (k : Byte) : (s.tick k).repeatEnT = s.repeatEnT := by
  obtain ⟨-, -, -, -, repeatEnT, -⟩ := s.tick_sameSeen k
  exact repeatEnT

theorem State.ticks_repeatEnT (s : State) (ks : List Byte) : (s.ticks ks).repeatEnT = s.repeatEnT := by
  induction ks generalizing s with
  | nil => rfl
  | cons k rest ih => exact (ih (s.tick k)).trans (s.tick_repeatEnT k)

/-! ### The confirmation law -/

/-- What the registers say of the codes so far, newest first, after ticks from rest: the last code, and with a key held
whether the count is 1 or 2. -/
def CountsHold (u : State) (codes : List Byte) : Prop :=
  u.lastCode = codes[0]?.getD 0 ∧
    ∀ k, k ≠ 0 → u.lastCode = k → 1 ≤ u.streak.toNat ∧ (u.streak.toNat = 1 ↔ codes[1]? ≠ some k) ∧
      (u.streak.toNat = 2 ↔ codes[1]? = some k ∧ codes[2]? ≠ some k)

theorem CountsHold.tick {u : State} {codes : List Byte} (counts : CountsHold u codes) (c : Byte) :
    CountsHold (u.tick c) (c :: codes) := by
  obtain ⟨last, held⟩ := counts
  by_cases zero : c = 0
  · subst zero
    obtain ⟨code, -, -⟩ := u.tick_of_zero
    exact ⟨code, fun k ne same => absurd (same.symm.trans code) ne⟩
  by_cases same : c = u.lastCode
  · obtain ⟨code, streak, -⟩ := State.tick_of_same zero same
    obtain ⟨pos, one, -⟩ := held c zero same.symm
    have newest : codes[0]? = some c := by
      cases h : codes[0]? with
      | none => exact absurd (same.trans (last.trans (by rw [h]; rfl))) zero
      | some k => rw [same, last, h]; rfl
    refine ⟨code, fun k ne hk => ?_⟩
    obtain rfl : c = k := code.symm.trans hk
    have two : (u.tick c).streak.toNat = 2 ↔ u.streak.toNat = 1 := by rw [streak]; split <;> omega
    refine ⟨by rw [streak]; split <;> omega, ?_, ?_⟩
    · refine iff_of_false (by rw [streak]; split <;> omega) (by simpa using newest)
    · rw [two, one, List.getElem?_cons_succ, List.getElem?_cons_succ, newest]
      exact (and_iff_right rfl).symm
  · obtain ⟨code, streak, -⟩ := State.tick_of_other zero same
    have newest : codes[0]? ≠ some c := by
      intro h
      exact same (by rw [last, h]; rfl)
    refine ⟨code, fun k ne hk => ?_⟩
    obtain rfl : c = k := code.symm.trans hk
    rw [streak]
    exact ⟨by decide, iff_of_true rfl newest, iff_of_false (by decide) fun h => newest h.1⟩

/-- From rest the registers count the hold after any ticks. -/
theorem State.ticks_countsHold {s : State} (code : s.lastCode = 0) (codes : List Byte) :
    CountsHold (s.ticks codes.reverse) codes := by
  induction codes with
  | nil => exact ⟨code, fun k ne same => absurd (same.symm.trans code) ne⟩
  | cons c older ih =>
    rw [List.reverse_cons, State.ticks_append]
    exact ih.tick c

/-- A tick confirms exactly from count 2 of its own key (R66). -/
theorem State.tick_confirms_iff (u : State) (k : Byte) :
    ((u.tick k).out.emitted = some k ∧ (u.tick k).streak = 3) ↔ k ≠ 0 ∧ u.lastCode = k ∧ u.streak.toNat = 2 := by
  by_cases zero : k = 0
  · subst zero
    obtain ⟨-, -, silent⟩ := u.tick_of_zero
    exact iff_of_false (fun h => absurd (silent.symm.trans h.1) (by simp)) fun h => h.1 rfl
  by_cases same : k = u.lastCode
  · obtain ⟨-, streak, emitted⟩ := State.tick_of_same zero same
    have three : (u.tick k).streak = 3 ↔ u.streak.toNat = 2 := by
      rw [← BitVec.toNat_inj, streak, show (3 : BitVec 7).toNat = 3 from rfl]
      split <;> omega
    rw [three, emitted]
    constructor
    · exact fun h => ⟨zero, same.symm, h.2⟩
    · rintro ⟨-, -, two⟩
      exact ⟨if_pos (.inl (by omega)), two⟩
  · obtain ⟨-, -, silent⟩ := State.tick_of_other zero same
    exact iff_of_false (fun h => absurd (silent.symm.trans h.1) (by simp)) fun h => same h.2.1.symm

/-- Settles O16: the tick confirms from count 2, and count 2 says of the three codes before it what the law does. -/
theorem confirmationLaw : Obligations.ConfirmationLaw := by
  unfold Obligations.ConfirmationLaw
  intro s ks k code _
  obtain ⟨last, held⟩ := ks.reverse_reverse ▸ State.ticks_countsHold code ks.reverse
  rw [State.tick_confirms_iff]
  refine and_congr_right fun ne => ?_
  have newest : (s.ticks ks).lastCode = k ↔ ks.reverse[0]? = some k := by
    rw [last]
    cases ks.reverse[0]? with
    | none => exact iff_of_false (fun h => ne h.symm) (by simp)
    | some c => simp
  rw [newest]
  exact and_congr_right fun h => (held k ne (newest.mpr h)).2.2

/-! ### A hold that goes on -/

/-- The next tick of a hold: the code stays, the count and the event by R64 (3). -/
theorem State.tick_hold {s : State} {k : Byte} (ne : k ≠ 0) (held : s.lastCode = k) :
    (s.tick k).lastCode = k ∧
      (s.tick k).streak.toNat =
        (if s.repeatEnT = true ∧ 75 ≤ s.streak.toNat + 1 then 60 else min (s.streak.toNat + 1) 75) ∧
      (s.tick k).out.emitted.toList.length =
        (if s.streak.toNat + 1 = 3 ∨ (s.repeatEnT = true ∧ 75 ≤ s.streak.toNat + 1) then 1 else 0) := by
  obtain ⟨code, streak, emitted⟩ := State.tick_of_same ne held.symm
  refine ⟨code, streak, ?_⟩
  rw [emitted]
  split <;> rfl

/-- The events of a hold that goes on with repeat enabled (R67, R69): the confirmation, if it is still to come, and the
repeats, the first with the count at `T_REPEAT` and then one every 15 ticks. -/
theorem State.emissions_hold_repeating {s : State} {k : Byte} (n : Nat) (ne : k ≠ 0) (held : s.lastCode = k)
    (low : 1 ≤ s.streak.toNat) (high : s.streak.toNat ≤ 75) (on : s.repeatEnT = true) :
    s.emissions (List.replicate n k) =
      (if s.streak.toNat < 3 ∧ 3 ≤ s.streak.toNat + n then 1 else 0) +
        (if n < max 1 (75 - s.streak.toNat) then 0 else 1 + (n - max 1 (75 - s.streak.toNat)) / 15) := by
  induction n generalizing s with
  | zero =>
    rw [List.replicate_zero, State.emissions]
    split_ifs <;> omega
  | succ n ih =>
    obtain ⟨code, streak, emitted⟩ := State.tick_hold ne held
    simp only [on, true_and] at streak emitted
    rw [State.emissions_hold_succ, ih code (by split_ifs at streak <;> omega) (by split_ifs at streak <;> omega)
      ((s.tick_repeatEnT k).trans on), emitted]
    split_ifs at streak <;> rw [streak] <;> split_ifs <;> omega

/-- A hold that goes on with repeat disabled (R68, R69): the confirmation alone, and a count that stays at 75. -/
theorem State.emissions_hold_silent {s : State} {k : Byte} (n : Nat) (ne : k ≠ 0) (held : s.lastCode = k)
    (high : s.streak.toNat ≤ 75) (off : s.repeatEnT = false) :
    s.emissions (List.replicate n k) = (if s.streak.toNat < 3 ∧ 3 ≤ s.streak.toNat + n then 1 else 0) ∧
      (s.ticks (List.replicate n k)).streak.toNat = min (s.streak.toNat + n) 75 := by
  induction n generalizing s with
  | zero =>
    refine ⟨?_, ?_⟩
    · rw [List.replicate_zero, State.emissions]
      split_ifs <;> omega
    · exact (min_eq_left high).symm
  | succ n ih =>
    obtain ⟨code, streak, emitted⟩ := State.tick_hold ne held
    simp only [off, Bool.false_eq_true, false_and, if_false, or_false] at streak emitted
    obtain ⟨events, count⟩ := ih code (by omega) ((s.tick_repeatEnT k).trans off)
    refine ⟨?_, ?_⟩
    · rw [State.emissions_hold_succ, events, emitted, streak]
      split_ifs <;> omega
    · rw [List.replicate_succ, State.ticks, count, streak]
      omega

/-- Settles O19: a hold that goes on, with repeat as it was set; from 75 the next tick repeats at once (D6). -/
theorem repeatChangedDuringHold : Obligations.RepeatChangedDuringHold := by
  unfold Obligations.RepeatChangedDuringHold
  intro s k n ne held low high
  refine ⟨fun on => ⟨State.emissions_hold_repeating n ne held low high on, fun top => ?_⟩,
    State.emissions_hold_silent n ne held high⟩
  obtain ⟨-, streak, emitted⟩ := State.tick_of_same ne held.symm
  have repeats : s.repeatEnT = true ∧ 75 ≤ s.streak.toNat + 1 := ⟨on, by omega⟩
  rw [if_pos repeats] at streak
  exact ⟨emitted.trans (if_pos (.inr repeats)), BitVec.eq_of_toNat_eq streak⟩

/-! ### A whole hold -/

/-- The first tick of a hold counts 1 and emits nothing (R64 (2)). -/
theorem State.tick_first {s : State} {k : Byte} (ne : k ≠ 0) (new : s.lastCode ≠ k) :
    (s.tick k).lastCode = k ∧ (s.tick k).streak.toNat = 1 ∧ (s.tick k).out.emitted.toList.length = 0 := by
  obtain ⟨code, streak, silent⟩ := State.tick_of_other ne (Ne.symm new)
  exact ⟨code, by rw [streak]; rfl, by rw [silent]; rfl⟩

/-- The count after each tick of a hold with repeat enabled: up to 74, and from then on 60 to 74 over and over (R67). -/
theorem State.ticks_hold_repeating {s : State} {k : Byte} (n : Nat) (ne : k ≠ 0) (new : s.lastCode ≠ k)
    (on : s.repeatEnT = true) :
    (s.ticks (List.replicate (n + 1) k)).lastCode = k ∧
      (s.ticks (List.replicate (n + 1) k)).streak.toNat =
        (if n + 1 < 75 then n + 1 else 60 + (n + 1 - 75) % 15) := by
  induction n with
  | zero =>
    obtain ⟨code, streak, -⟩ := State.tick_first ne new
    exact ⟨code, streak⟩
  | succ n ih =>
    obtain ⟨held, count⟩ := ih
    obtain ⟨code, streak, -⟩ := State.tick_hold ne held
    have still_on := (s.ticks_repeatEnT (List.replicate (n + 1) k)).trans on
    simp only [still_on, true_and] at streak
    rw [State.ticks_hold_succ s k (n + 1)]
    refine ⟨code, ?_⟩
    rw [streak, count]
    split_ifs <;> omega

/-- Settles O17: the number of events by the hold that goes on from the first tick, the tick of each by the count it
finds. -/
theorem repeatLaw : Obligations.RepeatLaw := by
  unfold Obligations.RepeatLaw
  intro s k n ne new on
  cases n with
  | zero =>
    obtain ⟨-, -, silent⟩ := State.tick_of_other ne (Ne.symm new)
    exact ⟨rfl, silent⟩
  | succ n =>
    refine ⟨?_, ?_⟩
    · obtain ⟨code, streak, silent⟩ := State.tick_first ne new
      rw [State.emissions_hold_succ, silent, State.emissions_hold_repeating n ne code (by omega) (by omega)
        ((s.tick_repeatEnT k).trans on), streak]
      split_ifs <;> omega
    · obtain ⟨held, count⟩ := State.ticks_hold_repeating n ne new on
      have still_on := (s.ticks_repeatEnT (List.replicate (n + 1) k)).trans on
      obtain ⟨-, -, emitted⟩ := State.tick_of_same ne held.symm
      rw [emitted, still_on, count]
      congr 1
      simp only [true_and, eq_iff_iff]
      split_ifs <;> omega

/-- Settles O18: the first tick, and then a hold that goes on without repeats. -/
theorem repeatDisabledLaw : Obligations.RepeatDisabledLaw := by
  unfold Obligations.RepeatDisabledLaw
  intro s k n ne new off
  cases n with
  | zero => exact ⟨rfl, fun h => absurd h (by decide)⟩
  | succ n =>
    obtain ⟨code, streak, silent⟩ := State.tick_first ne new
    obtain ⟨events, count⟩ :=
      State.emissions_hold_silent n ne code (by omega) ((s.tick_repeatEnT k).trans off)
    refine ⟨?_, fun _ => ?_⟩
    · rw [State.emissions_hold_succ, silent, events, streak]
      split_ifs <;> omega
    · rw [List.replicate_succ, State.ticks, count, streak]
      omega

/-- A hold shows in the count from its third tick on, whatever repeat does (R70). -/
theorem State.ticks_hold_confirmed {s : State} {k : Byte} (n : Nat) (ne : k ≠ 0) (new : s.lastCode ≠ k) :
    (s.ticks (List.replicate (n + 1) k)).lastCode = k ∧
      (n + 1 < 3 → (s.ticks (List.replicate (n + 1) k)).streak.toNat = n + 1) ∧
      (3 ≤ n + 1 → 3 ≤ (s.ticks (List.replicate (n + 1) k)).streak.toNat) := by
  induction n with
  | zero =>
    obtain ⟨code, streak, -⟩ := State.tick_first ne new
    exact ⟨code, fun _ => streak, fun h => absurd h (by decide)⟩
  | succ n ih =>
    obtain ⟨held, few, many⟩ := ih
    obtain ⟨code, streak, -⟩ := State.tick_hold ne held
    rw [State.ticks_hold_succ s k (n + 1)]
    refine ⟨code, fun h => ?_, fun h => ?_⟩ <;> rw [streak] <;> split_ifs <;> omega

/-- Settles O20: the count passes `T_CONFIRM` with the third tick, and a tick without a key clears it. -/
theorem curCodeOverHold : Obligations.CurCodeOverHold := by
  unfold Obligations.CurCodeOverHold
  intro s k n ne new pos
  obtain ⟨n, rfl⟩ := Nat.exists_eq_add_of_le' pos
  obtain ⟨held, few, many⟩ := State.ticks_hold_confirmed n ne new
  refine ⟨?_, ?_⟩
  · rw [State.curCode_eq, held]
    by_cases short : n + 1 < 3
    · have below : ¬3 ≤ (s.ticks (List.replicate (n + 1) k)).streak.toNat := by
        rw [few short]
        omega
      rw [if_pos short, if_neg below]
    · rw [if_neg short, if_pos (many (by omega))]
  · obtain ⟨code, -, -⟩ := (s.ticks (List.replicate (n + 1) k)).tick_of_zero
    rw [State.curCode_eq, code, ite_self]

end Sys2Proof.Machine
end

section
/-! PROOF. The keyboard FIFO (R11, R45, R72 to R78): the pointer order in naturals, the FIFO as a queue, and what each
step does to the pointers. -/

namespace Sys2Proof.Machine

/-! ### Distances around the 32 cells -/

/-- The distance between two five-bit indices. -/
theorem kqIndex_sub_toNat (a b : BitVec 5) : (a - b).toNat = (a.toNat + 32 - b.toNat) % 32 := by
  have lt : b.toNat < 32 := b.isLt
  rw [BitVec.toNat_sub]
  omega

theorem kqIndex_succ_toNat (a : BitVec 5) : (a + 1).toNat = (a.toNat + 1) % 32 := BitVec.toNat_add a 1

/-- The pointer order over the residues as naturals. -/
theorem pointerOrder_iff (s : State) :
    PointerOrder s ↔ (s.kqRd.toNat + 32 - s.kqRdT.toNat) % 32 + (s.kqWrB.toNat + 32 - s.kqRd.toNat) % 32 +
      (s.kqWr.toNat + 32 - s.kqWrB.toNat) % 32 ≤ 31 := by
  rw [PointerOrder, kqIndex_sub_toNat, kqIndex_sub_toNat, kqIndex_sub_toNat]

theorem State.kqOccupancy_toNat (s : State) :
    s.kqOccupancy.toNat = (s.kqWr.toNat + 32 - s.kqRd.toNat) % 32 := kqIndex_sub_toNat _ _

/-- The pointers are residues of 32. -/
theorem State.kqPointers_lt (s : State) :
    s.kqWr.toNat < 32 ∧ s.kqRd.toNat < 32 ∧ s.kqRdT.toNat < 32 ∧ s.kqWrB.toNat < 32 :=
  ⟨s.kqWr.isLt, s.kqRd.isLt, s.kqRdT.isLt, s.kqWrB.isLt⟩

/-- Settles O24: the counts are the residue of the first pointer and the three distances added up; the other way, counts
that far apart have those distances. -/
theorem pointerOrderIsTheChainOfCounts : Obligations.PointerOrderIsTheChainOfCounts := by
  unfold Obligations.PointerOrderIsTheChainOfCounts
  intro s
  obtain ⟨wr, rd, rdT, wrB⟩ := s.kqPointers_lt
  rw [pointerOrder_iff]
  constructor
  · intro order
    exact ⟨s.kqRdT.toNat, s.kqRdT.toNat + (s.kqRd.toNat + 32 - s.kqRdT.toNat) % 32,
      s.kqRdT.toNat + (s.kqRd.toNat + 32 - s.kqRdT.toNat) % 32 + (s.kqWrB.toNat + 32 - s.kqRd.toNat) % 32,
      s.kqRdT.toNat + (s.kqRd.toNat + 32 - s.kqRdT.toNat) % 32 + (s.kqWrB.toNat + 32 - s.kqRd.toNat) % 32 +
        (s.kqWr.toNat + 32 - s.kqWrB.toNat) % 32,
      by omega, by omega, by omega, by omega, by omega, by omega, by omega, by omega⟩
  · rintro ⟨rt, r, wb, w, h1, h2, h3, h4, hrt, hr, hwb, hw⟩
    rw [hrt, hr, hwb, hw]
    omega

/-- Settles O26: the three distances add up to both of the sums compared. -/
theorem pointerOrderConsequences : Obligations.PointerOrderConsequences := by
  unfold Obligations.PointerOrderConsequences
  intro s order
  obtain ⟨wr, rd, rdT, wrB⟩ := s.kqPointers_lt
  rw [pointerOrder_iff] at order
  rw [State.kqOccupancy_toNat, State.kqCount_toNat, kqIndex_sub_toNat]
  refine ⟨by omega, by omega, fun j visible => ?_⟩
  omega

/-! ### The FIFO as a queue -/

/-- The unread events, with the number of them and the index of the oldest as naturals. -/
theorem State.kqUnread_eq (s : State) {n r : Nat} (count : s.kqOccupancy.toNat = n) (first : s.kqRd.toNat = r) :
    s.kqUnread = (List.range n).map fun j => s.readCell .kq ((r + j) % 32) := by
  rw [State.kqUnread, count, first]
  rfl

/-- The unread events hang on their cells and on two pointers. -/
theorem State.kqUnread_congr {s t : State} (mem : t.mem = s.mem) (epoch : t.epoch = s.epoch) (wr : t.kqWr = s.kqWr)
    (rd : t.kqRd = s.kqRd) : t.kqUnread = s.kqUnread := by
  simp only [State.kqUnread, State.kqOccupancy, wr, rd, State.readCell_congr mem epoch]

/-- An event pushed with fewer than 31 unread goes to their end (R72). -/
theorem State.kqUnread_store {s : State} (k : Byte) (wf : s.mem.wf) (room : s.kqOccupancy.toNat < 31) :
    ({ s.writeCell .kq s.kqWr.toNat k with kqWr := s.kqWr + 1 } : State).kqUnread = s.kqUnread ++ [k] := by
  obtain ⟨wr, rd, -, -⟩ := s.kqPointers_lt
  have occupancy := s.kqOccupancy_toNat
  have count : ({ s.writeCell .kq s.kqWr.toNat k with kqWr := s.kqWr + 1 } : State).kqOccupancy.toNat =
      s.kqOccupancy.toNat + 1 := by
    rw [State.kqOccupancy_toNat, occupancy]
    show ((s.kqWr + 1).toNat + 32 - s.kqRd.toNat) % 32 = _
    rw [kqIndex_succ_toNat]
    omega
  rw [State.kqUnread_eq _ count rfl, State.kqUnread_eq s rfl rfl, List.range_succ, List.map_append]
  refine congrArg₂ (· ++ ·) (List.map_congr_left fun j old => ?_) (congrArg (fun b => [b]) ?_)
  · have other : (s.kqRd.toNat + j) % 32 ≠ s.kqWr.toNat := by
      have := List.mem_range.mp old
      omega
    show (s.writeCell .kq s.kqWr.toNat k).readCell .kq ((s.kqRd.toNat + j) % 32) = _
    exact State.readCell_writeCell_other k fun here => other here.2
  · have here : (s.kqRd.toNat + s.kqOccupancy.toNat) % 32 = s.kqWr.toNat := by omega
    show (s.writeCell .kq s.kqWr.toNat k).readCell .kq ((s.kqRd.toNat + s.kqOccupancy.toNat) % 32) = k
    rw [here, State.readCell_writeCell_same .kq _ k wf]

/-- Moving the read index on by some of the unread events drops those (R73, R74). -/
theorem State.kqUnread_advance {s : State} {r : BitVec 5} {n : Nat} (some_of : n ≤ s.kqOccupancy.toNat)
    (moved : r.toNat = (s.kqRd.toNat + n) % 32) :
    ({ s with kqRd := r } : State).kqUnread = s.kqUnread.drop n := by
  obtain ⟨wr, rd, -, -⟩ := s.kqPointers_lt
  have occupancy := s.kqOccupancy_toNat
  have count : ({ s with kqRd := r } : State).kqOccupancy.toNat = s.kqOccupancy.toNat - n := by
    rw [State.kqOccupancy_toNat, occupancy]
    show (s.kqWr.toNat + 32 - r.toNat) % 32 = _
    omega
  rw [State.kqUnread_eq _ count rfl, State.kqUnread_eq s rfl rfl]
  refine List.ext_getElem (by simp) fun j _ _ => ?_
  simp only [List.getElem_map, List.getElem_range, List.getElem_drop]
  have index : (r.toNat + j) % 32 = (s.kqRd.toNat + (n + j)) % 32 := by omega
  exact congrArg (s.readCell .kq) index

/-- Settles O22: a push by whether the producer sees room, which with the pointers in order there is only below 31
events; a pop and a clear move the read index on by one event and by those the consumer sees. -/
theorem keyboardFifoIsAQueue : Obligations.KeyboardFifoIsAQueue := by
  unfold Obligations.KeyboardFifoIsAQueue
  intro s wf order
  obtain ⟨wr, rd, rdT, wrB⟩ := s.kqPointers_lt
  obtain ⟨-, seen, -⟩ := pointerOrderConsequences s order
  have occupancy := s.kqOccupancy_toNat
  have count := s.kqCount_toNat
  have length : s.kqUnread.length = s.kqOccupancy.toNat := by simp [State.kqUnread]
  rw [pointerOrder_iff] at order
  refine ⟨fun k room => ?stored, fun k full => ?dropped, fun event => ?popped, ?cleared, ?bound⟩
  case stored =>
    have ne : (s.kqWr.toNat + 1) % 32 ≠ s.kqRdT.toNat := fun h =>
      room (BitVec.eq_of_toNat_eq ((kqIndex_succ_toNat _).trans h))
    rw [State.kqPush, if_neg room]
    exact State.kqUnread_store k wf (by omega)
  case dropped =>
    rw [State.kqPush, if_pos full, State.raise_eq]
    exact State.kqUnread_congr rfl rfl rfl rfl
  case popped =>
    have ne : s.kqRd.toNat ≠ s.kqWrB.toNat := fun h => event (BitVec.eq_of_toNat_eq h)
    have some_event : 1 ≤ s.kqOccupancy.toNat := by omega
    have nonempty : 0 < s.kqUnread.length := by omega
    have oldest : s.kqUnread[0] = s.readCell .kq s.kqRd.toNat := by
      simp only [State.kqUnread, List.getElem_map, List.getElem_range]
      exact congrArg (s.readCell .kq) (Nat.mod_eq_of_lt rd)
    rw [State.kqPop0_of_event event, State.kqUnread_advance some_event (kqIndex_succ_toNat _), ← oldest]
    exact (List.getElem_cons_drop nonempty).symm
  case cleared => exact State.kqUnread_advance seen (by omega)
  case bound => omega

/-! ### Overflow -/

theorem State.pushes_append (s : State) (xs ys : List Byte) : s.pushes (xs ++ ys) = (s.pushes xs).pushes ys := by
  induction xs generalizing s with
  | nil => rfl
  | cons k rest ih => exact ih (s.kqPush k)

/-- A push that finds the FIFO full drops the event, and toggles `ovf_req` under the guard of R123. -/
theorem State.kqPush_of_full {s : State} (k : Byte) (full : s.kqWr + 1 = s.kqRdT) :
    s.kqPush k = { s with
      ovfReq := if s.soundEnT = true ∧ s.ovfReq = s.ovfAckT then !s.ovfReq else s.ovfReq
      out := { s.out with raised := some (.kqOvf k) } } := by
  rw [State.kqPush, if_pos full, State.raise_eq]
  simp only [Bool.and_eq_true, beq_iff_eq]

/-- What the state is after some events were pushed into the empty FIFO of `s` that nobody reads. -/
structure PushedFrom (s : State) (ks : List Byte) (u : State) : Prop where
  memory : u.mem.wf
  unread : u.kqRdT = 0
  sound : u.soundEnT = true
  ack : u.ovfAckT = s.ovfAckT
  index : u.kqWr.toNat = min ks.length 31
  kept : ∀ j, j < 31 → ∀ k, ks[j]? = some k → u.readCell .kq j = k
  last : u.readCell .kq 31 = s.readCell .kq 31
  signal : u.ovfReq = if 31 < ks.length then !s.ovfReq else s.ovfReq

theorem PushedFrom.kqPush {s u : State} {ks : List Byte} (before : PushedFrom s ks u) (k : Byte)
    (clear : s.ovfReq = s.ovfAckT) : PushedFrom s (ks ++ [k]) (u.kqPush k) := by
  obtain ⟨memory, unread, sound, ack, index, kept, last, signal⟩ := before
  have full_iff : u.kqWr + 1 = u.kqRdT ↔ 31 ≤ ks.length := by
    rw [unread, ← BitVec.toNat_inj, kqIndex_succ_toNat, index, show (0 : BitVec 5).toNat = 0 from rfl]
    omega
  have length : (ks ++ [k]).length = ks.length + 1 := by simp
  by_cases full : u.kqWr + 1 = u.kqRdT
  · have many := full_iff.mp full
    rw [State.kqPush_of_full k full]
    refine ⟨memory, unread, sound, ack, ?_, fun j lt b given => ?_, last, ?_⟩
    · rw [length]
      show u.kqWr.toNat = _
      omega
    · rw [List.getElem?_append_left (by omega)] at given
      exact kept j lt b given
    · show (if u.soundEnT = true ∧ u.ovfReq = u.ovfAckT then !u.ovfReq else u.ovfReq) = _
      rw [length, if_pos (show 31 < ks.length + 1 by omega), sound, ack, signal, ← clear]
      by_cases raised : 31 < ks.length <;> simp [raised]
  · have few : ks.length < 31 := by
      by_contra many
      exact full (full_iff.mpr (by omega))
    have here : u.kqWr.toNat = ks.length := by omega
    rw [State.kqPush, if_neg full]
    refine ⟨Memory.write_keeps_wf .kq _ k memory, unread, sound, ack, ?_, fun j lt b given => ?_, ?_, ?_⟩
    · rw [length]
      show (u.kqWr + 1).toNat = _
      rw [kqIndex_succ_toNat]
      omega
    · show (u.writeCell .kq u.kqWr.toNat k).readCell .kq j = b
      by_cases new : j = ks.length
      · subst new
        rw [List.getElem?_concat_length, Option.some.injEq] at given
        rw [← here, State.readCell_writeCell_same .kq _ k memory, given]
      · have old : j < ks.length := by
          have bound := (List.getElem?_eq_some_iff.mp given).1
          omega
        rw [State.readCell_writeCell_other k (by omega)]
        rw [List.getElem?_append_left old] at given
        exact kept j lt b given
    · show (u.writeCell .kq u.kqWr.toNat k).readCell .kq 31 = _
      rw [State.readCell_writeCell_other k (by omega), last]
    · rw [length, if_neg (by omega)]
      exact signal.trans (if_neg (by omega))

theorem State.pushes_pushedFrom {s : State} (ks : List Byte) (wf : s.mem.wf) (wr : s.kqWr = 0) (rdT : s.kqRdT = 0)
    (sound : s.soundEnT = true) (clear : s.ovfReq = s.ovfAckT) : PushedFrom s ks (s.pushes ks) := by
  induction ks using List.reverseRecOn with
  | nil => exact ⟨wf, rdT, sound, rfl, by rw [State.pushes, wr]; rfl, fun j _ k h => absurd h (by simp), rfl, rfl⟩
  | append_singleton ks k ih =>
    rw [State.pushes_append]
    exact ih.kqPush k clear

/-- Settles O23: by induction on the events pushed, each stored below 31 of them and dropped from then on. -/
theorem overflowKeepsFirstThirtyOne : Obligations.OverflowKeepsFirstThirtyOne := by
  unfold Obligations.OverflowKeepsFirstThirtyOne
  intro s ks wf wr rdT sound clear
  have pushed := State.pushes_pushedFrom ks wf wr rdT sound clear
  exact ⟨pushed.index, pushed.kept, pushed.last, pushed.signal⟩

end Sys2Proof.Machine
end

section
/-! PROOF. The receive buffer as a queue (R16, R81, R96, R98): its indices go round modulo `C_R`. -/

namespace Sys2Proof.Machine

/-! ### Indices modulo `C_R` -/

/-- A sum of two indices goes round at most once. -/
theorem mod_of_lt_two_mul {a n : Nat} (lt : a < 2 * n) : a % n = if a < n then a else a - n := by
  split
  case isTrue below => exact Nat.mod_eq_of_lt below
  case isFalse above => rw [Nat.mod_eq_sub_mod (by omega), Nat.mod_eq_of_lt (by omega)]

theorem RxSound.rxWr_lt {s : State} (sound : RxSound s) : s.rxWr < s.par.cR := by
  obtain ⟨-, wr, -⟩ := sound
  exact wr

theorem RxSound.rxRd_lt {s : State} (sound : RxSound s) : s.rxRd < s.par.cR := by
  obtain ⟨-, -, rd, -⟩ := sound
  exact rd

/-- How many bytes are unread, by how the indices stand (R16). -/
theorem State.rxCount_eq {s : State} (sound : RxSound s) :
    s.rxCount =
      if s.rxFull = true then s.par.cR
      else if s.rxRd ≤ s.rxWr then s.rxWr - s.rxRd else s.rxWr + s.par.cR - s.rxRd := by
  obtain ⟨-, wr, rd, -⟩ := sound
  rw [State.rxCount, mod_of_lt_two_mul (by omega)]
  split_ifs <;> omega

/-- The index after one in range. -/
theorem State.rxNext_eq {s : State} {i : Nat} (lt : i < s.par.cR) :
    s.rxNext i = if i + 1 < s.par.cR then i + 1 else 0 := by
  rw [State.rxNext, mod_of_lt_two_mul (by omega)]
  split_ifs <;> omega

/-- The cell of the `j`-th unread byte. -/
def State.rxIndex (s : State) (j : Nat) : Nat := (s.rxRd + j) % s.par.cR

theorem State.rxIndex_eq {s : State} (sound : RxSound s) {j : Nat} (le : j ≤ s.par.cR) :
    s.rxIndex j = if s.rxRd + j < s.par.cR then s.rxRd + j else s.rxRd + j - s.par.cR := by
  obtain ⟨-, -, rd, -⟩ := sound
  exact mod_of_lt_two_mul (by omega)

/-! ### A byte stored and a byte popped -/

theorem RxSound.rxStore {s : State} (sound : RxSound s) (d : Byte) (room : s.rxFull = false) :
    RxSound (s.rxStore d) := by
  obtain ⟨two, wr, rd, -⟩ := sound
  refine ⟨two, Nat.mod_lt _ (by omega), rd, fun full => ?_⟩
  rw [State.rxStore_rxFull_of_room d room, decide_eq_true_eq] at full
  exact full

theorem RxSound.rxAdvance {s : State} (sound : RxSound s) : RxSound s.rxAdvance := by
  obtain ⟨two, wr, rd, -⟩ := sound
  exact ⟨two, wr, Nat.mod_lt _ (by omega), fun full => absurd full Bool.false_ne_true⟩

/-- With room, the cell at `rx_wr` is the one after the unread bytes. -/
theorem State.rxIndex_rxCount {s : State} (sound : RxSound s) (room : s.rxFull = false) :
    s.rxIndex s.rxCount = s.rxWr := by
  have count := State.rxCount_eq sound
  rw [room, if_neg Bool.false_ne_true] at count
  have wr := sound.rxWr_lt
  have rd := sound.rxRd_lt
  rw [State.rxIndex_eq sound (by split_ifs at count <;> omega), count]
  split_ifs <;> omega

/-- The cell at `rx_wr` of a buffer with room is no unread byte's. -/
theorem State.rxIndex_ne_rxWr {s : State} (sound : RxSound s) (room : s.rxFull = false) {j : Nat}
    (unread : j < s.rxCount) : s.rxIndex j ≠ s.rxWr := by
  have count := State.rxCount_eq sound
  rw [room, if_neg Bool.false_ne_true] at count
  have wr := sound.rxWr_lt
  have rd := sound.rxRd_lt
  rw [State.rxIndex_eq sound (by split_ifs at count <;> omega)]
  split_ifs at count ⊢ <;> omega

theorem State.rxCount_rxStore {s : State} (sound : RxSound s) (d : Byte) (room : s.rxFull = false) :
    (s.rxStore d).rxCount = s.rxCount + 1 := by
  have next := State.rxNext_eq sound.rxWr_lt
  have full := State.rxStore_rxFull_of_room d room
  rw [State.rxStore_rxWr, next] at full
  rw [State.rxCount_eq (sound.rxStore d room), State.rxCount_eq sound, room, full, State.rxStore_rxWr,
    State.rxStore_rxRd, State.rxStore_par, next]
  obtain ⟨two, wr, rd, -⟩ := sound
  simp only [decide_eq_true_eq, Bool.false_eq_true, if_false]
  split_ifs <;> omega

/-- An empty buffer is one with no unread byte (R16). -/
theorem State.rxCount_eq_zero_iff {s : State} (sound : RxSound s) : s.rxCount = 0 ↔ s.rxEmpty = true := by
  rw [State.rxEmpty, Bool.and_eq_true, beq_iff_eq, Bool.not_eq_true', State.rxCount_eq sound]
  obtain ⟨two, wr, rd, -⟩ := sound
  cases s.rxFull
  · simp only [Bool.false_eq_true, if_false, and_true]
    split_ifs <;> omega
  · simp only [if_true, Bool.true_eq_false, and_false, iff_false]
    omega

theorem State.rxCount_rxAdvance {s : State} (sound : RxSound s) (unread : s.rxEmpty = false) :
    s.rxCount = s.rxAdvance.rxCount + 1 := by
  have some_byte : s.rxCount ≠ 0 := fun none_of =>
    absurd (((State.rxCount_eq_zero_iff sound).mp none_of).symm.trans unread) (by decide)
  rw [State.rxCount_eq sound.rxAdvance, State.rxAdvance_rxFull, if_neg Bool.false_ne_true, State.rxAdvance_rxWr,
    State.rxAdvance_rxRd, State.rxAdvance_par, State.rxNext_eq sound.rxRd_lt]
  rw [State.rxCount_eq sound] at some_byte ⊢
  obtain ⟨two, wr, rd, full⟩ := sound
  cases isFull : s.rxFull
  · simp only [isFull, Bool.false_eq_true, if_false] at some_byte ⊢
    split_ifs at some_byte ⊢ <;> omega
  · have equal := full isFull
    simp only [if_true]
    split_ifs <;> omega

/-- The `j`-th unread byte after a pop is the one after the `j`-th before it. -/
theorem State.rxIndex_rxAdvance (s : State) (j : Nat) : s.rxAdvance.rxIndex j = s.rxIndex (j + 1) := by
  show ((s.rxRd + 1) % s.par.cR + j) % s.par.cR = (s.rxRd + (j + 1)) % s.par.cR
  rw [Nat.mod_add_mod, Nat.add_assoc, Nat.add_comm 1 j]

/-! ### The queue -/

/-- The unread bytes, with the number of them. -/
theorem State.rxUnread_eq (s : State) {n : Nat} (count : s.rxCount = n) :
    s.rxUnread = (List.range n).map fun j => s.readCell .rx (s.rxIndex j) := by
  rw [State.rxUnread, count]
  rfl

theorem State.rxUnread_length (s : State) : s.rxUnread.length = s.rxCount := by
  rw [State.rxUnread, List.length_map, List.length_range]

/-- Settles O37: the bytes stored and popped by their cells; the bounds by the number of unread bytes. -/
theorem receiveBufferIsAQueue : Obligations.ReceiveBufferIsAQueue := by
  unfold Obligations.ReceiveBufferIsAQueue
  intro s wf sound
  rw [State.rxUnread_length]
  refine ⟨fun d room => ?stored, fun d => ?dropped, fun unread => ?popped, ?empty, ?bound, ?full⟩
  case stored =>
    rw [State.rxUnread_eq _ (State.rxCount_rxStore sound d room), State.rxUnread_eq s rfl, List.range_succ,
      List.map_append]
    refine congrArg₂ (· ++ ·) (List.map_congr_left fun j old => ?_) (congrArg (fun b => [b]) ?_)
    · have other := State.rxIndex_ne_rxWr sound room (List.mem_range.mp old)
      exact s.rxStore_sameCellsBut d .rx (s.rxIndex j) fun here => other here.2
    · have here := State.rxIndex_rxCount sound room
      show (s.rxStore d).readCell .rx (s.rxIndex s.rxCount) = d
      rw [here, State.readCell_rxStore_same d wf]
  case dropped =>
    rw [State.raise_eq]
    rfl
  case popped =>
    rw [State.rxUnread_eq s (State.rxCount_rxAdvance sound unread), List.range_succ_eq_map, List.map_cons, List.map_map]
    refine congrArg₂ List.cons ?_ (List.map_congr_left fun j _ => ?_)
    · exact congrArg (s.readCell .rx) (Nat.mod_eq_of_lt sound.rxRd_lt)
    · exact congrArg (s.readCell .rx) (s.rxIndex_rxAdvance j).symm
  case empty => rw [← State.rxCount_eq_zero_iff sound, ← State.rxUnread_length, List.length_eq_zero_iff]
  case bound =>
    rw [State.rxCount_eq sound]
    obtain ⟨-, wr, rd, -⟩ := sound
    split_ifs <;> omega
  case full =>
    rw [State.rxCount_eq sound]
    obtain ⟨-, wr, rd, -⟩ := sound
    cases s.rxFull
    · simp only [Bool.false_eq_true, if_false, false_iff]
      split_ifs <;> omega
    · simp

end Sys2Proof.Machine
end

section
/-! PROOF. The local invariants: each is kept by `BOOT` and by every course of a line, and so by every step. -/

namespace Sys2Proof.Machine

/-! ### What a step can do, for an invariant -/

/-- A line under reset takes one of the courses of a line. -/
theorem State.heldLine_course (s : State) (l : Line) : LineCourse s (s.heldLine l) := by
  obtain h | h | h := s.heldLine_cases l <;> rw [h]
  · exact .instr .blocked
  · exact .reset
  · exact .released

/-- A step is `BOOT`, or a course of a line on the state with that line taken. -/
theorem step_course {s t : State} (stepped : step s = .next t) : t = s.bootStep ∨ LineCourse s.popLine t := by
  obtain ⟨-, rfl⟩ | ⟨-, rfl⟩ | ⟨-, run⟩ := step_next stepped
  · exact .inl rfl
  · exact .inr (s.popLine.heldLine_course _)
  · exact .inr (State.runLine_course run)

/-- What a course of a line does to the state, in ten kinds. A command's kind says which byte it pops, how it moves the
read index of the FIFO, and in which phase it leaves the dispatcher; the phases are those of R19. -/
inductive LineEffect (s : State) : State → Prop where
  | tick (k : Byte) : LineEffect s (s.tick k)
  | engine (busy : Bool) (txRd : BitVec 2) (rxOvf : Bool) (out : Outputs) :
      LineEffect s { s with busy := busy, txRd := txRd, rxOvf := rxOvf, out := out }
  | stored (d : Byte) (room : s.rxFull = false) (index : s.rxWr < s.par.cR) (out : Outputs) :
      LineEffect s { s with
        mem := s.mem.write .rx s.rxWr d, rxWr := s.rxNext s.rxWr
        rxFull := decide (s.rxNext s.rxWr = s.rxRd) || s.rxFull, out := out }
  | command (kqRd : BitVec 5) (phase : BitVec 2) (cmd reply : Byte) (led : BitVec 4) (out : Outputs)
      (unread : s.rxEmpty = false) (cleared : kqRd = s.kqRd ∨ kqRd = s.kqWrB)
      (left : phase = dpIdle ∨ phase = dpStage ∨ (phase = dpArg ∧ takesArg cmd = true) ∨
        (phase = s.dpPhase ∧ cmd = s.dpCmd)) :
      LineEffect s { s with
        rxRd := s.rxNext s.rxRd, rxFull := false, kqRd := kqRd, dpPhase := phase, dpCmd := cmd, dpReply := reply
        led := led, out := out }
  | setting (slot : Nat) (a soundEn repeatEn : Byte) (out : Outputs) (unread : s.rxEmpty = false)
      (own : slot = s.par.slotSound ∨ slot = s.par.slotRepeat) :
      LineEffect s { s with
        mem := s.mem.write .nvm slot a, rxRd := s.rxNext s.rxRd, rxFull := false, soundEn := soundEn
        repeatEn := repeatEn, dpPhase := dpIdle, out := out }
  | staged (out : Outputs) :
      LineEffect s { s with
        mem := s.mem.write .tx 0 s.dpReply, txWr := 1, txRd := 0, dpPhase := dpIdle, out := out }
  | housed (out : Outputs) : LineEffect s { s with ovfAck := s.ovfReqB, rxOvf := false, out := out }
  | synced (x : Crossing) : LineEffect s (s.syncStep x)
  | reset : LineEffect s s.resetStep
  | released (phase : ResetPhase) : LineEffect s { s with resetPhase := phase, out := {} }

theorem State.rxEmpty_of_fetchEnabled {s : State} (enabled : s.fetchEnabled = true) : s.rxEmpty = false := by
  rw [State.fetchEnabled, Bool.and_eq_true, Bool.not_eq_true'] at enabled
  exact enabled.2

theorem State.rxEmpty_of_argEnabled {s : State} (enabled : s.argEnabled = true) : s.rxEmpty = false := by
  rw [State.argEnabled, Bool.and_eq_true, Bool.not_eq_true'] at enabled
  exact enabled.2

/-- A release of `rst` changes the reset phase and the ports at most. -/
theorem State.releaseStep_eq (s : State) :
    s.releaseStep = { s with resetPhase := s.releaseStep.resetPhase, out := {} } := by
  unfold State.releaseStep
  split <;> rfl

theorem ExecCourse.effect {s t : State} (course : ExecCourse s t) : LineEffect s t := by
  cases course with
  | tick k => exact .tick k
  | addressed => exact .engine true s.txRd s.rxOvf _
  | ended => exact .engine false s.txRd s.rxOvf _
  | recovered cls =>
    rw [State.busRecovery_eq]
    exact .engine s.busy s.txRd s.rxOvf _
  | sent => exact .engine true (s.txRd + 1) s.rxOvf _
  | dropped => exact .engine s.busy s.txRd true _
  | stored d room index => exact .stored d room index _
  | blocked => exact .engine s.busy s.txRd s.rxOvf {}
  | getkey enabled =>
    rw [State.kqClear_kqPop0, State.quiet_rxAdvance_eq]
    exact .command s.kqWrB dpStage s.dpCmd _ s.led {} (State.rxEmpty_of_fetchEnabled enabled) (.inr rfl)
      (.inr (.inl rfl))
  | getcur enabled =>
    rw [State.quiet_rxAdvance_eq]
    exact .command s.kqWrB dpStage s.dpCmd _ s.led {} (State.rxEmpty_of_fetchEnabled enabled) (.inr rfl)
      (.inr (.inl rfl))
  | getcnt enabled =>
    rw [State.quiet_rxAdvance_eq]
    exact .command s.kqRd dpStage s.dpCmd _ s.led {} (State.rxEmpty_of_fetchEnabled enabled) (.inl rfl)
      (.inr (.inl rfl))
  | awaited c takes enabled =>
    rw [State.quiet_rxAdvance_eq]
    exact .command s.kqRd dpArg c s.dpReply s.led {} (State.rxEmpty_of_fetchEnabled enabled) (.inl rfl)
      (.inr (.inr (.inl ⟨rfl, takes⟩)))
  | ignored c enabled =>
    rw [State.raise_eq, State.quiet_rxAdvance_eq]
    exact .command s.kqRd s.dpPhase s.dpCmd s.dpReply s.led _ (State.rxEmpty_of_fetchEnabled enabled) (.inl rfl)
      (.inr (.inr (.inr ⟨rfl, rfl⟩)))
  | ledSet c a enabled =>
    rw [State.quiet_rxAdvance_eq]
    exact .command s.kqRd dpIdle s.dpCmd s.dpReply _ {} (State.rxEmpty_of_argEnabled enabled) (.inl rfl) (.inl rfl)
  | soundSet a enabled =>
    rw [State.quiet_rxAdvance_eq]
    exact .setting _ a a s.repeatEn _ (State.rxEmpty_of_argEnabled enabled) (.inl rfl)
  | repeatSet a enabled =>
    rw [State.quiet_rxAdvance_eq]
    exact .setting _ a s.soundEn a _ (State.rxEmpty_of_argEnabled enabled) (.inr rfl)

/-- Every course of a line is of one of the ten kinds. -/
theorem LineCourse.effect {s t : State} (course : LineCourse s t) : LineEffect s t := by
  cases course with
  | instr course => exact course.effect
  | argOther enabled =>
    exact .command s.kqRd dpIdle s.dpCmd s.dpReply s.led {} (State.rxEmpty_of_argEnabled enabled) (.inl rfl) (.inl rfl)
  | staged => exact .staged {}
  | housed => exact .housed _
  | synced x => exact .synced x
  | reset => exact .reset
  | released =>
    rw [State.releaseStep_eq]
    exact .released _

/-- A predicate that `BOOT`, the taking of a line and every effect of a line keep is kept by every step. -/
theorem step_keeps {P : State → Prop} (boot : ∀ {s : State} soundEn repeatEn soundEnT repeatEnT out, P s →
      P { s with
        soundEn := soundEn, repeatEn := repeatEn, soundEnT := soundEnT, repeatEnT := repeatEnT
        resetPhase := .running, out := out })
    (popped : ∀ {s : State} inbox freeIdx, P s → P { s with inbox := inbox, freeIdx := freeIdx })
    (line : ∀ {s t}, LineEffect s t → P s → P t) {s t : State} (stepped : step s = .next t) (before : P s) : P t := by
  obtain rfl | course := step_course stepped
  · rw [State.bootStep_eq]
    exact boot _ _ _ _ _ before
  · exact line course.effect (by rw [State.popLine_eq]; exact popped _ _ before)

/-- What a tick does to the cells, to `kq_wr` and to `ovf_req`: nothing; its own code, which is not 0, stored where the
producer sees room; or the overflow raised with no raise outstanding (R65, R72, R123). -/
theorem State.tick_fifo (s : State) (k : Byte) :
    ((s.tick k).mem = s.mem ∧ (s.tick k).kqWr = s.kqWr ∧ (s.tick k).ovfReq = s.ovfReq) ∨
    (k ≠ 0 ∧ s.kqWr + 1 ≠ s.kqRdT ∧ (s.tick k).mem = s.mem.write .kq s.kqWr.toNat k ∧
      (s.tick k).kqWr = s.kqWr + 1 ∧ (s.tick k).ovfReq = s.ovfReq) ∨
    (s.ovfReq = s.ovfAckT ∧ (s.tick k).mem = s.mem ∧ (s.tick k).kqWr = s.kqWr ∧ (s.tick k).ovfReq = !s.ovfReq) := by
  have of_emission {n : BitVec 7} (ne : k ≠ 0) (h : s.tick k = { s.quiet.emit k with streak := n }) :
      ((s.tick k).mem = s.mem ∧ (s.tick k).kqWr = s.kqWr ∧ (s.tick k).ovfReq = s.ovfReq) ∨
      (k ≠ 0 ∧ s.kqWr + 1 ≠ s.kqRdT ∧ (s.tick k).mem = s.mem.write .kq s.kqWr.toNat k ∧
        (s.tick k).kqWr = s.kqWr + 1 ∧ (s.tick k).ovfReq = s.ovfReq) ∨
      (s.ovfReq = s.ovfAckT ∧ (s.tick k).mem = s.mem ∧ (s.tick k).kqWr = s.kqWr ∧
        (s.tick k).ovfReq = !s.ovfReq) := by
    rw [h]
    by_cases full : s.kqWr + 1 = s.kqRdT
    · rw [State.emit_of_full (s := s.quiet) k full]
      by_cases raises : s.soundEnT = true ∧ s.ovfReq = s.ovfAckT
      · exact .inr (.inr ⟨raises.2, rfl, rfl, if_pos raises⟩)
      · exact .inl ⟨rfl, rfl, if_neg raises⟩
    · rw [State.emit_of_room (s := s.quiet) k full]
      exact .inr (.inl ⟨ne, full, rfl, rfl, rfl⟩)
  obtain ⟨-, h⟩ | ⟨-, -, h⟩ | ⟨-, -, -, -, h⟩ | ⟨ne, -, -, h⟩ | ⟨ne, -, -, -, h⟩ := s.tick_cases k
  iterate 3 exact .inl (by rw [h]; exact ⟨rfl, rfl, rfl⟩)
  iterate 2 exact of_emission ne h

/-- A tick leaves the pointers that are not the producer's. -/
theorem State.tick_samePointers (s : State) (k : Byte) :
    (s.tick k).kqRd = s.kqRd ∧ (s.tick k).kqRdT = s.kqRdT ∧ (s.tick k).kqWrB = s.kqWrB := by
  obtain ⟨⟨kqRdT, kqWrB, -⟩, -, -, ⟨-, kqRd, -⟩, -⟩ := s.tick_sameOthers k
  exact ⟨kqRd, kqRdT, kqWrB⟩

/-! ### The pointer order -/

theorem PointerOrder.tick {s : State} (order : PointerOrder s) (k : Byte) : PointerOrder (s.tick k) := by
  obtain ⟨rd, rdT, wrB⟩ := s.tick_samePointers k
  obtain ⟨-, wr, -⟩ | ⟨-, room, -, wr, -⟩ | ⟨-, -, wr, -⟩ := s.tick_fifo k
  case inr.inl =>
    obtain ⟨lt_wr, lt_rd, lt_rdT, lt_wrB⟩ := s.kqPointers_lt
    have ne : (s.kqWr.toNat + 1) % 32 ≠ s.kqRdT.toNat := fun h =>
      room (BitVec.eq_of_toNat_eq ((kqIndex_succ_toNat _).trans h))
    rw [pointerOrder_iff] at order ⊢
    rw [rd, rdT, wrB, wr, kqIndex_succ_toNat]
    omega
  all_goals
    rw [PointerOrder, rd, rdT, wrB, wr]
    exact order

/-- The consumer may take all that it sees (R74). -/
theorem PointerOrder.clear {s : State} (order : PointerOrder s) :
    (s.kqWrB - s.kqRdT).toNat + (s.kqWrB - s.kqWrB).toNat + (s.kqWr - s.kqWrB).toNat ≤ 31 := by
  obtain ⟨wr, rd, rdT, wrB⟩ := s.kqPointers_lt
  rw [pointerOrder_iff] at order
  simp only [kqIndex_sub_toNat]
  omega

theorem PointerOrder.syncStep {s : State} (order : PointerOrder s) (x : Crossing) : PointerOrder (s.syncStep x) := by
  obtain ⟨wr, rd, rdT, wrB⟩ := s.kqPointers_lt
  cases x with
  | kqWr =>
    rw [pointerOrder_iff] at order ⊢
    simp only [State.syncStep, State.quiet_kqRd, State.quiet_kqRdT, State.quiet_kqWr]
    omega
  | kqRd =>
    rw [pointerOrder_iff] at order ⊢
    simp only [State.syncStep, State.quiet_kqRd, State.quiet_kqWrB, State.quiet_kqWr]
    omega
  | cur | cfg | cfgSound | cfgRepeat | ovfReq | ovfAck => exact order

theorem LineEffect.keeps_pointerOrder {s t : State} (effect : LineEffect s t) (order : PointerOrder s) :
    PointerOrder t := by
  cases effect with
  | tick k => exact order.tick k
  | command kqRd _ _ _ _ _ _ cleared =>
    obtain rfl | rfl := cleared
    · exact order
    · exact order.clear
  | synced x => exact order.syncStep x
  | reset => exact (by decide : (0#5 - 0#5).toNat + (0#5 - 0#5).toNat + (0#5 - 0#5).toNat ≤ 31)
  | engine | stored | setting | staged | housed | released => exact order

/-- Settles O25: of what a line can do, a tick, a command that clears the FIFO and the copy of a pointer move one, and
each keeps the order. -/
theorem stepKeepsPointerOrder : Obligations.StepKeepsPointerOrder := by
  unfold Obligations.StepKeepsPointerOrder
  exact fun s t order stepped =>
    step_keeps (P := PointerOrder) (fun _ _ _ _ _ => id) (fun _ _ => id) LineEffect.keeps_pointerOrder stepped order

/-! ### The canonical form of the memory -/

theorem LineEffect.keeps_wf {s t : State} (effect : LineEffect s t) (wf : s.mem.wf) : t.mem.wf := by
  cases effect with
  | tick k =>
    obtain ⟨mem, -⟩ | ⟨-, -, mem, -⟩ | ⟨-, mem, -⟩ := s.tick_fifo k <;> rw [mem]
    case inr.inl => exact Memory.write_keeps_wf .kq _ k wf
    all_goals exact wf
  | stored d => exact Memory.write_keeps_wf .rx s.rxWr d wf
  | setting slot a => exact Memory.write_keeps_wf .nvm slot a wf
  | staged => exact Memory.write_keeps_wf .tx 0 s.dpReply wf
  | synced x => cases x <;> exact wf
  | reset =>
    obtain ⟨-, -, -, nvm⟩ := wf
    obtain ⟨kq, rx, tx, -⟩ := Memory.empty_wf
    exact ⟨kq, rx, tx, nvm⟩
  | engine | command | housed | released => exact wf

/-! ### The indices of `RX` -/

theorem LineEffect.keeps_rxSound {s t : State} (effect : LineEffect s t) (sound : RxSound s) : RxSound t := by
  cases effect with
  | tick k =>
    obtain ⟨-, ⟨-, rxWr⟩, ⟨rxFull, -⟩, ⟨rxRd, -⟩, ⟨par, -⟩⟩ := s.tick_sameOthers k
    rw [RxSound, par, rxWr, rxRd, rxFull]
    exact sound
  | stored d room => exact sound.rxStore d room
  | command | setting => exact sound.rxAdvance
  | synced x => cases x <;> exact sound
  | reset =>
    obtain ⟨two, -⟩ := sound
    exact ⟨two, Nat.lt_of_lt_of_le Nat.zero_lt_two two, Nat.lt_of_lt_of_le Nat.zero_lt_two two, fun _ => rfl⟩
  | engine | staged | housed | released => exact sound

/-! ### The debounce machine -/

theorem StreakSound.tick (s : State) (k : Byte) : StreakSound (s.tick k) := by
  by_cases zero : k = 0
  · subst zero
    obtain ⟨code, streak, -⟩ := s.tick_of_zero
    rw [StreakSound, code, streak]
    exact ⟨Nat.zero_le _, iff_of_true rfl rfl⟩
  by_cases same : k = s.lastCode
  · obtain ⟨code, streak, -⟩ := State.tick_of_same zero same
    have bounds : 1 ≤ (s.tick k).streak.toNat ∧ (s.tick k).streak.toNat ≤ 75 := by
      rw [streak]
      split_ifs <;> omega
    refine ⟨bounds.2, iff_of_false (fun none_of => ?_) (by rwa [code])⟩
    rw [none_of] at bounds
    exact absurd bounds.1 (by decide)
  · obtain ⟨code, streak, -⟩ := State.tick_of_other zero same
    rw [StreakSound, code, streak]
    exact ⟨by decide, iff_of_false (by decide) zero⟩

theorem LineEffect.keeps_streakSound {s t : State} (effect : LineEffect s t) (sound : StreakSound s) :
    StreakSound t := by
  cases effect with
  | tick k => exact .tick s k
  | synced x => cases x <;> exact sound
  | reset => exact ⟨Nat.zero_le _, iff_of_true rfl rfl⟩
  | engine | stored | command | setting | staged | housed | released => exact sound

/-! ### The tail of `TX` -/

theorem LineEffect.keeps_txSound {s t : State} (effect : LineEffect s t) (sound : TxSound s) : TxSound t := by
  obtain ⟨tail, wr⟩ := sound
  cases effect with
  | tick k =>
    obtain ⟨-, -, -, ⟨-, -, -, txWr, -⟩, -⟩ := s.tick_sameOthers k
    exact ⟨fun i after => (s.tick_sameCellsBut k .tx i (by simp)).trans (tail i after), txWr ▸ wr⟩
  | staged =>
    refine ⟨fun i after => ?_, .inr rfl⟩
    have other : ¬(Space.tx = .tx ∧ i = 0) := fun here => absurd here.2 (by omega)
    exact (s.txStage_sameCellsBut s.dpReply .tx i other).trans (tail i after)
  | synced x => cases x <;> exact ⟨tail, wr⟩
  | reset => exact ⟨fun i _ => State.readCell_tx_of_nil rfl i, .inl rfl⟩
  | engine | stored | command | setting | housed | released => exact ⟨tail, wr⟩

/-! ### The dispatcher's phase -/

theorem LineEffect.keeps_phaseSound {s t : State} (effect : LineEffect s t) (sound : PhaseSound s) : PhaseSound t := by
  have idle (c : Byte) : dpIdle ≠ 3 ∧ (dpIdle = dpArg → takesArg c = true) :=
    ⟨by decide, fun arg => absurd arg (by decide)⟩
  have stage (c : Byte) : dpStage ≠ 3 ∧ (dpStage = dpArg → takesArg c = true) :=
    ⟨by decide, fun arg => absurd arg (by decide)⟩
  have arg_ne : dpArg ≠ 3 := by decide
  cases effect with
  | tick k =>
    obtain ⟨phase, cmd, -⟩ := (s.tick_sameDispatcher k).samePhase
    rw [PhaseSound, phase, cmd]
    exact sound
  | command _ phase cmd _ _ _ _ _ left =>
    obtain rfl | rfl | ⟨rfl, takes⟩ | ⟨rfl, rfl⟩ := left
    · exact idle cmd
    · exact stage cmd
    · exact ⟨arg_ne, fun _ => takes⟩
    · exact sound
  | setting | staged => exact idle s.dpCmd
  | synced x => cases x <;> exact sound
  | reset => exact idle 0
  | engine | stored | housed | released => exact sound

/-! ### The overflow handshake -/

/-- The handshake as a condition on its four signals. -/
def HandshakeOf (req reqB ack ackT : Bool) : Prop :=
  (req ≠ reqB → reqB = ack ∧ ack = ackT) ∧ (reqB ≠ ack → req = reqB ∧ ack = ackT)

/-- A raise is made with none outstanding, and opens the first link. -/
theorem handshakeOf_raise : ∀ req reqB ack ackT, HandshakeOf req reqB ack ackT → req = ackT →
    HandshakeOf (!req) reqB ack ackT := by
  unfold HandshakeOf
  decide

/-- The request seen closes the first link. -/
theorem handshakeOf_see : ∀ req reqB ack ackT, HandshakeOf req reqB ack ackT → HandshakeOf req req ack ackT := by
  unfold HandshakeOf
  decide

/-- The acknowledgement closes the second link. -/
theorem handshakeOf_acknowledge : ∀ req reqB ack ackT, HandshakeOf req reqB ack ackT →
    HandshakeOf req reqB reqB ackT := by
  unfold HandshakeOf
  decide

/-- The acknowledgement seen closes the third link. -/
theorem handshakeOf_seeAck : ∀ req reqB ack ackT, HandshakeOf req reqB ack ackT → HandshakeOf req reqB ack ack := by
  unfold HandshakeOf
  decide

theorem LineEffect.keeps_handshakeSound {s t : State} (effect : LineEffect s t) (sound : HandshakeSound s) :
    HandshakeSound t := by
  have links : HandshakeOf s.ovfReq s.ovfReqB s.ovfAck s.ovfAckT := sound
  cases effect with
  | tick k =>
    obtain ⟨⟨-, -, -, -, -, ovfReqB, ovfAckT⟩, -, -, ⟨-, -, ovfAck, -⟩, -⟩ := s.tick_sameOthers k
    obtain ⟨-, -, ovfReq⟩ | ⟨-, -, -, -, ovfReq⟩ | ⟨clear, -, -, ovfReq⟩ := s.tick_fifo k <;>
      rw [HandshakeSound, ovfReqB, ovfAckT, ovfAck, ovfReq]
    case inr.inr => exact handshakeOf_raise _ _ _ _ links clear
    all_goals exact links
  | housed => exact handshakeOf_acknowledge _ _ _ _ links
  | synced x => cases x with
    | ovfReq => exact handshakeOf_see _ _ _ _ links
    | ovfAck => exact handshakeOf_seeAck _ _ _ _ links
    | kqWr | kqRd | cur | cfg | cfgSound | cfgRepeat => exact links
  | reset => exact (by unfold HandshakeOf; decide : HandshakeOf false false false false)
  | engine | stored | command | setting | staged | released => exact links

/-- Settles O56: each invariant on its own, by what a line can do. -/
theorem stepKeepsEachLocalInvariant : Obligations.StepKeepsEachLocalInvariant := by
  unfold Obligations.StepKeepsEachLocalInvariant
  intro s t stepped
  exact ⟨step_keeps (P := fun u => u.mem.wf) (fun _ _ _ _ _ => id) (fun _ _ => id) LineEffect.keeps_wf stepped,
    step_keeps (P := RxSound) (fun _ _ _ _ _ => id) (fun _ _ => id) LineEffect.keeps_rxSound stepped,
    step_keeps (P := StreakSound) (fun _ _ _ _ _ => id) (fun _ _ => id) LineEffect.keeps_streakSound stepped,
    step_keeps (P := TxSound) (fun _ _ _ _ _ => id) (fun _ _ => id) LineEffect.keeps_txSound stepped,
    step_keeps (P := PhaseSound) (fun _ _ _ _ _ => id) (fun _ _ => id) LineEffect.keeps_phaseSound stepped,
    step_keeps (P := HandshakeSound) (fun _ _ _ _ _ => id) (fun _ _ => id) LineEffect.keeps_handshakeSound stepped⟩

end Sys2Proof.Machine
end

section
/-! PROOF. The whole invariant: what ties the cells to the pointers and the indices, and the block at its reset values
until the agents run. With it no step stops the machine, and a scheduled copy catches up. -/

namespace Sys2Proof.Machine

/-! ### Which cells are listed -/

/-- A put lists no cell but its own and those before. -/
theorem forall_mem_putCell {fill : Option Byte} {i : Nat} {v : Byte} {cells : List Host.Cell} {p : Nat → Prop}
    (before : ∀ c ∈ cells, p c.1) (own : p i) : ∀ c ∈ putCell fill i v cells, p c.1 := by
  intro c member
  obtain ⟨rfl, -⟩ | old := mem_putCell member
  · exact own
  · exact before c old

theorem LineEffect.keeps_cellsExist {s t : State} (effect : LineEffect s t) (exist : CellsExist s) : CellsExist t := by
  obtain ⟨kq, rx, tx, nvm⟩ := exist
  cases effect with
  | tick k =>
    obtain ⟨par, -⟩ := s.tick_sameModel k
    obtain ⟨mem, -⟩ | ⟨-, -, mem, -⟩ | ⟨-, mem, -⟩ := s.tick_fifo k <;> rw [CellsExist, par, mem]
    case inr.inl => exact ⟨forall_mem_putCell (p := (· < 32)) kq s.kqWr.isLt, rx, tx, nvm⟩
    all_goals exact ⟨kq, rx, tx, nvm⟩
  | stored d room index => exact ⟨kq, forall_mem_putCell (p := (· < s.par.cR)) rx index, tx, nvm⟩
  | setting slot a _ _ _ _ own =>
    exact ⟨kq, rx, tx, forall_mem_putCell (p := fun i => i = s.par.slotSound ∨ i = s.par.slotRepeat) nvm own⟩
  | staged => exact ⟨kq, rx, forall_mem_putCell (p := (· < 4)) tx (by decide), nvm⟩
  | synced x => cases x <;> exact ⟨kq, rx, tx, nvm⟩
  | reset => exact ⟨nofun, nofun, nofun, nvm⟩
  | engine | command | housed | released => exact ⟨kq, rx, tx, nvm⟩

/-! ### No unread cell is one that nothing wrote -/

/-- A cell written in a space whose unwritten cells have no stated value is listed (R25). -/
theorem findCell_write_same {fill : Option Byte} {i : Nat} (v : Byte) {cells : List Host.Cell} (wf : cellsWf fill cells)
    (unstated : fill = none) : findCell i (putCell fill i v cells) = some v := by
  rw [findCell_putCell_same fill i v cells wf.1, unstated, if_neg (by simp)]

/-- An event pushed is written, and the unread ones before it stay. -/
theorem KqWritten.push {s t : State} (written : KqWritten s) (wf : s.mem.wf) {k : Byte} (ne : k ≠ 0)
    (mem : t.mem = s.mem.write .kq s.kqWr.toNat k) (wr : t.kqWr = s.kqWr + 1) (rd : t.kqRd = s.kqRd) :
    KqWritten t := by
  obtain ⟨lt_wr, lt_rd, -, -⟩ := s.kqPointers_lt
  intro j unread
  rw [State.kqOccupancy_toNat, wr, rd, kqIndex_succ_toNat] at unread
  rw [rd, mem, show Config.cK = 32 from rfl]
  show ∃ v, findCell _ (putCell Space.kq.fill s.kqWr.toNat k s.mem.kq) = some v ∧ v ≠ 0
  by_cases new : (s.kqRd.toNat + j) % 32 = s.kqWr.toNat
  · exact ⟨k, by rw [new]; exact findCell_write_same k wf.1 rfl, ne⟩
  · rw [findCell_putCell_other _ _ _ new]
    exact written j (by rw [State.kqOccupancy_toNat]; omega)

/-- A read index moved up to what the consumer sees leaves unread only cells that were unread. -/
theorem KqWritten.clear {s t : State} (written : KqWritten s) (order : PointerOrder s) (mem : t.mem.kq = s.mem.kq)
    (wr : t.kqWr = s.kqWr) (rd : t.kqRd = s.kqWrB) : KqWritten t := by
  obtain ⟨lt_wr, lt_rd, lt_rdT, lt_wrB⟩ := s.kqPointers_lt
  rw [pointerOrder_iff] at order
  intro j unread
  rw [State.kqOccupancy_toNat, wr, rd] at unread
  have later := written ((s.kqWrB.toNat + 32 - s.kqRd.toNat) % 32 + j) (by rw [State.kqOccupancy_toNat]; omega)
  have index : (s.kqRd.toNat + ((s.kqWrB.toNat + 32 - s.kqRd.toNat) % 32 + j)) % 32 = (s.kqWrB.toNat + j) % 32 := by
    omega
  rw [show Config.cK = 32 from rfl, index] at later
  rw [rd, mem]
  exact later

theorem LineEffect.keeps_kqWritten {s t : State} (effect : LineEffect s t) (wf : s.mem.wf) (order : PointerOrder s)
    (written : KqWritten s) : KqWritten t := by
  cases effect with
  | tick k =>
    obtain ⟨rd, -, -⟩ := s.tick_samePointers k
    obtain ⟨mem, wr, -⟩ | ⟨ne, -, mem, wr, -⟩ | ⟨-, mem, wr, -⟩ := s.tick_fifo k
    case inr.inl => exact written.push wf ne mem wr rd
    all_goals
      rw [KqWritten, State.kqOccupancy, mem, wr, rd]
      exact written
  | command _ _ _ _ _ _ _ cleared =>
    obtain rfl | rfl := cleared
    · exact written
    · exact written.clear order rfl rfl rfl
  | synced x => cases x <;> exact written
  | reset =>
    have none_unread : s.resetStep.kqOccupancy.toNat = 0 := by simp [State.kqOccupancy, State.resetStep, State.reset]
    intro j unread
    exact absurd (none_unread ▸ unread) (Nat.not_lt_zero j)
  | engine | stored | setting | staged | housed | released => exact written

/-- A byte stored is written, and the unread ones before it stay. -/
theorem RxWritten.store {s : State} (written : RxWritten s) (wf : s.mem.wf) (sound : RxSound s) (d : Byte)
    (room : s.rxFull = false) : RxWritten (s.rxStore d) := by
  intro j unread
  rw [State.rxCount_rxStore sound d room] at unread
  show ∃ v, findCell (s.rxIndex j) (putCell Space.rx.fill s.rxWr d s.mem.rx) = some v
  by_cases new : j = s.rxCount
  · rw [new, State.rxIndex_rxCount sound room]
    exact ⟨d, findCell_write_same d wf.2.1 rfl⟩
  · have old : j < s.rxCount := by omega
    rw [findCell_putCell_other _ _ _ (State.rxIndex_ne_rxWr sound room old)]
    exact written j old

/-- A byte popped leaves the others unread. -/
theorem RxWritten.advance {s : State} (written : RxWritten s) (sound : RxSound s) (unread : s.rxEmpty = false) :
    RxWritten s.rxAdvance := by
  have count := State.rxCount_rxAdvance sound unread
  intro j before
  show ∃ v, findCell (s.rxAdvance.rxIndex j) s.mem.rx = some v
  rw [State.rxIndex_rxAdvance]
  exact written (j + 1) (by omega)

theorem LineEffect.keeps_rxWritten {s t : State} (effect : LineEffect s t) (wf : s.mem.wf) (sound : RxSound s)
    (written : RxWritten s) : RxWritten t := by
  cases effect with
  | tick k =>
    obtain ⟨-, ⟨-, rxWr⟩, ⟨rxFull, -⟩, ⟨rxRd, -⟩, ⟨par, -⟩⟩ := s.tick_sameOthers k
    obtain ⟨mem, -⟩ | ⟨-, -, mem, -⟩ | ⟨-, mem, -⟩ := s.tick_fifo k <;>
      rw [RxWritten, State.rxCount, mem, par, rxWr, rxRd, rxFull] <;> exact written
  | stored d room => exact written.store wf sound d room
  | command _ _ _ _ _ _ unread | setting _ _ _ _ _ unread => exact written.advance sound unread
  | synced x => cases x <;> exact written
  | reset =>
    have none_unread : s.resetStep.rxCount = 0 := by simp [State.rxCount, State.resetStep, State.reset]
    intro j unread
    exact absurd (none_unread ▸ unread) (Nat.not_lt_zero j)
  | engine | staged | housed | released => exact written

/-! ### The reset values until the agents run -/

/-- What is not the block's may change at the reset values. -/
theorem AtResetValues.model {s : State} (values : AtResetValues s) (phase : ResetPhase) (inbox : List Line)
    (freeIdx : Nat) (out : Outputs) :
    AtResetValues { s with resetPhase := phase, inbox := inbox, freeIdx := freeIdx, out := out } := by
  have moved := congrArg
    (fun u : State => { u with resetPhase := phase, inbox := inbox, freeIdx := freeIdx, out := out })
    (show s = _ from values)
  exact moved

/-- No line but a reset's changes what is not the block's. -/
theorem RunCourse.sameModel {s t : State} {l : Line} (course : RunCourse s l t) (notReset : l ≠ .rstAssert) :
    SameModel s t := by
  cases course with
  | tickC k => exact s.tick_sameModel k
  | tickM m => exact s.tick_sameModel _
  | status cls d run => exact (exec_decodeStatus_scope run).sameModel
  | fetched => exact (commandEffect_fetchScope _ _).of_popped.keeps.sameModel
  | argued => exact (argumentEffect_argScope _ _ _).of_popped.keeps.sameModel
  | synced x => cases x <;> exact ⟨rfl, rfl, rfl, rfl, rfl⟩
  | reset => exact absurd rfl notReset
  | fetchWaits | argWaits | stageWaits | houseWaits | released | staged | housed => exact ⟨rfl, rfl, rfl, rfl, rfl⟩

/-- Under reset the block keeps its reset values, whatever the line. -/
theorem AtResetValues.heldLine {s : State} (values : AtResetValues s) (l : Line) : AtResetValues (s.heldLine l) := by
  obtain h | h | h := s.heldLine_cases l <;> rw [h]
  · exact values.model s.resetPhase s.inbox s.freeIdx {}
  · exact rfl
  · rw [State.releaseStep_eq]
    exact values.model _ s.inbox s.freeIdx {}

theorem step_keeps_resetSound {s t : State} (stepped : step s = .next t) (sound : ResetSound s) : ResetSound t := by
  cases phase : s.resetPhase with
  | bootDue =>
    rw [step_of_bootDue phase] at stepped
    cases stepped
    exact fun notRunning => absurd rfl notRunning
  | asserted =>
    rw [step_of_asserted phase] at stepped
    cases stepped
    have values : AtResetValues s := sound (by rw [phase]; exact nofun)
    have popped : AtResetValues s.popLine := by
      rw [State.popLine_eq]
      exact values.model s.resetPhase _ _ s.out
    exact fun _ => popped.heldLine _
  | running =>
    intro notRunning
    by_cases line : s.nextLine = .rstAssert
    · rw [step_of_rstAssert (by rw [phase]; exact nofun) line] at stepped
      cases stepped
      exact rfl
    · obtain ⟨_, _, course⟩ := step_runCourse phase stepped
      obtain ⟨-, same, -⟩ := course.sameModel line
      exact absurd (same.trans phase) notRunning

/-! ### The whole invariant -/

/-- The parameters are constant. -/
theorem LineEffect.same_par {s t : State} (effect : LineEffect s t) : t.par = s.par := by
  cases effect with
  | tick k => exact (s.tick_sameModel k).1
  | synced x => cases x <;> rfl
  | engine | stored | command | setting | staged | housed | reset | released => rfl

/-- What a line keeps of the invariant: all but what the reset phase says. -/
structure SoundBlock (s : State) : Prop where
  params : s.par.wf
  memory : s.mem.wf
  cells : CellsExist s
  pointers : PointerOrder s
  rx : RxSound s
  streak : StreakSound s
  tx : TxSound s
  phase : PhaseSound s
  kqWritten : KqWritten s
  rxWritten : RxWritten s
  handshake : HandshakeSound s

theorem Sound.block {s : State} (sound : Sound s) : SoundBlock s :=
  ⟨sound.params, sound.memory, sound.cells, sound.pointers, sound.rx, sound.streak, sound.tx, sound.phase,
    sound.kqWritten, sound.rxWritten, sound.handshake⟩

theorem SoundBlock.sound {s : State} (block : SoundBlock s) (reset : ResetSound s) : Sound s :=
  ⟨block.params, block.memory, block.cells, block.pointers, block.rx, block.streak, block.tx, block.phase,
    block.kqWritten, block.rxWritten, block.handshake, reset⟩

theorem LineEffect.keeps_soundBlock {s t : State} (effect : LineEffect s t) (block : SoundBlock s) : SoundBlock t where
  params := effect.same_par ▸ block.params
  memory := effect.keeps_wf block.memory
  cells := effect.keeps_cellsExist block.cells
  pointers := effect.keeps_pointerOrder block.pointers
  rx := effect.keeps_rxSound block.rx
  streak := effect.keeps_streakSound block.streak
  tx := effect.keeps_txSound block.tx
  phase := effect.keeps_phaseSound block.phase
  kqWritten := effect.keeps_kqWritten block.memory block.pointers block.kqWritten
  rxWritten := effect.keeps_rxWritten block.memory block.rx block.rxWritten
  handshake := effect.keeps_handshakeSound block.handshake

/-- What `BOOT` loads, and the lines to come, are no part of what a line keeps. -/
theorem SoundBlock.boot_or_popped {s : State} (block : SoundBlock s) (soundEn repeatEn : Byte)
    (soundEnT repeatEnT : Bool) (resetPhase : ResetPhase) (inbox : List Line) (freeIdx : Nat) (out : Outputs) :
    SoundBlock { s with
      soundEn := soundEn, repeatEn := repeatEn, soundEnT := soundEnT, repeatEnT := repeatEnT
      resetPhase := resetPhase, inbox := inbox, freeIdx := freeIdx, out := out } :=
  ⟨block.params, block.memory, block.cells, block.pointers, block.rx, block.streak, block.tx, block.phase,
    block.kqWritten, block.rxWritten, block.handshake⟩

/-- Settles O57: the block's part by what a line can do, each invariant from itself and at most two others; the reset
values by the reset phase. -/
theorem stepKeepsInvariant : Obligations.StepKeepsInvariant := by
  unfold Obligations.StepKeepsInvariant
  intro s t sound stepped
  have block : SoundBlock t := step_keeps (P := SoundBlock)
    (fun _ _ _ _ _ block => block.boot_or_popped _ _ _ _ _ _ _ _)
    (fun _ _ block => block.boot_or_popped _ _ _ _ _ _ _ _)
    LineEffect.keeps_soundBlock stepped sound.block
  exact block.sound (step_keeps_resetSound stepped sound.reset)

/-- Settles O58: nothing is listed and nothing is unread; the registers by their reset values. -/
theorem resetStateIsSound : Obligations.ResetStateIsSound := by
  unfold Obligations.ResetStateIsSound
  refine ⟨by decide, Memory.empty_wf, ⟨nofun, nofun, nofun, nofun⟩, ?pointers, ?rx, ?streak, ?tx, ?phase, ?kq, ?rxw,
    ?handshake, fun _ => rfl⟩
  case pointers => unfold PointerOrder; decide
  case rx => unfold RxSound; decide
  case streak => unfold StreakSound; decide
  case tx => exact ⟨fun i _ => State.readCell_tx_of_nil rfl i, .inl rfl⟩
  case phase => unfold PhaseSound; decide
  case kq => exact fun j unread => absurd unread (by simp [State.kqOccupancy, State.reset])
  case rxw => exact fun j unread => absurd unread (by simp [State.rxCount, State.reset])
  case handshake => unfold HandshakeSound; decide

/-! ### No stop -/

/-- With the indices of `RX` in range every line completes. -/
theorem State.runLine_completes {s : State} (sound : RxSound s) (l : Line) : ∃ t, s.runLine l = .next t := by
  cases l with
  | st cls d =>
    obtain ⟨t, -, completes, -⟩ := statusAlwaysCompletesWithOneAction cls d s sound.rxWr_lt
    exact ⟨t, completes⟩
  | dFetch =>
    rw [State.runLine_dFetch]
    cases enabled : s.fetchEnabled with
    | true => exact ⟨_, State.fetchStep_enabled enabled sound.rxRd_lt⟩
    | false => exact ⟨_, State.fetchStep_of_blocked _ enabled⟩
  | dArg =>
    rw [State.runLine_dArg]
    cases enabled : s.argEnabled with
    | true => exact ⟨_, State.argStep_enabled enabled sound.rxRd_lt⟩
    | false => exact ⟨_, State.argStep_of_blocked _ enabled⟩
  | tickC | tickM | dStage | dHouse | sync | rstAssert | rstRelease => exact ⟨_, rfl⟩

/-- Settles O59: the one fault is that of an index out of range. -/
theorem soundMachineNeverStops : Obligations.SoundMachineNeverStops := by
  unfold Obligations.SoundMachineNeverStops
  intro s sound
  cases phase : s.resetPhase with
  | bootDue => exact ⟨_, step_of_bootDue phase⟩
  | asserted => exact ⟨_, step_of_asserted phase⟩
  | running =>
    rw [step_of_running phase]
    have popped : RxSound s.popLine := by
      rw [State.popLine_eq]
      exact sound.rx
    exact State.runLine_completes popped _

/-! ### A scheduled copy -/

/-- At the reset values every copy agrees with its home signal (R25). -/
theorem AtResetValues.seenAgrees {s : State} (values : AtResetValues s) (x : Crossing) : seenAgrees s x := by
  rw [show s = _ from values]
  cases x with
  | cfg => exact ⟨rfl, rfl⟩
  | cur | kqWr | kqRd | cfgSound | cfgRepeat | ovfReq | ovfAck => rfl

/-- A copy's own step makes it agree (R37). -/
theorem State.syncStep_seenAgrees (s : State) (x : Crossing) : seenAgrees (s.syncStep x) x := by
  cases x with
  | cfg => exact ⟨rfl, rfl⟩
  | cur | kqWr | kqRd | cfgSound | cfgRepeat | ovfReq | ovfAck => rfl

/-- A running machine takes exactly the first line listed. -/
theorem step_takes_line {s t : State} {l : Line} {rest : List Line} (running : s.resetPhase = .running)
    (lines : s.inbox = l :: rest) (stepped : step s = .next t) : t.inbox = rest := by
  obtain ⟨next, popped⟩ := State.popLine_of_inbox lines
  by_cases reset : s.nextLine = .rstAssert
  · rw [step_of_rstAssert (by rw [running]; exact nofun) reset, popped] at stepped
    cases stepped
    rfl
  · rw [step_of_running running, popped] at stepped
    have course := State.runLine_runCourse (s := { s with inbox := rest }) running stepped
    obtain ⟨-, -, -, inbox, -⟩ := course.sameModel reset
    exact inbox

/-- Settles O29: by induction on the lines before the copy's own. Until the agents run the copy agrees already; a
running machine takes one line with each step. -/
theorem seenCopyCatchesUp : Obligations.SeenCopyCatchesUp := by
  unfold Obligations.SeenCopyCatchesUp
  intro s before rest x sound lines
  induction before generalizing s with
  | nil =>
    by_cases running : s.resetPhase = .running
    · obtain ⟨next, -⟩ := State.popLine_of_inbox lines
      refine ⟨1, by decide, ?_⟩
      rw [State.after_succ_of_next (step_sync running next)]
      exact s.popLine.syncStep_seenAgrees x
    · exact ⟨0, Nat.zero_le _, (sound.reset running).seenAgrees x⟩
  | cons l before ih =>
    by_cases running : s.resetPhase = .running
    · obtain ⟨t, stepped⟩ := soundMachineNeverStops s sound
      obtain ⟨n, bound, agrees⟩ := ih t (stepKeepsInvariant s t sound stepped) (step_takes_line running lines stepped)
      refine ⟨n + 1, by simp only [List.length_cons]; omega, ?_⟩
      rw [State.after_succ_of_next stepped]
      exact agrees
    · exact ⟨0, Nat.zero_le _, (sound.reset running).seenAgrees x⟩

end Sys2Proof.Machine
end

section
/-! PROOF. A tick commutes with a status event and with a dispatcher step (R129): the two work on the two domains of the
state, but for the one cell of the FIFO that the dispatcher reads. -/

namespace Sys2Proof.Machine

/-! ### A tick works on domain `T` -/

/-- The state with the domain `T` of `u`, its cells of `KQ` included, and with all the rest its own (R24). -/
def State.withT (s u : State) : State :=
  { s with
    lastCode := u.lastCode, streak := u.streak, kqWr := u.kqWr, ovfReq := u.ovfReq, kqRdT := u.kqRdT
    soundEnT := u.soundEnT, repeatEnT := u.repeatEnT, ovfAckT := u.ovfAckT, mem := { s.mem with kq := u.mem.kq } }

theorem State.withT_self (s : State) : s.withT s = s := rfl

/-- The tick repeats: the count saturates with repeat enabled (R64 (3)). -/
def State.TickRepeats (s : State) : Prop := s.repeatEnT = true ∧ (streakNext s.streak).toNat = 75

/-- A tick of the key held before, that emits nothing. -/
theorem State.tick_same_silent {s : State} {k : Byte} (ne : k ≠ 0) (same : k = s.lastCode)
    (noConfirm : (streakNext s.streak).toNat ≠ 3) (noRepeat : ¬s.TickRepeats) :
    s.tick k = { s.quiet with streak := streakNext s.streak } := by
  obtain ⟨zero, -⟩ | ⟨-, other, -⟩ | ⟨-, -, -, -, h⟩ | ⟨-, -, confirm, -⟩ | ⟨-, -, on, top, -⟩ := s.tick_cases k
  · exact absurd zero ne
  · exact absurd same other
  · exact h
  · exact absurd confirm noConfirm
  · exact absurd ⟨on, top⟩ noRepeat

/-- A tick of the key held before, that confirms it. -/
theorem State.tick_same_confirms {s : State} {k : Byte} (ne : k ≠ 0) (same : k = s.lastCode)
    (confirm : (streakNext s.streak).toNat = 3) :
    s.tick k = { s.quiet.emit k with streak := streakNext s.streak } := by
  obtain ⟨zero, -⟩ | ⟨-, other, -⟩ | ⟨-, -, noConfirm, -⟩ | ⟨-, -, -, h⟩ | ⟨-, -, -, top, -⟩ := s.tick_cases k
  · exact absurd zero ne
  · exact absurd same other
  · exact absurd confirm noConfirm
  · exact h
  · exact absurd (confirm.symm.trans top) (by decide)

/-- A tick of the key held before, that repeats it. -/
theorem State.tick_same_repeats {s : State} {k : Byte} (ne : k ≠ 0) (same : k = s.lastCode) (repeats : s.TickRepeats) :
    s.tick k = { s.quiet.emit k with streak := 60 } := by
  obtain ⟨zero, -⟩ | ⟨-, other, -⟩ | ⟨-, -, -, noRepeat, -⟩ | ⟨-, -, confirm, -⟩ | ⟨-, -, -, -, h⟩ := s.tick_cases k
  · exact absurd zero ne
  · exact absurd same other
  · exact absurd repeats noRepeat
  · exact absurd (confirm.symm.trans repeats.2) (by decide)
  · exact h

/-- An emission reads and writes domain `T` alone, ports apart. -/
theorem State.withT_emit (s u : State) (k : Byte) (n : BitVec 7) :
    ({ (s.withT u).quiet.emit k with streak := n } : State).quiet =
      (s.withT { u.quiet.emit k with streak := n }).quiet := by
  by_cases full : u.kqWr + 1 = u.kqRdT
  · rw [State.emit_of_full (s := u.quiet) k full, State.emit_of_full (s := (s.withT u).quiet) k full]
    rfl
  · rw [State.emit_of_room (s := u.quiet) k full, State.emit_of_room (s := (s.withT u).quiet) k full]
    rfl

/-- A tick reads and writes domain `T` alone, ports apart. -/
theorem State.withT_tick (s u : State) (k : Byte) : ((s.withT u).tick k).quiet = (s.withT (u.tick k)).quiet := by
  by_cases zero : k = 0
  · rw [State.tick, State.tick, if_pos zero, if_pos zero]
    rfl
  by_cases same : k = u.lastCode
  case neg =>
    rw [State.tick, State.tick, if_neg zero, if_neg zero, if_pos same, if_pos (show k ≠ (s.withT u).lastCode from same)]
    rfl
  by_cases confirm : (streakNext u.streak).toNat = 3
  · rw [State.tick_same_confirms zero same confirm, State.tick_same_confirms (s := s.withT u) zero same confirm]
    exact s.withT_emit u k _
  by_cases repeats : u.TickRepeats
  · rw [State.tick_same_repeats zero same repeats, State.tick_same_repeats (s := s.withT u) zero same repeats]
    exact s.withT_emit u k _
  · rw [State.tick_same_silent zero same confirm repeats,
      State.tick_same_silent (s := s.withT u) zero same confirm repeats]
    rfl

/-- A tick finds the ports idle, whatever they were. -/
theorem State.quiet_tick (s : State) (k : Byte) : s.quiet.tick k = s.tick k := rfl

/-! ### Status events and dispatcher steps work on the rest -/

/-- The outcome with its next state's domain `T` from `u` and its ports idle. -/
def outcomeWithT (u : State) : Host.Outcome State Fault Refusal → Host.Outcome State Fault Refusal
  | .next t => .next (t.withT u).quiet
  | .fault r => .fault r
  | .refused r => .refused r

/-- A byte received is stored or dropped whatever domain `T` holds. -/
theorem State.rxPush_withT (s u : State) (d : Byte) :
    portlessOutcome ((s.withT u).quiet.rxPush d) = outcomeWithT u (s.quiet.rxPush d) := by
  by_cases full : s.rxFull = true
  · rw [State.rxPush_of_full (s := s.quiet) d full, State.rxPush_of_full (s := (s.withT u).quiet) d full]
    rfl
  have room : s.rxFull = false := by simpa using full
  by_cases index : s.rxWr < s.par.cR
  · rw [State.rxPush_of_room (s := s.quiet) d room index, State.rxPush_of_room (s := (s.withT u).quiet) d room index]
    rfl
  · have missing : s.par.cR ≤ s.rxWr := Nat.not_lt.mp index
    rw [State.rxPush_of_missing (s := s.quiet) d room missing,
      State.rxPush_of_missing (s := (s.withT u).quiet) d room missing]
    rfl

/-- A status event does the same whatever domain `T` holds. -/
theorem State.runLine_st_withT (s u : State) (cls : BitVec 4) (d : Byte) :
    portlessOutcome ((s.withT u).runLine (.st cls d)) = outcomeWithT u (s.runLine (.st cls d)) := by
  rw [State.runLine_st, State.runLine_st]
  obtain ⟨-, h⟩ | ⟨-, h⟩ | ⟨-, h⟩ | ⟨-, h⟩ | ⟨-, h⟩ := exec_decodeStatus_cases cls d <;> rw [h, h]
  case inr.inr.inr.inr => exact s.rxPush_withT u d
  all_goals rfl

/-- The event that a `GETKEY` would read is the same with the domain `T` of `u`. -/
def SameOldest (s u : State) : Prop :=
  s.kqRd ≠ s.kqWrB → (s.withT u).readCell .kq s.kqRd.toNat = s.readCell .kq s.kqRd.toNat

/-- The effect of a command byte, whatever domain `T` holds but for the event that `GETKEY` reads. -/
theorem commandEffect_withT {s u : State} (c : Byte) (oldest : SameOldest s u) :
    (commandEffect c (s.withT u)).quiet = ((commandEffect c s).withT u).quiet := by
  have reply : (s.withT u).kqPop0.1 = s.kqPop0.1 := by
    rw [State.kqPop0_fst, State.kqPop0_fst]
    by_cases empty : s.kqRd = s.kqWrB
    · rw [if_pos empty, if_pos (show (s.withT u).kqRd = (s.withT u).kqWrB from empty)]
    · rw [if_neg empty, if_neg (show ¬(s.withT u).kqRd = (s.withT u).kqWrB from empty)]
      exact oldest empty
  unfold commandEffect
  rw [reply]
  split_ifs <;> rfl

theorem argumentEffect_withT (s u : State) (c a : Byte) :
    ({ argumentEffect c a (s.withT u) with dpPhase := dpIdle } : State).quiet =
      (({ argumentEffect c a s with dpPhase := dpIdle } : State).withT u).quiet := by
  unfold argumentEffect
  split_ifs <;> rfl

/-- A dispatcher line does the same whatever domain `T` holds, but for the event that `GETKEY` reads. -/
theorem State.runLine_dispatcher_withT {s u : State} (oldest : SameOldest s u) {l : Line}
    (own : l ∈ [Line.dFetch, .dArg, .dStage, .dHouse]) :
    portlessOutcome ((s.withT u).runLine l) = outcomeWithT u (s.runLine l) := by
  simp only [List.mem_cons, List.not_mem_nil, or_false] at own
  obtain rfl | rfl | rfl | rfl := own
  · rw [State.runLine_dFetch, State.runLine_dFetch]
    show portlessOutcome (if s.fetchEnabled = true then (if s.rxRd < s.par.cR then _ else _) else _) =
      outcomeWithT u (if s.fetchEnabled = true then (if s.rxRd < s.par.cR then _ else _) else _)
    split_ifs
    · exact congrArg Host.Outcome.next (commandEffect_withT (s := s.quiet.rxAdvance) s.rxHead oldest)
    all_goals rfl
  · rw [State.runLine_dArg, State.runLine_dArg]
    show portlessOutcome (if s.argEnabled = true then (if s.rxRd < s.par.cR then _ else _) else _) =
      outcomeWithT u (if s.argEnabled = true then (if s.rxRd < s.par.cR then _ else _) else _)
    split_ifs
    · exact congrArg Host.Outcome.next (argumentEffect_withT s.quiet.rxAdvance u s.dpCmd s.rxHead)
    all_goals rfl
  · show portlessOutcome (.next (if s.stageEnabled = true then _ else _)) =
      outcomeWithT u (.next (if s.stageEnabled = true then _ else _))
    split_ifs <;> rfl
  · show portlessOutcome (.next (if s.houseEnabled = true then _ else _)) =
      outcomeWithT u (.next (if s.houseEnabled = true then _ else _))
    split_ifs <;> rfl

/-! ### The two orders -/

theorem State.runLines_single (s : State) (l : Line) : s.runLines [l] = s.runLine l := by
  rw [State.runLines]
  cases s.runLine l <;> rfl

/-- A line that finds the ports idle whatever they were, and does the same with the domain `T` of before and after the
tick, commutes with the tick. -/
theorem tick_commutes {s : State} {k : Byte} {l : Line} (idles : ∀ y : State, y.quiet.runLine l = y.runLine l)
    (before : portlessOutcome ((s.withT s).runLine l) = outcomeWithT s (s.runLine l))
    (after : portlessOutcome ((s.withT (s.tick k)).runLine l) = outcomeWithT (s.tick k) (s.runLine l)) :
    portlessOutcome (s.runLines [.tickC k, l]) = portlessOutcome (s.runLines [l, .tickC k]) := by
  have ticked : (s.tick k).quiet = (s.withT (s.tick k)).quiet := s.withT_tick s k
  have tick_first : portlessOutcome (s.runLines [.tickC k, l]) = outcomeWithT (s.tick k) (s.runLine l) := by
    have run : s.runLine (.tickC k) = .next (s.tick k) := rfl
    rw [State.runLines_cons_of_next run, State.runLines_single, ← idles, ticked, idles, after]
  rw [tick_first]
  cases run : s.runLine l with
  | next t =>
    rw [run, State.withT_self, run] at before
    have kept : t.quiet = (t.withT s).quiet := Host.Outcome.next.inj before
    rw [State.runLines_cons_of_next run, State.runLines_single]
    refine congrArg Host.Outcome.next ?_
    calc (t.withT (s.tick k)).quiet
      _ = ((t.withT s).tick k).quiet := (t.withT_tick s k).symm
      _ = ((t.withT s).quiet.tick k).quiet := by rw [State.quiet_tick]
      _ = (t.tick k).quiet := by rw [← kept, State.quiet_tick]
  | fault r => rw [State.runLines, run]; rfl
  | refused r => rw [State.runLines, run]; rfl

/-- Settles O54: a status event works on the domain that a tick leaves. -/
theorem tickAndStatusCommute : Obligations.TickAndStatusCommute := by
  unfold Obligations.TickAndStatusCommute
  intro s k cls d
  have idles (y : State) : y.quiet.runLine (.st cls d) = y.runLine (.st cls d) := by
    rw [State.runLine_st, State.runLine_st]
    obtain ⟨-, h⟩ | ⟨-, h⟩ | ⟨-, h⟩ | ⟨-, h⟩ | ⟨-, h⟩ := exec_decodeStatus_cases cls d <;> rw [h, h] <;> rfl
  exact tick_commutes idles (s.runLine_st_withT s cls d) (s.runLine_st_withT _ cls d)

/-- Settles O55: a dispatcher step works on the domain that a tick leaves, and the cell that it may read is not the one
that the tick may write, with the pointers in order. -/
theorem tickAndDispatcherCommute : Obligations.TickAndDispatcherCommute := by
  unfold Obligations.TickAndDispatcherCommute
  intro s k order l own
  have idles (y : State) : y.quiet.runLine l = y.runLine l := by
    simp only [List.mem_cons, List.not_mem_nil, or_false] at own
    obtain rfl | rfl | rfl | rfl := own
    · rw [State.runLine_dFetch, State.runLine_dFetch]
      rfl
    · rw [State.runLine_dArg, State.runLine_dArg]
      rfl
    · rfl
    · rfl
  have oldest : SameOldest s (s.tick k) := by
    intro event
    obtain ⟨-, -, epoch, -⟩ := s.tick_sameModel k
    have other : s.kqRd.toNat ≠ s.kqWr.toNat := by
      obtain ⟨wr, rd, rdT, wrB⟩ := s.kqPointers_lt
      have ne : s.kqRd.toNat ≠ s.kqWrB.toNat := fun h => event (BitVec.eq_of_toNat_eq h)
      rw [pointerOrder_iff] at order
      omega
    calc (s.withT (s.tick k)).readCell .kq s.kqRd.toNat
      _ = (s.tick k).readCell .kq s.kqRd.toNat := by
        rw [State.readCell, State.readCell, epoch]
        rfl
      _ = s.readCell .kq s.kqRd.toNat := s.tick_sameCellsBut k .kq _ fun here => other here.2
  exact tick_commutes idles (State.runLine_dispatcher_withT (fun _ => rfl) own)
    (State.runLine_dispatcher_withT oldest own)

end Sys2Proof.Machine
end
